-- ==== Sys2Proof/Word.lean ====
section
/-! DEFINITION. The words of HTC and the parameters of 00_scope.md R10. Numbers are unsigned bit vectors (R11); a bit
string is a list of Bool, first bit first, and is no number (R12); a node index is an element of Fin 511 (entry 4). -/

namespace Sys2Proof

/-- A symbol, an input byte, a payload byte (SYM_W = 8, R10). -/
abbrev Byte := BitVec 8
/-- A command word (CMD_W = 48, R10, R70). -/
abbrev CmdWord := BitVec 48
/-- A response word (RSP_W = 72, R10, R74). -/
abbrev RspWord := BitVec 72
/-- The DATA field of a response word (R74). -/
abbrev Data := BitVec 64
/-- One FREQ entry (FREQ_W = 32, R10, R21). -/
abbrev Count := BitVec 32
/-- A node frequency or the total count (TOT_W = 40, R10). -/
abbrev Total := BitVec 40
/-- The register OLEN, an OMEM address or the parameter OUT_CAP (OLEN_W = 32, R10). -/
abbrev Len := BitVec 32
/-- A node index 0..510: NNODE = 511 entries, IDX_W = 9 bits (R10, R22). -/
abbrev NodeIdx := Fin 511
/-- A bit string in reading order, position 0 first (R12). -/
abbrev BitString := List Bool

/-- NSYM, the number of byte values (R10). -/
abbrev nsym : Nat := 256
/-- NNODE = 2 x NSYM - 1, the entries of the node arena (R10). -/
abbrev nnode : Nat := 511
/-- MAXLEN = NSYM - 1, the longest possible code (R10, R136). -/
abbrev maxLen : Nat := 255

end Sys2Proof
end

