-- ==== Sys2Proof/Syntax.lean ====
section
/-! DEFINITION. The 19 commands of 30_encoding.md R77, one constructor per row of the opcode table, with the operands of
R72 and R73 at their full widths. -/

namespace Sys2Proof

/-- A legal command: the mnemonics of R77 in the table's order. -/
inductive Instr where
  | init                                   -- 46_control_output.md R185
  | stat                                   -- 46_control_output.md R186
  | fset (sym : Byte) (count : Count)      -- 40_frequency.md R100
  | fcnt (byte : Byte)                     -- 40_frequency.md R101
  | fget (sym : Byte)                      -- 40_frequency.md R102
  | ftot                                   -- 40_frequency.md R103
  | build                                  -- 41_tree_builder.md R112
  | nget (idx : BitVec 32)                 -- 41_tree_builder.md R116
  | gen                                    -- 42_codebook.md R131
  | clen (sym : Byte)                      -- 42_codebook.md R134
  | cbit (sym : Byte) (pos : BitVec 32)    -- 42_codebook.md R135
  | pbit (bit : Bool)                      -- 43_bitpacker.md R148
  | enc (byte : Byte)                      -- 44_encode.md R160
  | flush                                  -- 43_bitpacker.md R149
  | dbegin                                 -- 45_decode.md R171
  | dec (byte : Byte)                      -- 45_decode.md R172
  | dend                                   -- 45_decode.md R173
  | olen                                   -- 46_control_output.md R187
  | ord (addr : Len)                       -- 46_control_output.md R188
deriving DecidableEq, Repr

/-- The mnemonic of R77. -/
def Instr.mnemonic : Instr → String
  | .init => "INIT"
  | .stat => "STAT"
  | .fset _ _ => "FSET"
  | .fcnt _ => "FCNT"
  | .fget _ => "FGET"
  | .ftot => "FTOT"
  | .build => "BUILD"
  | .nget _ => "NGET"
  | .gen => "GEN"
  | .clen _ => "CLEN"
  | .cbit _ _ => "CBIT"
  | .pbit _ => "PBIT"
  | .enc _ => "ENC"
  | .flush => "FLUSH"
  | .dbegin => "DBEGIN"
  | .dec _ => "DEC"
  | .dend => "DEND"
  | .olen => "OLEN"
  | .ord _ => "ORD"

end Sys2Proof
end

