-- ==== Sys2Proof/WellFormed.lean ====
section
/-! DEFINITION. Which command words are legal: the opcode map of 30_encoding.md R77 as match and mask rows (R76), and the
verdict of R79. An Instr holds only the operand fields of its format, each at its full width, and R73 makes every
operand value legal, so the checks are on words. -/

namespace Sys2Proof

/-- One row of R77: a word selects it when `(w AND mask) = match` (R76). -/
structure OpRow where
  mnemonic : String
  pattern  : CmdWord
  mask     : CmdWord
deriving DecidableEq, Repr

/-- R76: the word selects the row. -/
def OpRow.selects (r : OpRow) (w : CmdWord) : Bool := w &&& r.mask == r.pattern

/-- The complete opcode map of R77, in its order. -/
def opRows : List OpRow :=
  [ ⟨"INIT", 0x010000000000#48, 0xFFFFFFFFFFFF#48⟩,
    ⟨"STAT", 0x020000000000#48, 0xFFFFFFFFFFFF#48⟩,
    ⟨"FSET", 0x100000000000#48, 0xFF0000000000#48⟩,
    ⟨"FCNT", 0x110000000000#48, 0xFF00FFFFFFFF#48⟩,
    ⟨"FGET", 0x120000000000#48, 0xFF00FFFFFFFF#48⟩,
    ⟨"FTOT", 0x130000000000#48, 0xFFFFFFFFFFFF#48⟩,
    ⟨"BUILD", 0x200000000000#48, 0xFFFFFFFFFFFF#48⟩,
    ⟨"NGET", 0x210000000000#48, 0xFFFF00000000#48⟩,
    ⟨"GEN", 0x300000000000#48, 0xFFFFFFFFFFFF#48⟩,
    ⟨"CLEN", 0x310000000000#48, 0xFF00FFFFFFFF#48⟩,
    ⟨"CBIT", 0x320000000000#48, 0xFF0000000000#48⟩,
    ⟨"PBIT", 0x400000000000#48, 0xFFFEFFFFFFFF#48⟩,
    ⟨"ENC", 0x410000000000#48, 0xFF00FFFFFFFF#48⟩,
    ⟨"FLUSH", 0x420000000000#48, 0xFFFFFFFFFFFF#48⟩,
    ⟨"DBEGIN", 0x500000000000#48, 0xFFFFFFFFFFFF#48⟩,
    ⟨"DEC", 0x510000000000#48, 0xFF00FFFFFFFF#48⟩,
    ⟨"DEND", 0x520000000000#48, 0xFFFFFFFFFFFF#48⟩,
    ⟨"OLEN", 0x600000000000#48, 0xFFFFFFFFFFFF#48⟩,
    ⟨"ORD", 0x610000000000#48, 0xFFFF00000000#48⟩ ]

/-- R79: a word is legal when it selects a row of R77, else it is illegal. -/
def legalWord (w : CmdWord) : Bool := opRows.any (fun r => r.selects w)

/-- Every term of Instr is a legal command: its operands are exactly the operand fields of its format (R72), and no
operand value is an encoding error (R73: idx > 510, addr >= OLEN, pos >= CLEN are RANGE faults of a legal word). -/
def Instr.wellFormed : Instr → Bool
  | .init | .stat | .ftot | .build | .gen | .flush | .dbegin | .dend | .olen => true   -- format Z
  | .fcnt _ | .fget _ | .clen _ | .enc _ | .dec _ => true                              -- format S
  | .fset _ _ | .cbit _ _ => true                                                      -- format SB
  | .nget _ | .ord _ => true                                                           -- format B
  | .pbit _ => true                                                                    -- format T

end Sys2Proof
end

