-- ==== Sys2Proof/Decode.lean ====
section
/-! DEFINITION. The decoder of 30_encoding.md (R70 to R73, R76, R77, R79), total on all 2^48 words, and the encoder
written from the same table. -/

namespace Sys2Proof

/-- Field OP = cmd[47:40] (R71). -/
def fieldOp (w : CmdWord) : BitVec 8 := w.extractLsb' 40 8
/-- Field A = cmd[39:32] (R71). -/
def fieldA (w : CmdWord) : BitVec 8 := w.extractLsb' 32 8
/-- Field B = cmd[31:0] (R71). -/
def fieldB (w : CmdWord) : BitVec 32 := w.extractLsb' 0 32

/-- A command word from its fields: OP in the high bits, then A, then B (R71). -/
def cmdWord (op a : BitVec 8) (b : BitVec 32) : CmdWord := op ++ a ++ b

/-- Format Z (R72): A and B must be 0. -/
def formatZ (a : BitVec 8) (b : BitVec 32) (i : Instr) : Option Instr :=
  if a = 0 ∧ b = 0 then some i else none

/-- Format S (R72): A is the operand, B must be 0. -/
def formatS (a : BitVec 8) (b : BitVec 32) (f : Byte → Instr) : Option Instr :=
  if b = 0 then some (f a) else none

/-- Format SB (R72): A and B are operands. -/
def formatSB (a : BitVec 8) (b : BitVec 32) (f : Byte → BitVec 32 → Instr) : Option Instr :=
  some (f a b)

/-- Format B (R72): B is the operand, A must be 0. -/
def formatB (a : BitVec 8) (b : BitVec 32) (f : BitVec 32 → Instr) : Option Instr :=
  if a = 0 then some (f b) else none

/-- Format T (R72): A[0] is the operand, A[7:1] and B must be 0. -/
def formatT (a : BitVec 8) (b : BitVec 32) (f : Bool → Instr) : Option Instr :=
  if a.extractLsb' 1 7 = 0 ∧ b = 0 then some (f (a.getLsbD 0)) else none

/-- The opcode map of R77 on the fields of a word: the row is chosen by OP alone (R76), the row's format says which
fields must be zero (R72), and every other word is illegal, `none` (R79). -/
def decodeFields (op a : BitVec 8) (b : BitVec 32) : Option Instr :=
  match op.toNat with
  | 0x01 => formatZ a b .init
  | 0x02 => formatZ a b .stat
  | 0x10 => formatSB a b .fset
  | 0x11 => formatS a b .fcnt
  | 0x12 => formatS a b .fget
  | 0x13 => formatZ a b .ftot
  | 0x20 => formatZ a b .build
  | 0x21 => formatB a b .nget
  | 0x30 => formatZ a b .gen
  | 0x31 => formatS a b .clen
  | 0x32 => formatSB a b .cbit
  | 0x40 => formatT a b .pbit
  | 0x41 => formatS a b .enc
  | 0x42 => formatZ a b .flush
  | 0x50 => formatZ a b .dbegin
  | 0x51 => formatS a b .dec
  | 0x52 => formatZ a b .dend
  | 0x60 => formatZ a b .olen
  | 0x61 => formatB a b .ord
  | _ => none

/-- The decoder of R76: a legal command with its operands, or `none` for an illegal word. -/
def decode (w : CmdWord) : Option Instr := decodeFields (fieldOp w) (fieldA w) (fieldB w)

/-- The word of a command (R71, R72, R77): unused fields are zero; PBIT's bit is A[0]. -/
def encode : Instr → CmdWord
  | .init => cmdWord 0x01 0 0
  | .stat => cmdWord 0x02 0 0
  | .fset sym count => cmdWord 0x10 sym count
  | .fcnt byte => cmdWord 0x11 byte 0
  | .fget sym => cmdWord 0x12 sym 0
  | .ftot => cmdWord 0x13 0 0
  | .build => cmdWord 0x20 0 0
  | .nget idx => cmdWord 0x21 0 idx
  | .gen => cmdWord 0x30 0 0
  | .clen sym => cmdWord 0x31 sym 0
  | .cbit sym pos => cmdWord 0x32 sym pos
  | .pbit bit => cmdWord 0x40 (if bit then 1 else 0) 0
  | .enc byte => cmdWord 0x41 byte 0
  | .flush => cmdWord 0x42 0 0
  | .dbegin => cmdWord 0x50 0 0
  | .dec byte => cmdWord 0x51 byte 0
  | .dend => cmdWord 0x52 0 0
  | .olen => cmdWord 0x60 0 0
  | .ord addr => cmdWord 0x61 0 addr

/-- The command word whose bits the opcode table numbers as `w`, of which it gives `nbits`: a command is ONE 48-bit word
(R70) and the table's bit 0 is cmd[0] (R77), so the bits above `nbits` are 0 and the rest stand as they are
(entry 11). -/
def tableWord (nbits w : Nat) : CmdWord := BitVec.ofNat 48 (w % 2 ^ nbits)

/-- The command this decoder reads from the word the opcode table numbers as `w`. -/
def decodeTableWord (nbits w : Nat) : Option Instr := decode (tableWord nbits w)

end Sys2Proof
end

