-- ==== Sys2Proof/Config.lean ====
section
/-! DEFINITION. The configuration of an HTC instance: the one OPEN parameter of the spec, OUT_CAP (00_scope.md R10;
92_eei_decisions.md D6; U8), fixed when HTC is built (70_reset_and_hazards.md R232). -/

namespace Sys2Proof

/-- The Config of R5: what an instance is built with. -/
structure Config where
  /-- OUT_CAP, the capacity of OMEM in bytes, 0 .. 2^32-1 (R10). -/
  outCap : Len
deriving DecidableEq, Repr, Inhabited

/-- The configuration the instance after reset was built with: a free value, since R10 leaves OUT_CAP open. No proof can
see what it is (entry 2). -/
opaque Config.built : Config

end Sys2Proof
end

