-- ==== Sys2Proof/Machine/State.lean ====
section
/-! DEFINITION. The state of HTC (10_state.md section 1: the eleven elements, and nothing else, are the structure Htc), the
command port around it, the reset state (R33), and the reasons a step of the model stops. -/

namespace Sys2Proof.Machine

/-- The session phase (R28). The codes 5 and 6 never occur (U10; entry 5). -/
inductive Phase where
  | load | tree | encode | decode | done | fault
deriving DecidableEq, Repr

/-- The causes of a fault, codes 1 to 7 of 60_exceptions.md R200, in the table's order. -/
inductive FaultCode where
  | illegal | phase | range | freqOvf | noCode | overflow | trunc
deriving DecidableEq, Repr

/-- The STATUS of a response (R200): OK, one of the seven faults, or FAULTED. -/
inductive Status where
  | ok
  | fault (code : FaultCode)
  | faulted
deriving DecidableEq, Repr

/-- One response (30_encoding.md R74). Its 72-bit word is `Response.word`. -/
structure Response where
  status : Status
  data   : Data
deriving DecidableEq, Repr

/-- One entry of the node arena (R22). -/
structure Node where
  v     : Bool
  leaf  : Bool
  f     : Total
  left  : NodeIdx
  right : NodeIdx
deriving DecidableEq, Repr

/-- The all-zero NODE entry (R22). -/
def Node.zero : Node := { v := false, leaf := false, f := 0, left := 0, right := 0 }

/-- One entry of the CodeBook (R24): the code is the first `clen` of the 255 one-bit cells. -/
structure CodeEntry where
  cv    : Bool
  clen  : BitVec 8
  cbits : Vector Bool 255
deriving DecidableEq, Repr

/-- The CODE entry "no code": CV = 0, CLEN = 0, CBITS = "" (R24). -/
def CodeEntry.zero : CodeEntry := { cv := false, clen := 0, cbits := Vector.replicate 255 false }

/-- The bytes of OMEM that have been written (R26), as cells in strictly rising address order. An unlisted address has
no value (entry 6). -/
abbrev Memory := List Host.Cell

/-- The complete state of HTC, 10_state.md section 1. -/
structure Htc where
  freq  : Vector Count 256        -- FREQ, R21
  node  : Vector Node 511         -- NODE, R22
  rootv : Bool                    -- ROOTV, R23
  root  : NodeIdx                 -- ROOT, R23
  nleaf : BitVec 9                -- NLEAF, R23
  nint  : BitVec 8                -- NINT, R23
  code  : Vector CodeEntry 256    -- CODE, R24
  acc   : Byte                    -- ACC, R25
  nbits : BitVec 3                -- NBITS, R25
  omem  : Memory                  -- OMEM, R26
  olen  : Len                     -- OLEN, R26
  cur   : NodeIdx                 -- CUR, R27
  phase : Phase                   -- PHASE, R28
  err   : Option FaultCode        -- ERR, R29: none is the value 0
deriving DecidableEq, Repr

/-- The state after hardware reset and after INIT (R33, R230, R231). -/
def Htc.reset : Htc :=
  { freq  := Vector.replicate 256 0
    node  := Vector.replicate 511 Node.zero
    rootv := false
    root  := 0
    nleaf := 0
    nint  := 0
    code  := Vector.replicate 256 CodeEntry.zero
    acc   := 0
    nbits := 0
    omem  := []
    olen  := 0
    cur   := 0
    phase := .load
    err   := none }

/-- What the host can do to HTC (70_reset_and_hazards.md R233). -/
inductive HostInput where
  | command (w : CmdWord)   -- one command word on the command port
  | reset                   -- the platform's reset signal
deriving DecidableEq, Repr

/-- The machine: an HTC built with `cfg`, the inputs its host has yet to present, and the responses it has given, oldest
first (R5, R18). `cfg`, `inputs` and `rsps` are the model's own fields (entries 1 and 2). -/
structure State where
  cfg    : Config
  htc    : Htc
  inputs : List HostInput
  rsps   : List Response
deriving DecidableEq, Repr

/-- An HTC built with `c`, right after reset, before its host has presented anything. -/
def State.resetWith (c : Config) : State :=
  { cfg := c, htc := Htc.reset, inputs := [], rsps := [] }

/-- The machine right after reset (R33, R230). Its capacity is whatever the instance was built with (entry 2). -/
def State.reset : State := State.resetWith Config.built

/-- Why a step stops. HTC's own faults are responses and next states (R203), never these. Each of these is raised only
from states that no run reaches (entries 6 and 7), where the spec gives no effect; each is safe. -/
inductive Fault where
  /-- Raised by GEN: the traversal of 42_codebook.md R131 never ends, because the arena has a cycle below ROOT. Safe. -/
  | traversalUnbounded
  /-- Raised by GEN: a leaf stands at an arena index above 255, so CODE has no entry for it. Safe. -/
  | codeIndexOutOfRange
  /-- Raised by GEN: a path is longer than the 255 cells of CBITS. Safe. -/
  | codeTooLong
  /-- Raised by ORD: an address below OLEN that OMEM does not hold. Safe. -/
  | omemUnwritten
deriving DecidableEq, Repr

/-- Why the model has no meaning for an instruction. -/
inductive Refusal where
  /-- Raised by an arm of `exec` whose instruction has no meaning yet; safe. No arm raises it. -/
  | notModelled (mnemonic : String)
deriving DecidableEq, Repr

end Sys2Proof.Machine
end

