-- ==== Sys2Proof/Machine/Flags.lean ====
section
/-! DEFINITION. HTC has no condition codes (10_state.md R31): its status is PHASE, ERR and the STATUS of a response. Their
codes (R28, R29, 60_exceptions.md R200), the packing of responses and of DATA (30_encoding.md R74, R75), and the table of
which command may run in which phase (60_exceptions.md R202). -/

namespace Sys2Proof.Machine

/-- The 3-bit value of PHASE (R28). -/
def Phase.bits : Phase → BitVec 3
  | .load => 0
  | .tree => 1
  | .encode => 2
  | .decode => 3
  | .done => 4
  | .fault => 7

/-- The 4-bit value of a fault code in ERR (R29, R200). -/
def FaultCode.bits : FaultCode → BitVec 4
  | .illegal => 1
  | .phase => 2
  | .range => 3
  | .freqOvf => 4
  | .noCode => 5
  | .overflow => 6
  | .trunc => 7

/-- The 4-bit value of ERR: 0 when no command of the session has faulted (R29). -/
def errBits : Option FaultCode → BitVec 4
  | none => 0
  | some c => c.bits

/-- The 8-bit STATUS code (R200). -/
def Status.bits : Status → BitVec 8
  | .ok => 0x00
  | .fault c => c.bits.setWidth 8
  | .faulted => 0x08

/-- The 72-bit response word: STATUS in rsp[71:64], DATA in rsp[63:0] (R74). -/
def Response.word (r : Response) : RspWord := r.status.bits ++ r.data

/-- A node index as its 9-bit field (R10 IDX_W). -/
def idxBits (i : NodeIdx) : BitVec 9 := BitVec.ofNat 9 i.val

/-- DATA of STAT, from bit 63 down (R75, R186). -/
def statData (h : Htc) : Data :=
  0#9 ++ idxBits h.cur ++ h.acc ++ h.nbits ++ h.nint ++ h.nleaf ++ BitVec.ofBool h.rootv ++ idxBits h.root
    ++ errBits h.err ++ 0#1 ++ h.phase.bits

/-- DATA of NGET, from bit 63 down (R75, R116). -/
def nodeData (n : Node) : Data :=
  0#4 ++ BitVec.ofBool n.v ++ BitVec.ofBool n.leaf ++ idxBits n.right ++ idxBits n.left ++ n.f

/-- DATA of CLEN, from bit 63 down (R75, R134). -/
def clenData (e : CodeEntry) : Data := 0#55 ++ BitVec.ofBool e.cv ++ e.clen

/-- DATA of CBIT (R75, R135). -/
def bitData (b : Bool) : Data := (BitVec.ofBool b).setWidth 64

/-- An entry of the table of R202: `y`, `P` or `F`. -/
inductive Permission where
  | executed     -- y: the command is executed
  | wrongPhase   -- P: raises PHASE
  | refused      -- F: responds FAULTED
deriving DecidableEq, Repr

/-- A row of R202 with one `y`, in phase p. -/
def onlyIn (p now : Phase) : Permission :=
  if now = .fault then .refused else if now = p then .executed else .wrongPhase

/-- The last row of R202: `y` in every phase but FAULT. -/
def anyButFault (now : Phase) : Permission := if now = .fault then .refused else .executed

/-- The table of R202. -/
def permission (i : Instr) (now : Phase) : Permission :=
  match i with
  | .init | .stat => .executed
  | .fset _ _ | .fcnt _ | .build => onlyIn .load now
  | .gen | .dbegin => onlyIn .tree now
  | .pbit _ | .enc _ | .flush => onlyIn .encode now
  | .dec _ | .dend => onlyIn .decode now
  | .fget _ | .ftot | .nget _ | .clen _ | .cbit _ _ | .olen | .ord _ => anyButFault now

end Sys2Proof.Machine
end

