-- ==== Sys2Proof/Machine/Operands.lean ====
section
/-! DEFINITION. Operand forms: the four address spaces by entry index (20_memory.md R50, R56), the bytes and node indices
that stand for each other (10_state.md R22), and bit strings (00_scope.md R12; 20_memory.md R52, R53;
43_bitpacker.md R146, R147). -/

namespace Sys2Proof.Machine

/-- An entry of a table addressed by a byte value (R50): every value of the field A is in range (R51). -/
def tableGet {α : Type} (t : Vector α 256) (sym : Byte) : α := t[sym.toNat]'sym.isLt

/-- The table with one entry replaced. -/
def tableSet {α : Type} (t : Vector α 256) (sym : Byte) (x : α) : Vector α 256 := t.set sym.toNat x sym.isLt

/-- FREQ[sym] (R21). -/
def Htc.count (h : Htc) (sym : Byte) : Count := tableGet h.freq sym
/-- CODE[sym] (R24). -/
def Htc.codeOf (h : Htc) (sym : Byte) : CodeEntry := tableGet h.code sym
/-- Entry i of an arena (R22). -/
def arenaGet (arena : Vector Node 511) (i : NodeIdx) : Node := arena[i.val]'i.isLt
/-- The arena with entry i replaced. -/
def arenaSet (arena : Vector Node 511) (i : NodeIdx) (n : Node) : Vector Node 511 := arena.set i.val n i.isLt
/-- NODE[i] (R22). -/
def Htc.nodeAt (h : Htc) (i : NodeIdx) : Node := arenaGet h.node i

/-- The leaf of byte value b is always entry b (R22). -/
def leafIdx (b : Byte) : NodeIdx := ⟨b.toNat, Nat.lt_trans b.isLt (by decide)⟩
/-- `i[7:0]`, the byte value of a leaf (R22, R170). -/
def idxByte (i : NodeIdx) : Byte := BitVec.ofNat 8 i.val

/-- The whole of FREQ as a sum in 40 bits: TC's `totalCount()` (40_frequency.md R104). -/
def total (freq : Vector Count 256) : Total :=
  freq.toList.foldl (fun t c => t + c.setWidth 40) 0

/-- `unpack8`: a byte as a bit string, v[7] first (R53, R147). -/
def unpack8 (v : Byte) : BitString :=
  [v.getLsbD 7, v.getLsbD 6, v.getLsbD 5, v.getLsbD 4, v.getLsbD 3, v.getLsbD 2, v.getLsbD 1, v.getLsbD 0]

/-- `unpack` of a byte sequence (R147). -/
def unpack (bytes : List Byte) : BitString := bytes.flatMap unpack8

/-- Bit p of a bit string as a number; 0 past its end. -/
def bitNat (s : BitString) (p : Nat) : Nat := if s.getD p false then 1 else 0

/-- Byte m of a bit string whose length is a multiple of 8, earliest bit highest (R52, R146). -/
def byteAt (d : BitString) (m : Nat) : Byte :=
  BitVec.ofNat 8 (128 * bitNat d (8 * m) + 64 * bitNat d (8 * m + 1) + 32 * bitNat d (8 * m + 2)
    + 16 * bitNat d (8 * m + 3) + 8 * bitNat d (8 * m + 4) + 4 * bitNat d (8 * m + 5)
    + 2 * bitNat d (8 * m + 6) + bitNat d (8 * m + 7))

/-- The number of pad bits of a stream of n bits (R57, R146). -/
def padBits (n : Nat) : Nat := (8 - n % 8) % 8

/-- `pack` of one bit string: pad with zeros to a multiple of 8, then group into bytes (R146). -/
def packString (c : BitString) : List Byte :=
  let d := c ++ List.replicate (padBits c.length) false
  (List.range (d.length / 8)).map (byteAt d)

/-- `pack` of a sequence of bit strings (R146). -/
def pack (strings : List BitString) : List Byte := packString strings.flatten

/-- The code of a CodeBook entry as a bit string: CLEN bits, position 0 first (R24). -/
def CodeEntry.string (e : CodeEntry) : BitString := e.cbits.toList.take e.clen.toNat

/-- The CodeBook entry that holds a path of at most 255 bits: CV = 1, CLEN its length, the cells above it 0 (R24, R131). -/
def codeOfPath (path : BitString) : CodeEntry :=
  { cv := true, clen := BitVec.ofNat 8 path.length, cbits := Vector.ofFn fun p => path.getD p.val false }

end Sys2Proof.Machine
end

