-- ==== Sys2Proof/Machine/Ops.lean ====
section
/-! DEFINITION. The shared operations: OMEM's reads and writes, a response, taking a fault (60_exceptions.md R203) and the
return from it (R205), the refusal of phase FAULT (R204), and the wrapper every command runs in (R201). -/

namespace Sys2Proof.Machine

/-! ### OMEM -/

/-- The canonical form of OMEM: addresses strictly rising. No byte stands for an unlisted address (entry 6). -/
abbrev Memory.wf (m : Memory) : Prop := m.Pairwise (fun x y => x.1 < y.1)

/-- The byte at an address, `none` when none has been written there. -/
def Memory.read : Memory → Nat → Option Byte
  | [], _ => none
  | (k, b) :: m, a => if k = a then some b else Memory.read m a

/-- The memory with one byte written, in canonical form. -/
def Memory.write : Memory → Nat → Byte → Memory
  | [], a, v => [(a, v)]
  | (k, b) :: m, a, v =>
    if a < k then (a, v) :: (k, b) :: m
    else if a = k then (a, v) :: m
    else (k, b) :: Memory.write m a v

/-- `append(v)`: `OMEM[OLEN] <- v; OLEN <- OLEN + 1` (00_scope.md R13). -/
def Htc.append (h : Htc) (v : Byte) : Htc :=
  { h with omem := h.omem.write h.olen.toNat v, olen := h.olen + 1 }

/-! ### Responses, faults and their return -/

/-- HTC answers the command with one response (30_encoding.md R74). -/
def State.respond (s : State) (st : Status) (d : Data) : State :=
  { s with rsps := s.rsps ++ [{ status := st, data := d }] }

/-- Fault entry (R203): every write of the command is discarded, ERR <- c, PHASE <- FAULT, and the response is
STATUS = c, DATA = 0. Nothing else changes. -/
def State.takeFault (s : State) (c : FaultCode) : State :=
  { s with htc := { s.htc with err := some c, phase := .fault } }.respond (.fault c) 0

/-- The refusal of phase FAULT (R204): FAULTED, DATA 0, no state changes. -/
def State.refuse (s : State) : State := s.respond .faulted 0

/-- An illegal word (30_encoding.md R79): FAULTED in phase FAULT, else it raises ILLEGAL (R201 (1), (2)). -/
def State.illegalWord (s : State) : State :=
  if s.htc.phase = .fault then s.refuse else s.takeFault .illegal

/-- Hardware reset (70_reset_and_hazards.md R230, R231), the return from a fault without a command (R205): every element
of HTC at its reset value, no response. OUT_CAP stays as built (R232). -/
def State.hardwareReset (s : State) : State := { s with htc := Htc.reset }

/-! ### The wrapper of every command -/

/-- How the pseudocode of a command ends (00_scope.md R13). -/
inductive CmdResult where
  | done (h : Htc) (d : Data)   -- `respond(d)` with the state written so far
  | raise (c : FaultCode)       -- `raise Fault(c)`
  | stuck (r : Fault)           -- the spec gives no effect (states that no run reaches; entries 6 and 7)
deriving DecidableEq, Repr

/-- The result of pseudocode that responds 0 unless it raises a fault. -/
def CmdResult.ofExcept : Except FaultCode Htc → CmdResult
  | .ok h => .done h 0
  | .error c => .raise c

/-- A legal command in the order of checks of R201: the phase table of R202 first (FAULTED, then PHASE), then the
command's own pseudocode, which answers OK or raises its fault. -/
def runCommand (i : Instr) (body : Config → Htc → CmdResult) (s : State) : Host.Outcome State Fault Refusal :=
  match permission i s.htc.phase with
  | .refused => .next s.refuse
  | .wrongPhase => .next (s.takeFault .phase)
  | .executed =>
    match body s.cfg s.htc with
    | .done h d => .next ({ s with htc := h }.respond .ok d)
    | .raise c => .next (s.takeFault c)
    | .stuck r => .fault r

end Sys2Proof.Machine
end

