-- ==== Sys2Proof/Machine/CodeBook.lean ====
section
/-! DEFINITION. The code generator commands GEN, CLEN, CBIT (42_codebook.md). -/

namespace Sys2Proof.Machine

/-- The CodeBook with no code: the first loop of GEN (R131). -/
def emptyBook : Vector CodeEntry 256 := Vector.replicate 256 CodeEntry.zero

/-- A leaf reached by the path `acc`: `CODE[n] <- {CV=1, CLEN=len(acc), CBITS=acc}` (R131). CODE has entries for n < 256
and 255 cells each; the spec gives no effect beyond them, and no tree of BUILD goes there (R117, R136; entry 7). -/
def recordLeaf (n : NodeIdx) (acc : BitString) (book : Vector CodeEntry 256) : Except Fault (Vector CodeEntry 256) :=
  if n.val < 256 then
    if acc.length ≤ maxLen then .ok (tableSet book (idxByte n) (codeOfPath acc)) else .error .codeTooLong
  else .error .codeIndexOutOfRange

/-- `visit(n, acc)` (R131), left before right. A traversal that ends passes through at most 511 different nodes, so
with fuel 511 it runs out exactly when it never ends (entry 7). -/
def visit (arena : Vector Node 511) : Nat → NodeIdx → BitString → Vector CodeEntry 256 →
    Except Fault (Vector CodeEntry 256)
  | 0, _, _, _ => .error .traversalUnbounded
  | fuel + 1, n, acc, book =>
    if (arenaGet arena n).leaf then recordLeaf n acc book
    else
      match visit arena fuel (arenaGet arena n).left (acc ++ [false]) book with
      | .ok book' => visit arena fuel (arenaGet arena n).right (acc ++ [true]) book'
      | .error r => .error r

/-- The CodeBook of a tree (R130 to R132, R138): no code at all when ROOTV = 0. -/
def genBook (arena : Vector Node 511) (rootv : Bool) (root : NodeIdx) : Except Fault (Vector CodeEntry 256) :=
  if rootv then visit arena 511 root [] emptyBook else .ok emptyBook

/-- GEN (R131): the CodeBook, an empty packer, phase ENCODE. -/
def genEffect (_ : Config) (h : Htc) : CmdResult :=
  match genBook h.node h.rootv h.root with
  | .ok book => .done { h with code := book, acc := 0, nbits := 0, phase := .encode } 0
  | .error r => .stuck r

/-- GEN in the order of checks of R201. -/
def execGen (s : State) : Host.Outcome State Fault Refusal :=
  runCommand .gen genEffect s

/-- CLEN sym (R134). -/
def clenEffect (sym : Byte) (_ : Config) (h : Htc) : CmdResult :=
  .done h (clenData (h.codeOf sym))

/-- CLEN in the order of checks of R201. -/
def execClen (sym : Byte) (s : State) : Host.Outcome State Fault Refusal :=
  runCommand (.clen sym) (clenEffect sym) s

/-- CBIT sym, pos (R135): RANGE when there is no code or pos is not a position of it. CLEN <= 255, so a position of the
code is one of the 255 cells. -/
def cbitEffect (sym : Byte) (pos : BitVec 32) (_ : Config) (h : Htc) : CmdResult :=
  if (h.codeOf sym).cv = false ∨ (h.codeOf sym).clen.toNat ≤ pos.toNat then .raise .range
  else .done h (bitData ((h.codeOf sym).cbits.toList.getD pos.toNat false))

/-- CBIT in the order of checks of R201. -/
def execCbit (sym : Byte) (pos : BitVec 32) (s : State) : Host.Outcome State Fault Refusal :=
  runCommand (.cbit sym pos) (cbitEffect sym pos) s

end Sys2Proof.Machine
end

