-- ==== Sys2Proof/Machine/Control.lean ====
section
/-! DEFINITION. The control and output commands INIT, STAT, OLEN, ORD (46_control_output.md). -/

namespace Sys2Proof.Machine

/-- INIT (R185): the reset state, in every phase; the only command that leaves phase FAULT (R205). -/
def initEffect (_ : Config) (_ : Htc) : CmdResult :=
  .done Htc.reset 0

/-- INIT in the order of checks of R201. -/
def execInit (s : State) : Host.Outcome State Fault Refusal :=
  runCommand .init initEffect s

/-- STAT (R186): in every phase, FAULT too. -/
def statEffect (_ : Config) (h : Htc) : CmdResult :=
  .done h (statData h)

/-- STAT in the order of checks of R201. -/
def execStat (s : State) : Host.Outcome State Fault Refusal :=
  runCommand .stat statEffect s

/-- OLEN (R187). -/
def olenEffect (_ : Config) (h : Htc) : CmdResult :=
  .done h (h.olen.setWidth 64)

/-- OLEN in the order of checks of R201. -/
def execOlen (s : State) : Host.Outcome State Fault Refusal :=
  runCommand .olen olenEffect s

/-- ORD addr (R188): RANGE unless addr < OLEN, then OMEM[addr]. -/
def ordEffect (addr : Len) (_ : Config) (h : Htc) : CmdResult :=
  if h.olen ≤ addr then .raise .range
  else match h.omem.read addr.toNat with
    | some b => .done h (b.setWidth 64)
    | none => .stuck .omemUnwritten

/-- ORD in the order of checks of R201. -/
def execOrd (addr : Len) (s : State) : Host.Outcome State Fault Refusal :=
  runCommand (.ord addr) (ordEffect addr) s

end Sys2Proof.Machine
end

