-- ==== Sys2Proof/Machine/Decoder.lean ====
section
/-! DEFINITION. The decode walk and the commands DBEGIN, DEC, DEND (45_decode.md). -/

namespace Sys2Proof.Machine

/-- Whether symbols are still missing: `zext_40(OLEN) < TOT` (R170). -/
def Htc.wanting (h : Htc) : Bool := h.olen.setWidth 40 < total h.freq

/-- The loop of `drain()` (R170): while symbols are missing and CUR is a leaf, emit its byte and go back to the root. -/
def drainLoop (cfg : Config) : Nat → Htc → Except FaultCode Htc
  | 0, h => .ok h
  | fuel + 1, h =>
    if h.wanting && (h.nodeAt h.cur).leaf then
      if h.olen = cfg.outCap then .error .overflow
      else drainLoop cfg fuel { h.append (idxByte h.cur) with cur := h.root }
    else .ok h

/-- `drain()` (R170). TOT - OLEN falls by one each time round, so the loop runs at most that often (entry 8). -/
def drain (cfg : Config) (h : Htc) : Except FaultCode Htc :=
  drainLoop cfg ((total h.freq).toNat - h.olen.toNat) h

/-- `step(b)` (R170): one payload bit; ignored as padding once all symbols are out. -/
def walkBit (cfg : Config) (h : Htc) (b : Bool) : Except FaultCode Htc :=
  if h.wanting then
    drain cfg { h with cur := if b then (h.nodeAt h.cur).right else (h.nodeAt h.cur).left }
  else .ok h

/-- `step` on each bit of a string in order, stopping at the first fault. -/
def walkBits (cfg : Config) : Htc → BitString → Except FaultCode Htc
  | h, [] => .ok h
  | h, b :: bits =>
    match walkBit cfg h b with
    | .ok h' => walkBits cfg h' bits
    | .error c => .error c

/-- The end of DBEGIN's pseudocode: `PHASE <- p`. -/
def Htc.setPhase (h : Htc) (p : Phase) : Htc := { h with phase := p }

/-- DBEGIN (R171). -/
def dbeginEffect (cfg : Config) (h : Htc) : CmdResult :=
  if h.rootv = true ∧ (h.nodeAt h.root).leaf = true ∧ cfg.outCap.setWidth 40 < total h.freq then .raise .overflow
  else .ofExcept ((drain cfg { h with cur := h.root }).map (·.setPhase .decode))

/-- DBEGIN in the order of checks of R201. -/
def execDbegin (s : State) : Host.Outcome State Fault Refusal :=
  runCommand .dbegin dbeginEffect s

/-- DEC byte (R172): the eight bits of the byte, most significant first. -/
def decEffect (byte : Byte) (cfg : Config) (h : Htc) : CmdResult :=
  .ofExcept (walkBits cfg h (unpack8 byte))

/-- DEC in the order of checks of R201. -/
def execDec (byte : Byte) (s : State) : Host.Outcome State Fault Refusal :=
  runCommand (.dec byte) (decEffect byte) s

/-- DEND (R173): TRUNC when symbols are missing. -/
def dendEffect (_ : Config) (h : Htc) : CmdResult :=
  if h.wanting then .raise .trunc else .done (h.setPhase .done) 0

/-- DEND in the order of checks of R201. -/
def execDend (s : State) : Host.Outcome State Fault Refusal :=
  runCommand .dend dendEffect s

end Sys2Proof.Machine
end

