-- ==== Sys2Proof/Machine/Packer.lean ====
section
/-! DEFINITION. The bit packer and the commands PBIT and FLUSH (43_bitpacker.md). -/

namespace Sys2Proof.Machine

/-- `pushbit(b)` (R145): the new bit goes below the bits already in ACC; a full byte is appended at once, and raises
OVERFLOW when OMEM is full. -/
def pushBit (cfg : Config) (h : Htc) (b : Bool) : Except FaultCode Htc :=
  let acc := h.acc ||| ((BitVec.ofBool b).setWidth 8 <<< (7 - h.nbits.toNat))
  if h.nbits = 7 then
    if h.olen = cfg.outCap then .error .overflow
    else .ok { h.append acc with acc := 0, nbits := 0 }
  else .ok { h with acc := acc, nbits := h.nbits + 1 }

/-- `for p in ...: pushbit(...)`: the bits of a string in order, stopping at the first fault. -/
def pushBits (cfg : Config) : Htc → BitString → Except FaultCode Htc
  | h, [] => .ok h
  | h, b :: bits =>
    match pushBit cfg h b with
    | .ok h' => pushBits cfg h' bits
    | .error c => .error c

/-- PBIT bit (R148). -/
def pbitEffect (bit : Bool) (cfg : Config) (h : Htc) : CmdResult :=
  if h.nbits = 7 ∧ h.olen = cfg.outCap then .raise .overflow
  else .ofExcept (pushBit cfg h bit)

/-- PBIT in the order of checks of R201. -/
def execPbit (bit : Bool) (s : State) : Host.Outcome State Fault Refusal :=
  runCommand (.pbit bit) (pbitEffect bit) s

/-- FLUSH (R149): the partial byte, whose low bits are already the zero padding, then phase DONE. -/
def flushEffect (cfg : Config) (h : Htc) : CmdResult :=
  if h.nbits = 0 then .done { h with phase := .done } 0
  else if h.olen = cfg.outCap then .raise .overflow
  else .done { h.append h.acc with acc := 0, nbits := 0, phase := .done } 0

/-- FLUSH in the order of checks of R201. -/
def execFlush (s : State) : Host.Outcome State Fault Refusal :=
  runCommand .flush flushEffect s

end Sys2Proof.Machine
end

