-- ==== Sys2Proof/Machine/Encode.lean ====
section
/-! DEFINITION. The command ENC (44_encode.md). -/

namespace Sys2Proof.Machine

/-- ENC byte (R160): NOCODE when the byte has no code, then OVERFLOW when the bytes its code completes do not fit, then
the bits of the code in order. -/
def encEffect (byte : Byte) (cfg : Config) (h : Htc) : CmdResult :=
  let e := h.codeOf byte
  if e.cv = false then .raise .noCode
  else if cfg.outCap.toNat < h.olen.toNat + (h.nbits.toNat + e.clen.toNat) / 8 then .raise .overflow
  else .ofExcept (pushBits cfg h e.string)

/-- ENC in the order of checks of R201. -/
def execEnc (byte : Byte) (s : State) : Host.Outcome State Fault Refusal :=
  runCommand (.enc byte) (encEffect byte) s

end Sys2Proof.Machine
end

