-- ==== Sys2Proof/Machine/Frequency.lean ====
section
/-! DEFINITION. The frequency table commands FSET, FCNT, FGET, FTOT (40_frequency.md). -/

namespace Sys2Proof.Machine

/-- FREQ[sym] <- c. -/
def Htc.setCount (h : Htc) (sym : Byte) (c : Count) : Htc := { h with freq := tableSet h.freq sym c }

/-- FSET sym, count (R100). -/
def fsetEffect (sym : Byte) (count : Count) (_ : Config) (h : Htc) : CmdResult :=
  .done (h.setCount sym count) 0

/-- FSET in the order of checks of R201. -/
def execFset (sym : Byte) (count : Count) (s : State) : Host.Outcome State Fault Refusal :=
  runCommand (.fset sym count) (fsetEffect sym count) s

/-- FCNT byte (R101): FREQ_OVF at 2^32-1, never a wrap. -/
def fcntEffect (byte : Byte) (_ : Config) (h : Htc) : CmdResult :=
  if h.count byte = 0xFFFFFFFF#32 then .raise .freqOvf
  else .done (h.setCount byte (h.count byte + 1)) 0

/-- FCNT in the order of checks of R201. -/
def execFcnt (byte : Byte) (s : State) : Host.Outcome State Fault Refusal :=
  runCommand (.fcnt byte) (fcntEffect byte) s

/-- FGET sym (R102). -/
def fgetEffect (sym : Byte) (_ : Config) (h : Htc) : CmdResult :=
  .done h ((h.count sym).setWidth 64)

/-- FGET in the order of checks of R201. -/
def execFget (sym : Byte) (s : State) : Host.Outcome State Fault Refusal :=
  runCommand (.fget sym) (fgetEffect sym) s

/-- FTOT (R103, R104). -/
def ftotEffect (_ : Config) (h : Htc) : CmdResult :=
  .done h ((total h.freq).setWidth 64)

/-- FTOT in the order of checks of R201. -/
def execFtot (s : State) : Host.Outcome State Fault Refusal :=
  runCommand .ftot ftotEffect s

end Sys2Proof.Machine
end

