-- ==== Sys2Proof/Machine/Tree.lean ====
section
/-! DEFINITION. The tree builder commands BUILD and NGET and the priority queue (41_tree_builder.md). The queue is a list of
node indices searched for its least key, which R111 allows: its arrangement is not observable (entry 12). -/

namespace Sys2Proof.Machine

/-- `key(i) < key(j)`: frequency first, then arena index, both unsigned (R110). -/
def keyLt (arena : Vector Node 511) (i j : NodeIdx) : Bool :=
  (arenaGet arena i).f < (arenaGet arena j).f
    || ((arenaGet arena i).f = (arenaGet arena j).f && i.val < j.val)

/-- The member with the least key among m and the members of a queue. -/
def minKey (arena : Vector Node 511) : NodeIdx → List NodeIdx → NodeIdx
  | m, [] => m
  | m, i :: pq => minKey arena (if keyLt arena i m then i else m) pq

/-- `extract_min(PQ)` (R111): the member with the least key and the rest; `none` on the empty queue. -/
def extractMin (arena : Vector Node 511) : List NodeIdx → Option (NodeIdx × List NodeIdx)
  | [] => none
  | i :: pq => some (minKey arena i pq, (i :: pq).erase (minKey arena i pq))

/-- `insert(PQ, i)` (R111). -/
def insertPq (pq : List NodeIdx) (i : NodeIdx) : List NodeIdx := pq ++ [i]

/-- The variables of BUILD's merge loop (R112): the arena, PQ and `next`. -/
structure Merge where
  arena : Vector Node 511
  pq    : List NodeIdx
  next  : Nat
deriving DecidableEq, Repr

/-- The internal node of one merge (R112): first removed is LEFT, second removed is RIGHT (D10). -/
def internalNode (arena : Vector Node 511) (l r : NodeIdx) : Node :=
  { v := true, leaf := false, f := (arenaGet arena l).f + (arenaGet arena r).f, left := l, right := r }

/-- One pass of the merge loop of R112; `none` when PQ has fewer than two members. -/
def mergeOnce (m : Merge) : Option Merge :=
  match extractMin m.arena m.pq with
  | none => none
  | some (l, pq1) =>
    match extractMin m.arena pq1 with
    | none => none
    | some (r, pq2) =>
      some { arena := arenaSet m.arena (Fin.ofNat 511 m.next) (internalNode m.arena l r)
             pq    := insertPq pq2 (Fin.ofNat 511 m.next)
             next  := m.next + 1 }

/-- `while |PQ| >= 2` (R112), at most `fuel` times. -/
def mergeLoop : Nat → Merge → Merge
  | 0, m => m
  | fuel + 1, m =>
    match mergeOnce m with
    | none => m
    | some m' => mergeLoop fuel m'

/-- Entry b of the arena before the merges: a leaf when its count is not 0, else all-zero (R112 step 1). -/
def leafNode (c : Count) : Node :=
  if c = 0 then Node.zero else { v := true, leaf := true, f := c.setWidth 40, left := 0, right := 0 }

/-- The arena before the merges (R112): the 256 entries of byte values, then 255 all-zero ones. -/
def leafArena (freq : Vector Count 256) : Vector Node 511 :=
  ⟨(freq.toList.map leafNode ++ List.replicate 255 Node.zero).toArray, by
    rw [List.size_toArray, List.length_append, List.length_map, Vector.length_toList, List.length_replicate]⟩

/-- The byte values with a non-zero count, in ascending order: P of R117. -/
def present (freq : Vector Count 256) : List Byte :=
  (freq.toList.zipIdx.filter fun p => p.1 != 0).map fun p => BitVec.ofNat 8 p.2

/-- The variables before the merge loop (R112 steps 1 and 2). -/
def mergeStart (freq : Vector Count 256) : Merge :=
  { arena := leafArena freq, pq := (present freq).map leafIdx, next := 256 }

/-- What BUILD leaves in NODE, ROOTV, ROOT, NLEAF and NINT (R22, R23). -/
structure Tree where
  node  : Vector Node 511
  rootv : Bool
  root  : NodeIdx
  nleaf : BitVec 9
  nint  : BitVec 8
deriving DecidableEq, Repr

/-- The tree of a frequency table (R112 to R114): at most 255 merges, since PQ starts with at most 256 members and each
merge takes two and adds one. -/
def buildTree (freq : Vector Count 256) : Tree :=
  let m := mergeLoop 255 (mergeStart freq)
  { node  := m.arena
    rootv := m.pq.length = 1
    root  := match m.pq with
      | [r] => r
      | _ => 0
    nleaf := BitVec.ofNat 9 (present freq).length
    nint  := BitVec.ofNat 8 (m.next - 256) }

/-- The state with a tree in NODE, ROOTV, ROOT, NLEAF and NINT. -/
def Htc.setTree (h : Htc) (t : Tree) : Htc :=
  { h with node := t.node, rootv := t.rootv, root := t.root, nleaf := t.nleaf, nint := t.nint }

/-- BUILD (R112 to R115). -/
def buildEffect (_ : Config) (h : Htc) : CmdResult :=
  .done { h.setTree (buildTree h.freq) with phase := .tree } 0

/-- BUILD in the order of checks of R201. -/
def execBuild (s : State) : Host.Outcome State Fault Refusal :=
  runCommand .build buildEffect s

/-- NGET idx (R116): RANGE when idx > 510. -/
def ngetEffect (idx : BitVec 32) (_ : Config) (h : Htc) : CmdResult :=
  if hi : idx.toNat < 511 then .done h (nodeData (h.nodeAt ⟨idx.toNat, hi⟩)) else .raise .range

/-- NGET in the order of checks of R201. -/
def execNget (idx : BitVec 32) (s : State) : Host.Outcome State Fault Refusal :=
  runCommand (.nget idx) (ngetEffect idx) s

end Sys2Proof.Machine
end

