-- ==== Sys2Proof/Machine/Dispatch.lean ====
section
/-! DEFINITION. One arm per command of 30_encoding.md R77, in the table's order. -/

namespace Sys2Proof.Machine

def exec (i : Instr) (s : State) : Host.Outcome State Fault Refusal :=
  match i with
  | .init => Sys2Proof.Machine.execInit s
  | .stat => Sys2Proof.Machine.execStat s
  | .fset sym count => Sys2Proof.Machine.execFset sym count s
  | .fcnt byte => Sys2Proof.Machine.execFcnt byte s
  | .fget sym => Sys2Proof.Machine.execFget sym s
  | .ftot => Sys2Proof.Machine.execFtot s
  | .build => Sys2Proof.Machine.execBuild s
  | .nget idx => Sys2Proof.Machine.execNget idx s
  | .gen => Sys2Proof.Machine.execGen s
  | .clen sym => Sys2Proof.Machine.execClen sym s
  | .cbit sym pos => Sys2Proof.Machine.execCbit sym pos s
  | .pbit bit => Sys2Proof.Machine.execPbit bit s
  | .enc byte => Sys2Proof.Machine.execEnc byte s
  | .flush => Sys2Proof.Machine.execFlush s
  | .dbegin => Sys2Proof.Machine.execDbegin s
  | .dec byte => Sys2Proof.Machine.execDec byte s
  | .dend => Sys2Proof.Machine.execDend s
  | .olen => Sys2Proof.Machine.execOlen s
  | .ord addr => Sys2Proof.Machine.execOrd addr s

end Sys2Proof.Machine
end

