-- ==== Sys2Proof/Machine/Port.lean ====
section
/-! DEFINITION. The command port (30_encoding.md R70, R76, R79; 70_reset_and_hazards.md R233): what HTC does with one input of its host. -/

namespace Sys2Proof.Machine

/-- A command word presented to HTC: decoded (R76), then executed, or illegal (R79). -/
def presentWord (w : CmdWord) (s : State) : Host.Outcome State Fault Refusal :=
  match decode w with
  | some i => exec i s
  | none => .next s.illegalWord

/-- One input of the host (R233): a command word, or hardware reset (R230). -/
def presentInput (x : HostInput) (s : State) : Host.Outcome State Fault Refusal :=
  match x with
  | .command w => presentWord w s
  | .reset => .next s.hardwareReset

/-- The host presents `w` as its very next input, before all it still has to present. -/
def State.withCommand (s : State) (w : CmdWord) : State := { s with inputs := .command w :: s.inputs }

end Sys2Proof.Machine
end

