-- ==== Sys2Proof/Machine/Step.lean ====
section
/-! DEFINITION. One step: HTC takes the host's next input (entry 1). -/

namespace Sys2Proof.Machine

/-- One step of the machine: the host's next input; with none, HTC holds its state (60_exceptions.md R210; entry 3). -/
def step (s : State) : Host.Outcome State Fault Refusal :=
  match s.inputs with
  | [] => .next s
  | x :: rest => presentInput x { s with inputs := rest }

/-- The state whose host presents, as its very next input, the command word that the opcode table numbers as `w`. -/
def State.withFetchWord (s : State) (nbits w : Nat) : State := s.withCommand (tableWord nbits w)

end Sys2Proof.Machine
end

