-- ==== Sys2Proof/Machine/Procedures.lean ====
section
/-! DEFINITION. What the host composes from the commands: the encode procedure (44_encode.md R161), the decode procedure
(45_decode.md R174) and the pseudo-commands (30_encoding.md R81); a command list run in order (20_memory.md R60); and
TC's whole-buffer decode loop written out (45_decode.md R175). -/

namespace Sys2Proof.Machine

/-- The commands of a list, each in the state the one before left (R60). -/
def execAll : List Instr → State → Host.Outcome State Fault Refusal
  | [], s => .next s
  | i :: rest, s =>
    match exec i s with
    | .next s' => execAll rest s'
    | .fault r => .fault r
    | .refused r => .refused r

/-- The 256 byte values in index order. -/
def allSymbols : List Byte := (List.range 256).map (BitVec.ofNat 8)

/-- `FCNTS` (R81). -/
def fcnts (bytes : List Byte) : List Instr := bytes.map .fcnt
/-- `ENCS` (R81). -/
def encs (bytes : List Byte) : List Instr := bytes.map .enc
/-- `DECS` (R81). -/
def decs (bytes : List Byte) : List Instr := bytes.map .dec
/-- `PBITS` (R81): one PBIT per bit in reading order. -/
def pbits (bits : BitString) : List Instr := bits.map .pbit

/-- The host procedure `encode(B)` up to the response of OLEN (R161). -/
def encodeProcedure (input : List Byte) : List Instr :=
  [.init] ++ fcnts input ++ [.build, .gen] ++ encs input ++ [.flush] ++ allSymbols.map .fget ++ [.olen]

/-- `ORD 0; ...; ORD n-1`, the end of both procedures, where n is the response of OLEN (R161, R174). -/
def readOut (n : Nat) : List Instr := (List.range n).map fun a => .ord (BitVec.ofNat 32 a)

/-- The host procedure `decode(F, V)` up to the response of OLEN (R174). -/
def decodeProcedure (table : Vector Count 256) (payload : List Byte) : List Instr :=
  [.init] ++ allSymbols.map (fun b => .fset b (tableGet table b)) ++ [.build, .dbegin] ++ decs payload ++ [.dend, .olen]

/-- TC's walk of R175, from node `cur` with `missing` symbols still to emit: `none` is TruncatedPayload. Every pass
emits a symbol or consumes a bit, so `missing` + the number of bits + 1 passes suffice. -/
def tcLoop (arena : Vector Node 511) (root : NodeIdx) : Nat → NodeIdx → Nat → BitString → Option (List Byte)
  | _, _, 0, _ => some []
  | 0, _, _ + 1, _ => none
  | fuel + 1, cur, missing + 1, bits =>
    if (arenaGet arena cur).leaf then
      (tcLoop arena root fuel root missing bits).map (idxByte cur :: ·)
    else
      match bits with
      | [] => none
      | b :: rest =>
        tcLoop arena root fuel (if b then (arenaGet arena cur).right else (arenaGet arena cur).left) (missing + 1) rest

/-- TC's decode of a bit string with a tree and a total count (R175). -/
def tcDecode (t : Tree) (count : Nat) (bits : BitString) : Option (List Byte) :=
  tcLoop t.node t.root (count + bits.length + 1) t.root count bits

/-- The bytes of OMEM in address order: what ORD 0, ORD 1, ... give (R188). -/
def Htc.output (h : Htc) : List Byte := h.omem.map (·.2)

/-- The concatenated codes of a byte list, `none` when a byte has no code (TC §4.5, R161). -/
def codeBits (book : Vector CodeEntry 256) : List Byte → Option BitString
  | [] => some []
  | b :: bytes =>
    if (tableGet book b).cv then (codeBits book bytes).map ((tableGet book b).string ++ ·) else none

end Sys2Proof.Machine
end

