-- ==== Sys2Proof/Safety.lean ====
section
/-! DEFINITION. What counts as a proper state and a proper tree, in the terms the statements use: the invariants of
10_state.md R38, the tree shape of 41_tree_builder.md R117, and the paths of 42_codebook.md R130. -/

namespace Sys2Proof.Machine

/-! ### The invariants between commands (R38) -/

/-- NODE, ROOTV, ROOT, NLEAF, NINT as one tree. -/
def Htc.tree (h : Htc) : Tree :=
  { node := h.node, rootv := h.rootv, root := h.root, nleaf := h.nleaf, nint := h.nint }

/-- The tree registers of a session in which BUILD has not run (R33, R38 (a)). -/
def Tree.empty : Tree :=
  { node := Vector.replicate 511 Node.zero, rootv := false, root := 0, nleaf := 0, nint := 0 }

/-- The tree registers are the tree BUILD makes of the frozen FREQ (R38 (b), R115). -/
def Htc.HasTree (h : Htc) : Prop := h.tree = buildTree h.freq
/-- CODE is the CodeBook GEN makes of the current tree (R38 (d)). -/
def Htc.HasCodes (h : Htc) : Prop := genBook h.node h.rootv h.root = .ok h.code
/-- No entry of CODE has a code (R38 (a), (c)). -/
def Htc.NoCodes (h : Htc) : Prop := h.code = emptyBook
/-- The packer is empty. -/
def Htc.PackerEmpty (h : Htc) : Prop := h.nbits = 0 ∧ h.acc = 0
/-- ACC[7-NBITS:0] = 0 (R25, R38 (g)). -/
def Htc.PackerClean (h : Htc) : Prop := ∀ k, k + h.nbits.toNat < 8 → h.acc.getLsbD k = false
/-- OMEM is canonical, holds exactly the bytes below OLEN, and OLEN <= OUT_CAP (R26, R38 (g)). -/
def Htc.OmemFull (cfg : Config) (h : Htc) : Prop :=
  Memory.wf h.omem ∧ (∀ a, (h.omem.read a).isSome = true ↔ a < h.olen.toNat) ∧ h.olen ≤ cfg.outCap

/-- CUR between two commands of phase DECODE: an internal node of the tree while symbols are missing, else ROOT (R27, R170). -/
def Htc.WalkReady (h : Htc) : Prop :=
  h.olen.setWidth 40 ≤ total h.freq ∧
  (if h.wanting then (h.nodeAt h.cur).v = true ∧ (h.nodeAt h.cur).leaf = false else h.cur = h.root)

/-- What R38 says of a session in phase p: (a) LOAD, (c) TREE, (d) ENCODE, R27 DECODE, (e) DONE. -/
def Htc.Session (h : Htc) : Phase → Prop
  | .load => h.tree = Tree.empty ∧ h.NoCodes ∧ h.PackerEmpty ∧ h.olen = 0 ∧ h.cur = 0
  | .tree => h.HasTree ∧ h.NoCodes ∧ h.PackerEmpty ∧ h.olen = 0 ∧ h.cur = 0
  | .encode => h.HasTree ∧ h.HasCodes ∧ h.cur = 0
  | .decode => h.HasTree ∧ h.NoCodes ∧ h.PackerEmpty ∧ h.WalkReady
  | .done => h.HasTree ∧ h.PackerEmpty ∧
      ((h.HasCodes ∧ h.cur = 0) ∨ (h.NoCodes ∧ h.cur = h.root ∧ h.olen.setWidth 40 = total h.freq))
  | .fault => False

/-- R38: what holds of every state between two commands. In phase FAULT every element but PHASE and ERR has the value it
had before the faulting command, so the state is that of a session in some other phase (R38 (f)); PHASE = FAULT
exactly when ERR is not 0 (R29). -/
def Htc.Inv (cfg : Config) (h : Htc) : Prop :=
  h.PackerClean ∧ h.OmemFull cfg ∧
  (if h.phase = .fault then h.err ≠ none ∧ ∃ p, h.Session p else h.err = none ∧ h.Session h.phase)

/-- The invariant of the machine. -/
def State.Inv (s : State) : Prop := s.htc.Inv s.cfg

/-! ### What a command answers, as the rules put it -/

/-- The command ended with OK and data d, and left HTC as h (R13 `respond`). -/
def State.answered (s : State) (h : Htc) (d : Data) : State :=
  { s with htc := h, rsps := s.rsps ++ [{ status := .ok, data := d }] }

/-- The command raised the fault c (R203): only ERR and PHASE changed. -/
def State.faulted (s : State) (c : FaultCode) : State :=
  { s with htc := { s.htc with err := some c, phase := .fault }
           rsps := s.rsps ++ [{ status := .fault c, data := 0 }] }

/-- The word was refused in phase FAULT (R204): nothing changed. -/
def State.turnedAway (s : State) : State :=
  { s with rsps := s.rsps ++ [{ status := .faulted, data := 0 }] }

/-- An illegal word (30_encoding.md R79): no command, and HTC answers it with ILLEGAL, or with FAULTED in phase FAULT. -/
def IllegalWord (w : CmdWord) : Prop :=
  decode w = none ∧ ∀ (s : State) (rest : List HostInput), s.inputs = .command w :: rest →
    (s.htc.phase = .fault → step s = .next ({ s with inputs := rest } : State).turnedAway) ∧
    (s.htc.phase ≠ .fault → step s = .next (({ s with inputs := rest } : State).faulted .illegal))

/-- A command that phase p alone permits (R202): FAULTED in phase FAULT, PHASE in every other phase but p. -/
def NeedsPhase (i : Instr) (p : Phase) : Prop :=
  ∀ s : State, (s.htc.phase = .fault → exec i s = .next s.turnedAway) ∧
    (s.htc.phase ≠ .fault → s.htc.phase ≠ p → exec i s = .next (s.faulted .phase))

/-- A command that every phase but FAULT permits (R202). -/
def NeedsLife (i : Instr) : Prop :=
  ∀ s : State, s.htc.phase = .fault → exec i s = .next s.turnedAway

/-- The command is executed in this state (`y` in R202): its response is neither FAULTED nor PHASE. -/
def Executed (i : Instr) (s : State) : Prop :=
  ∀ t, exec i s = .next t → ∃ r, t.rsps = s.rsps ++ [r] ∧ r.status ≠ .faulted ∧ r.status ≠ .fault .phase

/-- The eight reads, whose DATA carries a result (R75). -/
def isRead : Instr → Bool
  | .stat | .fget _ | .ftot | .nget _ | .clen _ | .cbit _ _ | .olen | .ord _ => true
  | .init | .fset _ _ | .fcnt _ | .build | .gen | .pbit _ | .enc _ | .flush | .dbegin | .dec _ | .dend => false

/-- The bit string that a PBIT or an ENC pushes (R151), with the CodeBook as it stands. -/
def pushedBits (book : Vector CodeEntry 256) : Instr → BitString
  | .pbit b => [b]
  | .enc b => (tableGet book b).string
  | _ => []

/-- A PBIT or an ENC. -/
def isPush : Instr → Bool
  | .pbit _ | .enc _ => true
  | _ => false

/-! ### Trees -/

/-- The lexicographic order of keys (R110), on numbers. -/
def KeyBefore (arena : Vector Node 511) (i j : NodeIdx) : Prop :=
  (arenaGet arena i).f.toNat < (arenaGet arena j).f.toNat ∨
  ((arenaGet arena i).f = (arenaGet arena j).f ∧ i < j)

/-- j is an internal node with child c. -/
def ChildOf (arena : Vector Node 511) (j c : NodeIdx) : Prop :=
  (arenaGet arena j).v = true ∧ (arenaGet arena j).leaf = false ∧
    ((arenaGet arena j).left = c ∨ (arenaGet arena j).right = c)

/-- The shape of 41_tree_builder.md R117 (a) to (g), for the tree of a frequency table with n present symbols. -/
structure TreeShape (freq : Vector Count 256) (t : Tree) : Prop where
  /-- (a) NLEAF = n. -/
  nleaf : t.nleaf.toNat = (present freq).length
  /-- (a) NINT = n - 1 when n >= 1 and 0 when n = 0. -/
  nint : t.nint.toNat = (present freq).length - 1
  /-- (b) the entries with V = 1 are exactly the present symbols and 256 .. 255 + NINT. -/
  valid : ∀ i : NodeIdx, (arenaGet t.node i).v = true ↔
    (∃ b ∈ present freq, i = leafIdx b) ∨ (256 ≤ i.val ∧ i.val < 256 + ((present freq).length - 1))
  /-- (b) the entries of present symbols are leaves with their counts; R22: without children. -/
  leaves : ∀ b ∈ present freq, arenaGet t.node (leafIdx b) =
    { v := true, leaf := true, f := (tableGet freq b).setWidth 40, left := 0, right := 0 }
  /-- (b) the entries from 256 on have LEAF = 0. -/
  internal : ∀ i : NodeIdx, 256 ≤ i.val → (arenaGet t.node i).leaf = false
  /-- R22: an entry with V = 0 has all its other fields 0. -/
  unused : ∀ i : NodeIdx, (arenaGet t.node i).v = false → arenaGet t.node i = Node.zero
  /-- (c), (g) the two children of an internal node. -/
  children : ∀ j : NodeIdx, (arenaGet t.node j).v = true → (arenaGet t.node j).leaf = false →
    (arenaGet t.node j).left < j ∧ (arenaGet t.node j).right < j ∧
    (arenaGet t.node j).left ≠ (arenaGet t.node j).right ∧
    (arenaGet t.node (arenaGet t.node j).left).v = true ∧ (arenaGet t.node (arenaGet t.node j).right).v = true ∧
    (arenaGet t.node j).f.toNat =
      (arenaGet t.node (arenaGet t.node j).left).f.toNat + (arenaGet t.node (arenaGet t.node j).right).f.toNat ∧
    KeyBefore t.node (arenaGet t.node j).left (arenaGet t.node j).right
  /-- (d) every node but the root is the child of exactly one node. -/
  parent : ∀ i : NodeIdx, (arenaGet t.node i).v = true → i ≠ t.root → ∃! j, ChildOf t.node j i
  /-- (d) the root is the child of none. -/
  rootTop : t.rootv = true → ∀ j, ¬ ChildOf t.node j t.root
  /-- (e) ROOTV = 1 exactly when n >= 1. -/
  rootv : t.rootv = true ↔ 1 ≤ (present freq).length
  /-- (e) ROOT = 255 + NINT when n >= 2. -/
  rootMany : 2 ≤ (present freq).length → t.root.val = 255 + ((present freq).length - 1)
  /-- (e) ROOT = the one present symbol when n = 1. -/
  rootOne : ∀ b, present freq = [b] → t.root = leafIdx b
  /-- (e) ROOT = 0 when n = 0. -/
  rootNone : present freq = [] → t.root = 0
  /-- (f) the root's frequency is the total count. -/
  rootFreq : t.rootv = true → (arenaGet t.node t.root).f = total freq

/-- `path(n) = p` (R130): the bit string of the branches from the root to node n, left = 0, right = 1. -/
inductive PathTo (arena : Vector Node 511) (root : NodeIdx) : NodeIdx → BitString → Prop where
  | root : PathTo arena root root []
  | left {j : NodeIdx} {p : BitString} : PathTo arena root j p → (arenaGet arena j).leaf = false →
      PathTo arena root (arenaGet arena j).left (p ++ [false])
  | right {j : NodeIdx} {p : BitString} : PathTo arena root j p → (arenaGet arena j).leaf = false →
      PathTo arena root (arenaGet arena j).right (p ++ [true])

/-- The sum of 2^(255 - CLEN) over the byte values with a code: 2^255 times the Kraft sum of R139. -/
def kraftSum (book : Vector CodeEntry 256) : Nat :=
  ((allSymbols.filter fun b => (tableGet book b).cv).map fun b => 2 ^ (255 - (tableGet book b).clen.toNat)).sum

/-- The number of code bits T of R162: the sum over the present symbols of FREQ[s] x CLEN. -/
def codeLength (freq : Vector Count 256) (book : Vector CodeEntry 256) : Nat :=
  ((present freq).map fun b => (tableGet freq b).toNat * (tableGet book b).clen.toNat).sum

end Sys2Proof.Machine
end

