-- ==== Sys2Proof/Certificates/Slice0/Obligations.lean ====
section
/-! DEFINITION. The statements about HTC, from the numbered rules of spec/. Each says what a command or the machine does; a
result statement gives the whole next state, so that everything it does not name is unchanged (its frame). -/

open Sys2Proof Sys2Proof.Machine

/-! ### Encoding (30_encoding.md) -/

/-- Words of 95_test_vectors.md section 2.1, one or more of each family, decode to the commands they stand for. -/
def Obligations.TestVectorWordsDecode : Prop :=
  decode 0x010000000000#48 = some .init ∧ decode 0x020000000000#48 = some .stat ∧
  decode 0x106100000003#48 = some (.fset 0x61 3) ∧ decode 0x10FFFFFFFFFF#48 = some (.fset 0xFF 0xFFFFFFFF) ∧
  decode 0x116100000000#48 = some (.fcnt 0x61) ∧ decode 0x2100000001FE#48 = some (.nget 510) ∧
  decode 0x326100000002#48 = some (.cbit 0x61 2) ∧ decode 0x400100000000#48 = some (.pbit true) ∧
  decode 0x400000000000#48 = some (.pbit false) ∧ decode 0x416100000000#48 = some (.enc 0x61) ∧
  decode 0x51E000000000#48 = some (.dec 0xE0) ∧ decode 0x610000000003#48 = some (.ord 3) ∧
  decode 0x000000000000#48 = none ∧ decode 0x200100000000#48 = none ∧ decode 0x400200000000#48 = none

/-- No operand bit of any command is dropped: decoding a command's word gives the command back. -/
def Obligations.DecodeOfEncodeIsIdentity : Prop :=
  ∀ i : Instr, decode (encode i) = some i

/-- Each legal word is the word of the one command it decodes to. -/
def Obligations.EncodeOfDecodeIsIdentity : Prop :=
  ∀ (w : CmdWord) (i : Instr), decode w = some i → encode i = w

/-- R76: at most one row of R77 matches a word; the decoder answers a command exactly when some row matches, and that row
is the row of the command it answers. -/
def Obligations.DecoderFollowsTheOpcodeMap : Prop :=
  ∀ w : CmdWord,
    (∀ r ∈ opRows, ∀ q ∈ opRows, r.selects w = true → q.selects w = true → r = q) ∧
    (decode w = none ↔ ∀ r ∈ opRows, r.selects w = false) ∧
    (∀ i, decode w = some i → ∃ r ∈ opRows, r.selects w = true ∧ r.mnemonic = i.mnemonic)

/-- R28, R29, R200: the values of PHASE, ERR and STATUS; R74: the fields of the response word. -/
def Obligations.StatusCodesAndResponseFields : Prop :=
  (Phase.load.bits = 0 ∧ Phase.tree.bits = 1 ∧ Phase.encode.bits = 2 ∧ Phase.decode.bits = 3 ∧ Phase.done.bits = 4 ∧
    Phase.fault.bits = 7) ∧
  ((Status.ok).bits = 0x00 ∧ (Status.fault .illegal).bits = 0x01 ∧ (Status.fault .phase).bits = 0x02 ∧
    (Status.fault .range).bits = 0x03 ∧ (Status.fault .freqOvf).bits = 0x04 ∧ (Status.fault .noCode).bits = 0x05 ∧
    (Status.fault .overflow).bits = 0x06 ∧ (Status.fault .trunc).bits = 0x07 ∧ Status.faulted.bits = 0x08) ∧
  (errBits none = 0 ∧ ∀ c : FaultCode, (errBits (some c)).toNat = (Status.fault c).bits.toNat) ∧
  ∀ r : Response, r.word.extractLsb' 64 8 = r.status.bits ∧ r.word.extractLsb' 0 64 = r.data

/-! ### The step -/

/-- A step that takes a legal word runs exactly the command it decodes to, in the state with that input consumed. -/
def Obligations.StepRunsTheDecodedCommand : Prop :=
  ∀ (s : State) (w : CmdWord) (rest : List HostInput) (i : Instr),
    s.inputs = .command w :: rest → decode w = some i → step s = exec i { s with inputs := rest }

/-- R79, R201 (1), (2): an illegal word raises ILLEGAL, unless PHASE = FAULT, in which case it gets FAULTED. -/
def Obligations.StepAnswersAnIllegalWord : Prop :=
  ∀ w : CmdWord, legalWord w = false → IllegalWord w

/-- R210, R230, R231: without an input HTC holds its state; hardware reset puts every element at its reset value, with no
response, and INIT is the same transition of the state with the response OK. -/
def Obligations.IdleResetAndInit : Prop :=
  (∀ s : State, s.inputs = [] → step s = .next s) ∧
  (∀ (s : State) (rest : List HostInput), s.inputs = .reset :: rest →
    step s = .next { s with inputs := rest, htc := Htc.reset }) ∧
  (decode (cmdWord 0x01 0 0) = some .init ∧
    (∀ a b, (a ≠ 0 ∨ b ≠ 0) → IllegalWord (cmdWord 0x01 a b)) ∧
    ∀ s : State, exec .init s = .next (s.answered Htc.reset 0))

/-- R33: the state after hardware reset, and after every INIT, element by element. -/
def Obligations.ResetStateValues : Prop :=
  (∀ b, Htc.reset.count b = 0) ∧ (∀ i, Htc.reset.nodeAt i = Node.zero) ∧ Htc.reset.rootv = false ∧
  Htc.reset.root = 0 ∧ Htc.reset.nleaf = 0 ∧ Htc.reset.nint = 0 ∧
  (∀ b, (Htc.reset.codeOf b).cv = false ∧ (Htc.reset.codeOf b).clen = 0 ∧ (Htc.reset.codeOf b).string = []) ∧
  Htc.reset.acc = 0 ∧ Htc.reset.nbits = 0 ∧ Htc.reset.olen = 0 ∧ Htc.reset.omem = [] ∧ Htc.reset.cur = 0 ∧
  Htc.reset.phase = .load ∧ Htc.reset.err = none ∧ State.reset.htc = Htc.reset ∧
  (∀ (s : State) (rest : List HostInput), s.inputs = .reset :: rest →
    ∃ t, step s = .next t ∧ t.htc = Htc.reset) ∧
  ∀ s : State, ∃ t, exec .init s = .next t ∧ t.htc = Htc.reset

/-- R38 holds of the reset state, whatever OUT_CAP the instance was built with. -/
def Obligations.ResetMeetsTheInvariant : Prop :=
  ∀ c : Config, (State.resetWith c).Inv

/-- R38: every step keeps the invariants between commands, from every state that has them. -/
def Obligations.StepKeepsTheInvariant : Prop :=
  ∀ s t : State, s.Inv → step s = .next t → t.Inv

/-- R242: from every state with the invariants of R38, every step answers a next state: HTC cannot hang, and no word is
without a response. -/
def Obligations.StepNeverStops : Prop :=
  ∀ s : State, s.Inv → ∃ t, step s = .next t

/-- Every step keeps OMEM's canonical form, from every state that has it. -/
def Obligations.StepKeepsOmemCanonical : Prop :=
  ∀ s t : State, Memory.wf s.htc.omem → step s = .next t → Memory.wf t.htc.omem

/-- R232: no step changes OUT_CAP; R26: bytes are only ever appended, never overwritten, until INIT or reset empties OMEM. -/
def Obligations.StepKeepsCapacityAndWrittenBytes : Prop :=
  ∀ s t : State, step s = .next t → t.cfg = s.cfg ∧
    (s.Inv → t.htc = Htc.reset ∨ ∀ a, a < s.htc.olen.toNat → t.htc.omem.read a = s.htc.omem.read a)

/-- R74, R75: a word gets exactly one response; DATA is 0 whenever STATUS is not OK, and for every command that is not a
read. -/
def Obligations.OneResponsePerWord : Prop :=
  ∀ (s t : State) (w : CmdWord) (rest : List HostInput), s.inputs = .command w :: rest → step s = .next t →
    t.inputs = rest ∧ ∃ r, t.rsps = s.rsps ++ [r] ∧ (r.status ≠ .ok → r.data = 0) ∧
      ∀ i, decode w = some i → isRead i = false → r.data = 0

/-- R203: a word whose response is a fault changed nothing but ERR and PHASE, and PHASE was not FAULT. -/
def Obligations.FaultChangesOnlyErrAndPhase : Prop :=
  ∀ (s t : State) (w : CmdWord) (rest : List HostInput) (d : Data) (c : FaultCode),
    s.inputs = .command w :: rest → step s = .next t → t.rsps = s.rsps ++ [{ status := .fault c, data := d }] →
    d = 0 ∧ s.htc.phase ≠ .fault ∧ t.htc = { s.htc with err := some c, phase := .fault }

/-- R204: in phase FAULT a legal INIT and a legal STAT execute, and every other word, legal or illegal, is refused: FAULTED,
DATA 0, no state changes. -/
def Obligations.FaultPhaseRefusesEveryOtherWord : Prop :=
  ∀ (s : State) (w : CmdWord) (rest : List HostInput), s.inputs = .command w :: rest → s.htc.phase = .fault →
    (decode w = some .init → step s = .next (({ s with inputs := rest } : State).answered Htc.reset 0)) ∧
    (decode w = some .stat → ∃ d : Data, step s = .next (({ s with inputs := rest } : State).answered s.htc d) ∧
      d.extractLsb' 0 3 = 7 ∧ d.extractLsb' 4 4 = errBits s.htc.err) ∧
    (decode w ≠ some .init → decode w ≠ some .stat → step s = .next ({ s with inputs := rest } : State).turnedAway)

/-- R202: the whole table of which command may run in which phase. -/
def Obligations.PhaseTableIsEnforced : Prop :=
  ∀ i : Instr, match i with
    | .init | .stat => ∀ s, Executed i s
    | .fset _ _ | .fcnt _ | .build => NeedsPhase i .load ∧ ∀ s, s.htc.phase = .load → Executed i s
    | .gen | .dbegin => NeedsPhase i .tree ∧ ∀ s, s.htc.phase = .tree → Executed i s
    | .pbit _ | .enc _ | .flush => NeedsPhase i .encode ∧ ∀ s, s.htc.phase = .encode → Executed i s
    | .dec _ | .dend => NeedsPhase i .decode ∧ ∀ s, s.htc.phase = .decode → Executed i s
    | .fget _ | .ftot | .nget _ | .clen _ | .cbit _ _ | .olen | .ord _ =>
      NeedsLife i ∧ ∀ s, s.htc.phase ≠ .fault → Executed i s

/-- R35: who writes what. A command leaves every element it does not own as it was; PHASE also changes by a fault, ERR only
by a fault and INIT; the eight reads write nothing when they succeed. -/
def Obligations.WriteOwnershipIsComplete : Prop :=
  ∀ (i : Instr) (s t : State), exec i s = .next t →
    (match i with
      | .fset _ _ | .fcnt _ | .init => True
      | _ => t.htc.freq = s.htc.freq) ∧
    (match i with
      | .build | .init => True
      | _ => t.htc.tree = s.htc.tree) ∧
    (match i with
      | .gen | .init => True
      | _ => t.htc.code = s.htc.code) ∧
    (match i with
      | .gen | .pbit _ | .enc _ | .flush | .init => True
      | _ => t.htc.acc = s.htc.acc ∧ t.htc.nbits = s.htc.nbits) ∧
    (match i with
      | .pbit _ | .enc _ | .flush | .dbegin | .dec _ | .init => True
      | _ => t.htc.omem = s.htc.omem ∧ t.htc.olen = s.htc.olen) ∧
    (match i with
      | .dbegin | .dec _ | .init => True
      | _ => t.htc.cur = s.htc.cur) ∧
    (match i with
      | .build | .gen | .dbegin | .flush | .dend | .init => True
      | _ => t.htc.phase = s.htc.phase ∨ (t.htc.phase = .fault ∧ t.htc.err ≠ none)) ∧
    (match i with
      | .init => True
      | _ => t.htc.err = s.htc.err ∨ t.htc.phase = .fault) ∧
    (isRead i = true → (∃ d, t.rsps = s.rsps ++ [{ status := .ok, data := d }]) → t.htc = s.htc)

/-- R28: the transitions of PHASE, and no others. -/
def Obligations.PhaseTransitionsAreTheListedOnes : Prop :=
  ∀ (i : Instr) (s t : State), exec i s = .next t →
    t.htc.phase = s.htc.phase ∨ t.htc.phase = .fault ∨ (i = .init ∧ t.htc.phase = .load) ∨
    (i = .build ∧ s.htc.phase = .load ∧ t.htc.phase = .tree) ∨
    (i = .gen ∧ s.htc.phase = .tree ∧ t.htc.phase = .encode) ∨
    (i = .dbegin ∧ s.htc.phase = .tree ∧ t.htc.phase = .decode) ∨
    (i = .flush ∧ s.htc.phase = .encode ∧ t.htc.phase = .done) ∨
    (i = .dend ∧ s.htc.phase = .decode ∧ t.htc.phase = .done)

/-! ### Control and output (46_control_output.md) -/

/-- R186: STAT, in every phase, responds the registers at their places and changes nothing. -/
def Obligations.StatReportsTheRegisters : Prop :=
  decode (cmdWord 0x02 0 0) = some .stat ∧
  (∀ a b, (a ≠ 0 ∨ b ≠ 0) → IllegalWord (cmdWord 0x02 a b)) ∧
  ∀ s : State, ∃ d : Data, exec .stat s = .next (s.answered s.htc d) ∧
    d.toNat = s.htc.phase.bits.toNat + (errBits s.htc.err).toNat * 2 ^ 4 + s.htc.root.val * 2 ^ 8 +
      s.htc.rootv.toNat * 2 ^ 17 + s.htc.nleaf.toNat * 2 ^ 18 + s.htc.nint.toNat * 2 ^ 27 +
      s.htc.nbits.toNat * 2 ^ 35 + s.htc.acc.toNat * 2 ^ 38 + s.htc.cur.val * 2 ^ 46

/-- R187: OLEN responds the number of bytes written. -/
def Obligations.OlenReportsTheLength : Prop :=
  decode (cmdWord 0x60 0 0) = some .olen ∧ (∀ a b, (a ≠ 0 ∨ b ≠ 0) → IllegalWord (cmdWord 0x60 a b)) ∧
  NeedsLife .olen ∧
  ∀ s : State, s.htc.phase ≠ .fault →
    ∃ d : Data, exec .olen s = .next (s.answered s.htc d) ∧ d.toNat = s.htc.olen.toNat

/-- R188: ORD raises RANGE unless addr < OLEN, else responds the byte of OMEM there and changes nothing. -/
def Obligations.OrdReadsOneByte : Prop :=
  ∀ addr : Len, decode (cmdWord 0x61 0 addr) = some (.ord addr) ∧
  (∀ a, a ≠ 0 → IllegalWord (cmdWord 0x61 a addr)) ∧ NeedsLife (.ord addr) ∧
  ∀ s : State, s.htc.phase ≠ .fault →
    (s.htc.olen.toNat ≤ addr.toNat → exec (.ord addr) s = .next (s.faulted .range)) ∧
    (addr.toNat < s.htc.olen.toNat → ∀ v : Byte, s.htc.omem.read addr.toNat = some v →
      ∃ d : Data, exec (.ord addr) s = .next (s.answered s.htc d) ∧ d.toNat = v.toNat) ∧
    (addr.toNat < s.htc.olen.toNat → s.Inv → ∃ v : Byte, s.htc.omem.read addr.toNat = some v)

/-! ### The frequency table (40_frequency.md) -/

/-- R100: FSET replaces one count and changes nothing else. -/
def Obligations.FsetWritesOneCount : Prop :=
  ∀ (sym : Byte) (count : Count), decode (cmdWord 0x10 sym count) = some (.fset sym count) ∧
  NeedsPhase (.fset sym count) .load ∧
  ∀ s : State, s.htc.phase = .load → ∃ f : Vector Count 256,
    (∀ b, tableGet f b = if b = sym then count else s.htc.count b) ∧
    exec (.fset sym count) s = .next (s.answered { s.htc with freq := f } 0)

/-- R101: FCNT adds one to a count and never wraps: at 2^32-1 it raises FREQ_OVF. -/
def Obligations.FcntCountsOneByte : Prop :=
  ∀ byte : Byte, decode (cmdWord 0x11 byte 0) = some (.fcnt byte) ∧
  (∀ b, b ≠ 0 → IllegalWord (cmdWord 0x11 byte b)) ∧ NeedsPhase (.fcnt byte) .load ∧
  ∀ s : State, s.htc.phase = .load →
    ((s.htc.count byte).toNat = 2 ^ 32 - 1 → exec (.fcnt byte) s = .next (s.faulted .freqOvf)) ∧
    ((s.htc.count byte).toNat ≠ 2 ^ 32 - 1 → ∃ f : Vector Count 256,
      (∀ b, (tableGet f b).toNat = if b = byte then (s.htc.count b).toNat + 1 else (s.htc.count b).toNat) ∧
      exec (.fcnt byte) s = .next (s.answered { s.htc with freq := f } 0))

/-- R102: FGET responds one count. -/
def Obligations.FgetReadsOneCount : Prop :=
  ∀ sym : Byte, decode (cmdWord 0x12 sym 0) = some (.fget sym) ∧
  (∀ b, b ≠ 0 → IllegalWord (cmdWord 0x12 sym b)) ∧ NeedsLife (.fget sym) ∧
  ∀ s : State, s.htc.phase ≠ .fault →
    ∃ d : Data, exec (.fget sym) s = .next (s.answered s.htc d) ∧ d.toNat = (s.htc.count sym).toNat

/-- R103, R104: FTOT responds the exact sum of the 256 counts, which cannot overflow 40 bits. -/
def Obligations.FtotSumsAllCounts : Prop :=
  decode (cmdWord 0x13 0 0) = some .ftot ∧ (∀ a b, (a ≠ 0 ∨ b ≠ 0) → IllegalWord (cmdWord 0x13 a b)) ∧
  NeedsLife .ftot ∧
  ∀ s : State,
    ((allSymbols.map fun b => (s.htc.count b).toNat).sum ≤ 2 ^ 40 - 256) ∧
    (s.htc.phase ≠ .fault → ∃ d : Data, exec .ftot s = .next (s.answered s.htc d) ∧
      d.toNat = (allSymbols.map fun b => (s.htc.count b).toNat).sum)

/-- R105 (a), Q3: one FCNT per byte of a list, in any phase LOAD state whose counts stay below 2^32, ends with all responses
OK, every count grown by the number of occurrences, and the total grown by the length of the list. -/
def Obligations.CountingConservesFrequency : Prop :=
  ∀ (bytes : List Byte) (s : State), s.htc.phase = .load →
    (∀ v, (s.htc.count v).toNat + bytes.count v < 2 ^ 32) →
    ∃ f : Vector Count 256, execAll (fcnts bytes) s =
        .next { s with htc := { s.htc with freq := f }
                       rsps := s.rsps ++ List.replicate bytes.length { status := .ok, data := 0 } } ∧
      (∀ v, (tableGet f v).toNat = (s.htc.count v).toNat + bytes.count v) ∧
      (total f).toNat = (total s.htc.freq).toNat + bytes.length

/-- R21: after BUILD has moved the phase on, no step changes FREQ until INIT or reset. -/
def Obligations.FrequencyTableIsFrozenAfterLoad : Prop :=
  ∀ s t : State, s.htc.phase ≠ .load → step s = .next t → t.htc.freq = s.htc.freq ∨ t.htc = Htc.reset

/-! ### The tree builder (41_tree_builder.md) -/

/-- R110, R111: on a queue without repeats, `extract_min` removes the one member whose key is before every other's. -/
def Obligations.ExtractMinTakesTheLeastKey : Prop :=
  ∀ (arena : Vector Node 511) (pq : List NodeIdx), pq.Nodup → pq ≠ [] →
    ∃ m rest, extractMin arena pq = some (m, rest) ∧ pq.Perm (m :: rest) ∧ ∀ i ∈ rest, KeyBefore arena m i

/-- R112: one pass of the merge loop. It runs exactly while the queue has two members; the least becomes LEFT and the second
least RIGHT of a new node at `next`, whose frequency is their sum, and the new node takes their place. -/
def Obligations.MergeJoinsTheTwoLeast : Prop :=
  ∀ m : Merge, m.pq.Nodup →
    (m.pq.length < 2 → mergeOnce m = none) ∧
    (2 ≤ m.pq.length → m.next < 511 → ∃ (l r new : NodeIdx) (rest : List NodeIdx) (m' : Merge),
      mergeOnce m = some m' ∧ new.val = m.next ∧ m.pq.Perm (l :: r :: rest) ∧
      KeyBefore m.arena l r ∧ (∀ i ∈ rest, KeyBefore m.arena r i) ∧
      m'.pq.Perm (new :: rest) ∧ m'.next = m.next + 1 ∧
      ∀ i, arenaGet m'.arena i = if i = new then
        { v := true, leaf := false, f := (arenaGet m.arena l).f + (arenaGet m.arena r).f, left := l, right := r }
        else arenaGet m.arena i)

/-- R112, R117 (a) to (g): BUILD in phase LOAD leaves a tree of the shape of R117 and phase TREE, and changes nothing else;
in every other phase it raises PHASE or gets FAULTED. -/
def Obligations.BuildLeavesAHuffmanTree : Prop :=
  decode (cmdWord 0x20 0 0) = some .build ∧ (∀ a b, (a ≠ 0 ∨ b ≠ 0) → IllegalWord (cmdWord 0x20 a b)) ∧
  NeedsPhase .build .load ∧
  ∀ s : State, s.htc.phase = .load → ∃ t : Tree, TreeShape s.htc.freq t ∧
    exec .build s = .next (s.answered
      { s.htc with node := t.node, rootv := t.rootv, root := t.root, nleaf := t.nleaf, nint := t.nint, phase := .tree } 0)

/-- R117 (h): every leaf is reachable from ROOT by exactly one path, of length at most n - 1. -/
def Obligations.EveryLeafHasOnePath : Prop :=
  ∀ (freq : Vector Count 256) (b : Byte), tableGet freq b ≠ 0 →
    ∃ p, PathTo (buildTree freq).node (buildTree freq).root (leafIdx b) p ∧ p.length ≤ (present freq).length - 1 ∧
      ∀ q, PathTo (buildTree freq).node (buildTree freq).root (leafIdx b) q → q = p

/-- R113: with exactly one symbol present, BUILD makes its leaf the root and every other entry all-zero. -/
def Obligations.BuildOfOneSymbol : Prop :=
  ∀ (s : State) (sym : Byte), s.htc.phase = .load → s.htc.count sym ≠ 0 → (∀ b, b ≠ sym → s.htc.count b = 0) →
    ∃ arena : Vector Node 511,
      (∀ i, arenaGet arena i = if i = leafIdx sym then
        { v := true, leaf := true, f := (s.htc.count sym).setWidth 40, left := 0, right := 0 } else Node.zero) ∧
      exec .build s = .next (s.answered { s.htc with node := arena, rootv := true, root := leafIdx sym, nleaf := 1
                                                     nint := 0, phase := .tree } 0)

/-- R114: with no symbol present, BUILD creates no node and responds OK. -/
def Obligations.BuildOfTheEmptyTable : Prop :=
  ∀ s : State, s.htc.phase = .load → (∀ b, s.htc.count b = 0) → ∃ arena : Vector Node 511,
    (∀ i, arenaGet arena i = Node.zero) ∧
    exec .build s = .next (s.answered { s.htc with node := arena, rootv := false, root := 0, nleaf := 0
                                                   nint := 0, phase := .tree } 0)

/-- R115: BUILD is a function of FREQ alone. -/
def Obligations.BuildIsAFunctionOfFreq : Prop :=
  ∀ s s' : State, s.htc.phase = .load → s'.htc.phase = .load → s.htc.freq = s'.htc.freq →
    ∃ t t', exec .build s = .next t ∧ exec .build s' = .next t' ∧ t.htc.tree = t'.htc.tree

/-- R116: NGET responds one arena entry at the places of R75; RANGE when idx > 510. -/
def Obligations.NgetReadsOneNode : Prop :=
  ∀ idx : BitVec 32, decode (cmdWord 0x21 0 idx) = some (.nget idx) ∧
  (∀ a, a ≠ 0 → IllegalWord (cmdWord 0x21 a idx)) ∧ NeedsLife (.nget idx) ∧
  ∀ s : State, s.htc.phase ≠ .fault →
    (510 < idx.toNat → exec (.nget idx) s = .next (s.faulted .range)) ∧
    (∀ i : NodeIdx, idx.toNat = i.val → ∃ d : Data, exec (.nget idx) s = .next (s.answered s.htc d) ∧
      d.toNat = (s.htc.nodeAt i).f.toNat + (s.htc.nodeAt i).left.val * 2 ^ 40 + (s.htc.nodeAt i).right.val * 2 ^ 49 +
        (s.htc.nodeAt i).leaf.toNat * 2 ^ 58 + (s.htc.nodeAt i).v.toNat * 2 ^ 59)

/-! ### The code generator (42_codebook.md) -/

/-- R130, R131: GEN in phase TREE gives exactly the present symbols a code, the path of their leaf, empties the packer and
moves to ENCODE, and changes nothing else; in every other phase it raises PHASE or gets FAULTED. -/
def Obligations.GenAssignsThePaths : Prop :=
  decode (cmdWord 0x30 0 0) = some .gen ∧ (∀ a b, (a ≠ 0 ∨ b ≠ 0) → IllegalWord (cmdWord 0x30 a b)) ∧
  NeedsPhase .gen .tree ∧
  ∀ s : State, s.Inv → s.htc.phase = .tree → ∃ book : Vector CodeEntry 256,
    exec .gen s = .next (s.answered { s.htc with code := book, acc := 0, nbits := 0, phase := .encode } 0) ∧
    ∀ b : Byte, (s.htc.count b = 0 → tableGet book b = CodeEntry.zero) ∧
      (s.htc.count b ≠ 0 → (tableGet book b).cv = true ∧
        PathTo s.htc.node s.htc.root (leafIdx b) (tableGet book b).string ∧
        (tableGet book b).string.length = (tableGet book b).clen.toNat ∧
        ∀ k, (tableGet book b).clen.toNat ≤ k → (tableGet book b).cbits.toList.getD k false = false)

/-- R132, R138: with a leaf at the root GEN gives its symbol the empty code; with no tree it gives no code. -/
def Obligations.GenOfALeafAndOfNoTree : Prop :=
  ∀ s : State, s.htc.phase = .tree →
    (∀ sym : Byte, s.htc.rootv = true → s.htc.root = leafIdx sym → (s.htc.nodeAt s.htc.root).leaf = true →
      ∃ book : Vector CodeEntry 256, (∀ b, tableGet book b = if b = sym then
          { cv := true, clen := 0, cbits := Vector.replicate 255 false } else CodeEntry.zero) ∧
        exec .gen s = .next (s.answered { s.htc with code := book, acc := 0, nbits := 0, phase := .encode } 0)) ∧
    (s.htc.rootv = false → ∃ book : Vector CodeEntry 256, (∀ b, tableGet book b = CodeEntry.zero) ∧
        exec .gen s = .next (s.answered { s.htc with code := book, acc := 0, nbits := 0, phase := .encode } 0))

/-- R133, Q2: no code is a prefix of the code of another byte value. -/
def Obligations.CodesArePrefixFree : Prop :=
  ∀ h : Htc, h.HasTree → h.HasCodes → ∀ a b : Byte, a ≠ b → (h.codeOf a).cv = true → (h.codeOf b).cv = true →
    ¬ (h.codeOf a).string <+: (h.codeOf b).string

/-- R136: every code has at most NLEAF - 1 bits, and at least one when NLEAF >= 2. -/
def Obligations.CodeLengthsAreBounded : Prop :=
  ∀ h : Htc, h.HasTree → h.HasCodes → ∀ b : Byte, (h.codeOf b).cv = true →
    (h.codeOf b).clen.toNat ≤ h.nleaf.toNat - 1 ∧ (2 ≤ h.nleaf.toNat → 1 ≤ (h.codeOf b).clen.toNat)

/-- R139: when NLEAF >= 2 the sum of 2^(-CLEN) over the present symbols is exactly 1 (here both sides times 2^255). -/
def Obligations.KraftSumIsOne : Prop :=
  ∀ h : Htc, h.HasTree → h.HasCodes → 2 ≤ h.nleaf.toNat → kraftSum h.code = 2 ^ 255

/-- R134: CLEN responds CLEN and CV of one entry. -/
def Obligations.ClenReadsTheLength : Prop :=
  ∀ sym : Byte, decode (cmdWord 0x31 sym 0) = some (.clen sym) ∧
  (∀ b, b ≠ 0 → IllegalWord (cmdWord 0x31 sym b)) ∧ NeedsLife (.clen sym) ∧
  ∀ s : State, s.htc.phase ≠ .fault → ∃ d : Data, exec (.clen sym) s = .next (s.answered s.htc d) ∧
    d.toNat = (s.htc.codeOf sym).clen.toNat + (s.htc.codeOf sym).cv.toNat * 2 ^ 8

/-- R135: CBIT responds one bit of a code; RANGE when there is no code or pos is not a position of it. -/
def Obligations.CbitReadsOneBit : Prop :=
  ∀ (sym : Byte) (pos : BitVec 32), decode (cmdWord 0x32 sym pos) = some (.cbit sym pos) ∧ NeedsLife (.cbit sym pos) ∧
  ∀ s : State, s.htc.phase ≠ .fault →
    (((s.htc.codeOf sym).cv = false ∨ (s.htc.codeOf sym).clen.toNat ≤ pos.toNat) →
      exec (.cbit sym pos) s = .next (s.faulted .range)) ∧
    ((s.htc.codeOf sym).cv = true → pos.toNat < (s.htc.codeOf sym).clen.toNat →
      ∃ (bit : Bool) (d : Data), (s.htc.codeOf sym).string[pos.toNat]? = some bit ∧ d.toNat = bit.toNat ∧
        exec (.cbit sym pos) s = .next (s.answered s.htc d))

/-! ### The packer (43_bitpacker.md) -/

/-- R145, R148: PBIT puts its bit below the bits already in ACC; the eighth bit appends the byte; OVERFLOW when that byte has no
room. -/
def Obligations.PbitPushesOneBit : Prop :=
  ∀ bit : Bool, decode (cmdWord 0x40 (if bit then 1 else 0) 0) = some (.pbit bit) ∧
  (∀ a b, (2 ≤ a.toNat ∨ b ≠ 0) → IllegalWord (cmdWord 0x40 a b)) ∧ NeedsPhase (.pbit bit) .encode ∧
  ∀ s : State, s.htc.phase = .encode → ∃ acc : Byte,
    (∀ k, k < 8 → acc.getLsbD k = (s.htc.acc.getLsbD k || (decide (k + s.htc.nbits.toNat = 7) && bit))) ∧
    (s.htc.nbits.toNat < 7 →
      exec (.pbit bit) s = .next (s.answered { s.htc with acc := acc, nbits := s.htc.nbits + 1 } 0)) ∧
    (s.htc.nbits = 7 → s.htc.olen ≠ s.cfg.outCap → ∃ m : Memory,
      (∀ a, m.read a = if a = s.htc.olen.toNat then some acc else s.htc.omem.read a) ∧
      exec (.pbit bit) s =
        .next (s.answered { s.htc with omem := m, olen := s.htc.olen + 1, acc := 0, nbits := 0 } 0)) ∧
    (s.htc.nbits = 7 → s.htc.olen = s.cfg.outCap → exec (.pbit bit) s = .next (s.faulted .overflow))

/-- R149: FLUSH appends the pending byte, if bits are pending, and moves to DONE; OVERFLOW when it has no room. -/
def Obligations.FlushPadsTheLastByte : Prop :=
  decode (cmdWord 0x42 0 0) = some .flush ∧ (∀ a b, (a ≠ 0 ∨ b ≠ 0) → IllegalWord (cmdWord 0x42 a b)) ∧
  NeedsPhase .flush .encode ∧
  ∀ s : State, s.htc.phase = .encode →
    (s.htc.nbits = 0 → exec .flush s = .next (s.answered { s.htc with phase := .done } 0)) ∧
    (s.htc.nbits ≠ 0 → s.htc.olen = s.cfg.outCap → exec .flush s = .next (s.faulted .overflow)) ∧
    (s.htc.nbits ≠ 0 → s.htc.olen ≠ s.cfg.outCap → ∃ m : Memory,
      (∀ a, m.read a = if a = s.htc.olen.toNat then some s.htc.acc else s.htc.omem.read a) ∧
      exec .flush s = .next (s.answered
        { s.htc with omem := m, olen := s.htc.olen + 1, acc := 0, nbits := 0, phase := .done } 0))

/-- R52, R53, R152: the laws of pack and unpack. -/
def Obligations.PackAndUnpackAgree : Prop :=
  (∀ strings : List BitString, unpack (pack strings) =
    strings.flatten ++ List.replicate (padBits strings.flatten.length) false) ∧
  (∀ bytes : List Byte, pack [unpack bytes] = bytes) ∧
  (∀ strings : List BitString, (8 * (pack strings).length) % 8 = 0 ∧
    (pack strings).length = (strings.flatten.length + 7) / 8) ∧
  (∀ v : Byte, ∀ k, k < 8 → (unpack8 v)[k]? = some (v.getLsbD (7 - k)))

/-- R151: PBITs and ENCs that all end with OK, from an empty packer and an empty OMEM, leave in OMEM, NBITS and ACC exactly
`pack` of the strings they pushed; FLUSH then leaves all of it in OMEM, of (T + 7) div 8 bytes. -/
def Obligations.PackerRegistersAgreeWithPack : Prop :=
  ∀ (s t : State) (cmds : List Instr), s.htc.phase = .encode → s.htc.PackerEmpty → s.htc.olen = 0 → s.htc.omem = [] →
    (∀ i ∈ cmds, isPush i = true) → execAll cmds s = .next t → t.htc.phase = .encode →
    (t.htc.output = (pack (cmds.map (pushedBits s.htc.code))).take
        ((cmds.map (pushedBits s.htc.code)).flatten.length / 8) ∧
      t.htc.nbits.toNat = (cmds.map (pushedBits s.htc.code)).flatten.length % 8 ∧
      t.htc.acc = (pack (cmds.map (pushedBits s.htc.code))).getD
        ((cmds.map (pushedBits s.htc.code)).flatten.length / 8) 0) ∧
    ∀ u, exec .flush t = .next u → u.htc.phase = .done →
      u.htc.output = pack (cmds.map (pushedBits s.htc.code)) ∧ u.htc.PackerEmpty ∧
      u.htc.olen.toNat = ((cmds.map (pushedBits s.htc.code)).flatten.length + 7) / 8

/-! ### Encode (44_encode.md) -/

/-- R160: ENC raises NOCODE, then OVERFLOW, else pushes the bits of the code: only ACC, NBITS, OMEM and OLEN change, NBITS and
OLEN as the rule says, and no byte already in OMEM. -/
def Obligations.EncPushesTheCode : Prop :=
  ∀ byte : Byte, decode (cmdWord 0x41 byte 0) = some (.enc byte) ∧
  (∀ b, b ≠ 0 → IllegalWord (cmdWord 0x41 byte b)) ∧ NeedsPhase (.enc byte) .encode ∧
  ∀ s : State, s.htc.phase = .encode →
    ((s.htc.codeOf byte).cv = false → exec (.enc byte) s = .next (s.faulted .noCode)) ∧
    ((s.htc.codeOf byte).cv = true → s.cfg.outCap.toNat <
        s.htc.olen.toNat + (s.htc.nbits.toNat + (s.htc.codeOf byte).clen.toNat) / 8 →
      exec (.enc byte) s = .next (s.faulted .overflow)) ∧
    ((s.htc.codeOf byte).cv = true → s.htc.olen.toNat + (s.htc.nbits.toNat + (s.htc.codeOf byte).clen.toNat) / 8 ≤
        s.cfg.outCap.toNat →
      ∃ (m : Memory) (len : Len) (acc : Byte) (nbits : BitVec 3),
        exec (.enc byte) s =
          .next (s.answered { s.htc with omem := m, olen := len, acc := acc, nbits := nbits } 0) ∧
        pushBits s.cfg s.htc (s.htc.codeOf byte).string =
          .ok { s.htc with omem := m, olen := len, acc := acc, nbits := nbits } ∧
        nbits.toNat = (s.htc.nbits.toNat + (s.htc.codeOf byte).clen.toNat) % 8 ∧
        len.toNat = s.htc.olen.toNat + (s.htc.nbits.toNat + (s.htc.codeOf byte).clen.toNat) / 8 ∧
        ∀ a, (a < s.htc.olen.toNat ∨ len.toNat ≤ a) → m.read a = s.htc.omem.read a)

/-! ### Decode (45_decode.md) -/

/-- R171: DBEGIN puts the walk at ROOT and moves to DECODE; over a root that is a leaf it emits all the symbols at once, or
raises OVERFLOW when they do not fit. -/
def Obligations.DbeginStartsTheWalk : Prop :=
  decode (cmdWord 0x50 0 0) = some .dbegin ∧ (∀ a b, (a ≠ 0 ∨ b ≠ 0) → IllegalWord (cmdWord 0x50 a b)) ∧
  NeedsPhase .dbegin .tree ∧
  ∀ s : State, s.htc.phase = .tree → s.htc.olen = 0 →
    (((s.htc.nodeAt s.htc.root).leaf = false ∨ total s.htc.freq = 0) →
      exec .dbegin s = .next (s.answered { s.htc with cur := s.htc.root, phase := .decode } 0)) ∧
    (s.htc.rootv = true → (s.htc.nodeAt s.htc.root).leaf = true →
      s.cfg.outCap.toNat < (total s.htc.freq).toNat → exec .dbegin s = .next (s.faulted .overflow)) ∧
    (s.htc.rootv = true → (s.htc.nodeAt s.htc.root).leaf = true →
      (total s.htc.freq).toNat ≤ s.cfg.outCap.toNat → ∃ (m : Memory) (len : Len),
        len.toNat = (total s.htc.freq).toNat ∧
        (∀ a, m.read a = if a < len.toNat then some (idxByte s.htc.root) else s.htc.omem.read a) ∧
        exec .dbegin s = .next (s.answered
          { s.htc with omem := m, olen := len, cur := s.htc.root, phase := .decode } 0))

/-- R170, R172: DEC walks the eight bits of its byte, most significant first, as one command; what one bit does: it is ignored
once all symbols are out, else it descends, and a leaf reached is emitted, which raises OVERFLOW when OMEM is full. -/
def Obligations.DecWalksEachBit : Prop :=
  (∀ byte : Byte, decode (cmdWord 0x51 byte 0) = some (.dec byte) ∧
    (∀ b, b ≠ 0 → IllegalWord (cmdWord 0x51 byte b)) ∧ NeedsPhase (.dec byte) .decode ∧
    ∀ s : State, s.htc.phase = .decode →
      (∀ h, walkBits s.cfg s.htc [byte.getLsbD 7, byte.getLsbD 6, byte.getLsbD 5, byte.getLsbD 4, byte.getLsbD 3,
          byte.getLsbD 2, byte.getLsbD 1, byte.getLsbD 0] = .ok h → exec (.dec byte) s = .next (s.answered h 0)) ∧
      (∀ c, walkBits s.cfg s.htc [byte.getLsbD 7, byte.getLsbD 6, byte.getLsbD 5, byte.getLsbD 4, byte.getLsbD 3,
          byte.getLsbD 2, byte.getLsbD 1, byte.getLsbD 0] = .error c → exec (.dec byte) s = .next (s.faulted c))) ∧
  ∀ (cfg : Config) (h : Htc) (b : Bool) (child : NodeIdx),
    child = (if b then (h.nodeAt h.cur).right else (h.nodeAt h.cur).left) →
    ((total h.freq).toNat ≤ h.olen.toNat → walkBit cfg h b = .ok h) ∧
    (h.olen.toNat < (total h.freq).toNat → (h.nodeAt child).leaf = false →
      walkBit cfg h b = .ok { h with cur := child }) ∧
    (h.olen.toNat < (total h.freq).toNat → (h.nodeAt child).leaf = true → h.olen = cfg.outCap →
      walkBit cfg h b = .error .overflow) ∧
    (h.olen.toNat < (total h.freq).toNat → (h.nodeAt child).leaf = true → h.olen ≠ cfg.outCap →
      (h.nodeAt h.root).leaf = false → ∃ m : Memory,
        (∀ a, m.read a = if a = h.olen.toNat then some (idxByte child) else h.omem.read a) ∧
        walkBit cfg h b = .ok { h with omem := m, olen := h.olen + 1, cur := h.root })

/-- R172: in a decode session whose symbols all fit OMEM, DEC ends with OK; it changes only OMEM, OLEN and CUR, emits at most 8
symbols, never more than are missing, and leaves every byte already written. -/
def Obligations.DecCompletesWhenTheOutputFits : Prop :=
  ∀ (s : State) (byte : Byte), s.Inv → s.htc.phase = .decode →
    (total s.htc.freq).toNat ≤ s.cfg.outCap.toNat →
    ∃ (m : Memory) (len : Len) (cur : NodeIdx),
      exec (.dec byte) s = .next (s.answered { s.htc with omem := m, olen := len, cur := cur } 0) ∧
      s.htc.olen.toNat ≤ len.toNat ∧ len.toNat ≤ s.htc.olen.toNat + 8 ∧ len.toNat ≤ (total s.htc.freq).toNat ∧
      ∀ a, (a < s.htc.olen.toNat ∨ len.toNat ≤ a) → m.read a = s.htc.omem.read a

/-- R58, R172 (a), (c): once all symbols are out, every DEC is ignored, whatever its byte. -/
def Obligations.DecIgnoresPadding : Prop :=
  ∀ (s : State) (byte : Byte), s.htc.phase = .decode → (total s.htc.freq).toNat ≤ s.htc.olen.toNat →
    exec (.dec byte) s = .next (s.answered s.htc 0)

/-- R173: DEND raises TRUNC while symbols are missing, else moves to DONE and changes nothing else. -/
def Obligations.DendChecksTheCount : Prop :=
  decode (cmdWord 0x52 0 0) = some .dend ∧ (∀ a b, (a ≠ 0 ∨ b ≠ 0) → IllegalWord (cmdWord 0x52 a b)) ∧
  NeedsPhase .dend .decode ∧
  ∀ s : State, s.htc.phase = .decode →
    (s.htc.olen.toNat < (total s.htc.freq).toNat → exec .dend s = .next (s.faulted .trunc)) ∧
    ((total s.htc.freq).toNat ≤ s.htc.olen.toNat →
      exec .dend s = .next (s.answered { s.htc with phase := .done } 0))

/-- R175: DBEGIN, the DECs of a payload and DEND give the same symbols and the same verdict as TC's loop on the payload's bits,
when the symbols fit OMEM. -/
def Obligations.DecodeAgreesWithTheLoopOfTheSource : Prop :=
  ∀ (s : State) (payload : List Byte), s.Inv → s.htc.phase = .tree →
    (total s.htc.freq).toNat ≤ s.cfg.outCap.toNat →
    ∃ t, execAll ([.dbegin] ++ decs payload ++ [.dend]) s = .next t ∧
      match tcDecode s.htc.tree (total s.htc.freq).toNat (unpack payload) with
      | some out => t.htc.phase = .done ∧ t.htc.output = out
      | none => t.htc.phase = .fault ∧ t.htc.err = some .trunc

/-- R176, Q1: bytes encoded in one session and decoded in another with the same frequency table come back unchanged, when the
table's total is their number and they fit the decoder's OMEM. -/
def Obligations.RoundTripRecoversTheInput : Prop :=
  ∀ (e d e' : State) (bytes : List Byte),
    e.Inv → e.htc.phase = .encode → e.htc.PackerEmpty → e.htc.olen = 0 →
    execAll (encs bytes ++ [.flush]) e = .next e' → e'.htc.phase = .done →
    d.Inv → d.htc.phase = .tree → d.htc.freq = e.htc.freq →
    (total d.htc.freq).toNat = bytes.length → bytes.length ≤ d.cfg.outCap.toNat →
    ∃ d', execAll ([.dbegin] ++ decs e'.htc.output ++ [.dend]) d = .next d' ∧
      d'.htc.phase = .done ∧ d'.htc.output = bytes

/-- Q13: fed fewer bits than the codes of the input have, the decoder ends with TRUNC, never with OK. -/
def Obligations.TruncatedPayloadIsCaught : Prop :=
  ∀ (e d e' : State) (bytes : List Byte) (bits : BitString) (k : Nat),
    e.Inv → e.htc.phase = .encode → e.htc.PackerEmpty → e.htc.olen = 0 →
    execAll (encs bytes ++ [.flush]) e = .next e' → e'.htc.phase = .done →
    codeBits e.htc.code bytes = some bits → 8 * k < bits.length →
    d.Inv → d.htc.phase = .tree → d.htc.freq = e.htc.freq →
    (total d.htc.freq).toNat = bytes.length → bytes.length ≤ d.cfg.outCap.toNat →
    ∃ d', execAll ([.dbegin] ++ decs (e'.htc.output.take k) ++ [.dend]) d = .next d' ∧
      d'.htc.phase = .fault ∧ d'.htc.err = some .trunc

/-! ### The host procedures (44_encode.md section 2, 45_decode.md section 3) -/

/-- R188, R161, R174: ORD 0, ORD 1, ... up to OLEN - 1 respond the bytes of OMEM in order and change nothing. -/
def Obligations.ReadOutGivesTheOutput : Prop :=
  ∀ s : State, s.Inv → s.htc.phase ≠ .fault →
    execAll (readOut s.htc.olen.toNat) s = .next { s with
      rsps := s.rsps ++ s.htc.output.map fun v => { status := .ok, data := v.setWidth 64 } }

/-- R161, R162: the encode procedure, from any state, over bytes no value of which occurs 2^32 times. With T code bits, it
ends with OVERFLOW when (T + 7) div 8 bytes exceed OUT_CAP, else it leaves the table of the bytes and `pack` of their
codes, of (T + 7) div 8 bytes. -/
def Obligations.EncodeProcedurePacksTheCodes : Prop :=
  ∀ (s : State) (bytes : List Byte), (∀ v, bytes.count v < 2 ^ 32) →
    ∃ (t : State) (bits : BitString), execAll (encodeProcedure bytes) s = .next t ∧
      (∀ v, (t.htc.count v).toNat = bytes.count v) ∧ codeBits t.htc.code bytes = some bits ∧
      bits.length = codeLength t.htc.freq t.htc.code ∧
      (s.cfg.outCap.toNat < (bits.length + 7) / 8 → t.htc.phase = .fault ∧ t.htc.err = some .overflow) ∧
      ((bits.length + 7) / 8 ≤ s.cfg.outCap.toNat → t.htc.phase = .done ∧ t.htc.output = pack [bits] ∧
        t.htc.olen.toNat = (bits.length + 7) / 8)

/-- R176, Q1: what the encode procedure leaves on one HTC, in any state at its start, the decode procedure turns back into the
input on another, in any state at its start, when the input fits that one's OMEM. -/
def Obligations.RoundTripOfTheProcedures : Prop :=
  ∀ (s d : State) (bytes : List Byte), (∀ v, bytes.count v < 2 ^ 32) → bytes.length ≤ d.cfg.outCap.toNat →
    ∃ t, execAll (encodeProcedure bytes) s = .next t ∧ (t.htc.phase = .done →
      ∃ d', execAll (decodeProcedure t.htc.freq t.htc.output) d = .next d' ∧
        d'.htc.phase = .done ∧ d'.htc.output = bytes)
end

