-- ==== Sys2Proof/Laws/Table.lean ====
section
/-! SUPPORT. Reads and writes of the tables FREQ, CODE and NODE (20_memory.md R50), and the byte value of a leaf (10_state.md R22). -/

namespace Sys2Proof.Machine

@[simp] theorem tableGet_replicate {α : Type} (x : α) (b : Byte) : tableGet (Vector.replicate 256 x) b = x := by
  simp [tableGet]

theorem tableGet_tableSet {α : Type} (t : Vector α 256) (a b : Byte) (x : α) :
    tableGet (tableSet t a x) b = if b = a then x else tableGet t b := by
  unfold tableGet tableSet
  rw [Vector.getElem_set]
  by_cases hab : b = a
  · simp [hab]
  · have : a.toNat ≠ b.toNat := fun h => hab (BitVec.eq_of_toNat_eq h.symm)
    simp [hab, this]

@[simp] theorem tableGet_tableSet_same {α : Type} (t : Vector α 256) (a : Byte) (x : α) :
    tableGet (tableSet t a x) a = x := by simp [tableGet_tableSet]

theorem tableGet_tableSet_other {α : Type} (t : Vector α 256) {a b : Byte} (x : α) (h : b ≠ a) :
    tableGet (tableSet t a x) b = tableGet t b := by simp [tableGet_tableSet, h]

@[simp] theorem arenaGet_replicate (n : Node) (i : NodeIdx) : arenaGet (Vector.replicate 511 n) i = n := by
  simp [arenaGet]

theorem arenaGet_arenaSet (arena : Vector Node 511) (i j : NodeIdx) (n : Node) :
    arenaGet (arenaSet arena i n) j = if j = i then n else arenaGet arena j := by
  unfold arenaGet arenaSet
  rw [Vector.getElem_set]
  by_cases hij : j = i
  · simp [hij]
  · have : i.val ≠ j.val := fun h => hij (Fin.ext h.symm)
    simp [hij, this]

@[simp] theorem arenaGet_arenaSet_same (arena : Vector Node 511) (i : NodeIdx) (n : Node) :
    arenaGet (arenaSet arena i n) i = n := by simp [arenaGet_arenaSet]

theorem arenaGet_arenaSet_other (arena : Vector Node 511) {i j : NodeIdx} (n : Node) (h : j ≠ i) :
    arenaGet (arenaSet arena i n) j = arenaGet arena j := by simp [arenaGet_arenaSet, h]

@[simp] theorem leafIdx_val (b : Byte) : (leafIdx b).val = b.toNat := rfl

@[simp] theorem idxByte_leafIdx (b : Byte) : idxByte (leafIdx b) = b := by
  apply BitVec.eq_of_toNat_eq
  simp [idxByte]

theorem leafIdx_idxByte {i : NodeIdx} (h : i.val < 256) : leafIdx (idxByte i) = i := by
  apply Fin.ext
  simp [idxByte, Nat.mod_eq_of_lt h]

theorem leafIdx_inj {a b : Byte} (h : leafIdx a = leafIdx b) : a = b := by
  have := congrArg idxByte h
  simpa using this

end Sys2Proof.Machine
end

