-- ==== Sys2Proof/Laws/CodeBook.lean ====
section
/-! SUPPORT. The unfolding of `visit` (42_codebook.md R131) and the string a CodeBook entry holds (10_state.md R24). -/

namespace Sys2Proof.Machine

variable {arena : Vector Node 511}

theorem visit_leaf {n : NodeIdx} (fuel : Nat) (acc : BitString) (book : Vector CodeEntry 256)
    (h : (arenaGet arena n).leaf = true) : visit arena (fuel + 1) n acc book = recordLeaf n acc book := by
  simp [visit, h]

theorem visit_internal {n : NodeIdx} (fuel : Nat) (acc : BitString) (book : Vector CodeEntry 256)
    (h : (arenaGet arena n).leaf = false) :
    visit arena (fuel + 1) n acc book =
      (visit arena fuel (arenaGet arena n).left (acc ++ [false]) book).bind
        (fun b => visit arena fuel (arenaGet arena n).right (acc ++ [true]) b) := by
  simp only [visit, h, Bool.false_eq_true, if_false]
  cases visit arena fuel (arenaGet arena n).left (acc ++ [false]) book <;> rfl

/-- A leaf of a byte value with a path of at most 255 bits is recorded. -/
theorem recordLeaf_ok {b : Byte} {acc : BitString} {book : Vector CodeEntry 256} (h : acc.length ≤ 255) :
    recordLeaf (leafIdx b) acc book = .ok (tableSet book b (codeOfPath acc)) := by
  have hb : b.toNat < 256 := b.isLt
  simp [recordLeaf, hb, maxLen, h]

@[simp] theorem codeOfPath_cv (p : BitString) : (codeOfPath p).cv = true := rfl

theorem codeOfPath_clen {p : BitString} (h : p.length ≤ 255) : (codeOfPath p).clen.toNat = p.length := by
  simp [codeOfPath]
  omega

/-- The string of a recorded path is the path. -/
theorem codeOfPath_string {p : BitString} (h : p.length ≤ 255) : (codeOfPath p).string = p := by
  unfold CodeEntry.string
  rw [codeOfPath_clen h]
  apply List.ext_getElem
  · simp [codeOfPath]
    omega
  · intro k h1 h2
    simp [codeOfPath, h2]

@[simp] theorem emptyBook_get (b : Byte) : tableGet emptyBook b = CodeEntry.zero := by simp [emptyBook]

@[simp] theorem CodeEntry.zero_string : CodeEntry.zero.string = [] := by simp [CodeEntry.zero, CodeEntry.string]

end Sys2Proof.Machine
end

