-- ==== Sys2Proof/Laws/Memory.lean ====
section
/-! SUPPORT. The laws of OMEM (10_state.md R26): a read after a write, and the canonical form kept by every operation. -/

namespace Sys2Proof.Machine

@[simp] theorem Memory.read_nil (a : Nat) : Memory.read [] a = none := rfl

/-- A read after a write: the byte written at its own address, the old byte elsewhere. -/
theorem Memory.read_write (m : Memory) (a : Nat) (v : Byte) (x : Nat) :
    (m.write a v).read x = if x = a then some v else m.read x := by
  induction m with
  | nil => simp [Memory.write, Memory.read, eq_comm]
  | cons c m ih =>
    obtain ⟨k, b⟩ := c
    unfold Memory.write
    split
    · next h =>
      by_cases hx : x = a
      · simp [Memory.read, hx]
      · have : a ≠ x := fun e => hx e.symm
        simp [Memory.read, hx, this]
    · split
      · next h =>
        subst h
        by_cases hx : x = a
        · simp [Memory.read, hx]
        · have : a ≠ x := fun e => hx e.symm
          simp [Memory.read, hx, this]
      · next h1 h2 =>
        by_cases hx : k = x
        · have : x ≠ a := fun e => h2 (by omega)
          simp [Memory.read, hx, this]
        · simp [Memory.read, hx, ih]

@[simp] theorem Memory.read_write_same (m : Memory) (a : Nat) (v : Byte) : (m.write a v).read a = some v := by
  simp [Memory.read_write]

theorem Memory.read_write_other (m : Memory) {a x : Nat} (v : Byte) (h : x ≠ a) :
    (m.write a v).read x = m.read x := by simp [Memory.read_write, h]

/-- The addresses a write leaves: the old ones and its own. -/
theorem Memory.mem_write {m : Memory} {a : Nat} {v : Byte} {c : Host.Cell} (h : c ∈ m.write a v) :
    c = (a, v) ∨ c ∈ m := by
  induction m with
  | nil => simpa [Memory.write] using h
  | cons d m ih =>
    obtain ⟨k, b⟩ := d
    unfold Memory.write at h
    split at h
    · simpa using h
    · split at h
      · rcases List.mem_cons.1 h with h | h
        · exact .inl h
        · exact .inr (List.mem_cons_of_mem _ h)
      · rcases List.mem_cons.1 h with h | h
        · exact .inr (by simp [h])
        · rcases ih h with h | h
          · exact .inl h
          · exact .inr (List.mem_cons_of_mem _ h)

/-- A write keeps the canonical form. -/
theorem Memory.wf_write {m : Memory} (a : Nat) (v : Byte) (h : Memory.wf m) : Memory.wf (m.write a v) := by
  induction m with
  | nil => simp [Memory.write]
  | cons d m ih =>
    obtain ⟨k, b⟩ := d
    obtain ⟨hk, hm⟩ := List.pairwise_cons.1 h
    unfold Memory.write
    split
    · next hlt =>
      refine List.pairwise_cons.2 ⟨fun c hc => ?_, h⟩
      rcases List.mem_cons.1 hc with rfl | hc
      · exact hlt
      · exact Nat.lt_trans hlt (hk c hc)
    · split
      · next heq => exact List.pairwise_cons.2 ⟨fun c hc => by simpa [heq] using hk c hc, hm⟩
      · next h1 h2 =>
        refine List.pairwise_cons.2 ⟨fun c hc => ?_, ih hm⟩
        rcases Memory.mem_write hc with rfl | hc
        · show k < a
          omega
        · exact hk c hc

/-- In canonical form, a listed cell is what its address reads as. -/
theorem Memory.read_of_mem {m : Memory} (h : Memory.wf m) {a : Nat} {v : Byte} (hm : (a, v) ∈ m) :
    m.read a = some v := by
  induction m with
  | nil => cases hm
  | cons d m ih =>
    obtain ⟨k, b⟩ := d
    obtain ⟨hk, hm'⟩ := List.pairwise_cons.1 h
    rcases List.mem_cons.1 hm with e | hmem
    · cases e
      simp [Memory.read]
    · have : k ≠ a := Nat.ne_of_lt (hk _ hmem)
      simp [Memory.read, this, ih hm' hmem]

/-- A byte that is read is a listed cell. -/
theorem Memory.mem_of_read {m : Memory} {a : Nat} {v : Byte} (h : m.read a = some v) : (a, v) ∈ m := by
  induction m with
  | nil => cases h
  | cons d m ih =>
    obtain ⟨k, b⟩ := d
    unfold Memory.read at h
    split at h
    · next e =>
      cases h
      simp [e]
    · exact List.mem_cons_of_mem _ (ih h)

/-- A write above every listed address goes to the end: what `append` does. -/
theorem Memory.write_above {m : Memory} {a : Nat} {v : Byte} (h : ∀ c ∈ m, c.1 < a) : m.write a v = m ++ [(a, v)] := by
  induction m with
  | nil => rfl
  | cons d m ih =>
    obtain ⟨k, b⟩ := d
    have hk : k < a := h (k, b) (by simp)
    have h1 : ¬ a < k := by omega
    have h2 : a ≠ k := by omega
    simp [Memory.write, h1, h2, ih (fun c hc => h c (List.mem_cons_of_mem _ hc))]

/-- `append` keeps the canonical form. -/
theorem Htc.append_wf {h : Htc} (v : Byte) (hw : Memory.wf h.omem) : Memory.wf (h.append v).omem :=
  Memory.wf_write _ _ hw

/-- The reset state's memory has the canonical form. -/
theorem Htc.reset_wf : Memory.wf Htc.reset.omem := List.Pairwise.nil

end Sys2Proof.Machine
end

