-- ==== Sys2Proof/Laws/State.lean ====
section
/-! SUPPORT. One lemma per field per update of State and Htc, so that no proof unfolds a record update. -/

namespace Sys2Proof.Machine

/-! ### A response -/

@[simp] theorem State.respond_cfg (s : State) (st : Status) (d : Data) : (s.respond st d).cfg = s.cfg := rfl
@[simp] theorem State.respond_htc (s : State) (st : Status) (d : Data) : (s.respond st d).htc = s.htc := rfl
@[simp] theorem State.respond_inputs (s : State) (st : Status) (d : Data) : (s.respond st d).inputs = s.inputs := rfl
@[simp] theorem State.respond_rsps (s : State) (st : Status) (d : Data) :
    (s.respond st d).rsps = s.rsps ++ [{ status := st, data := d }] := rfl

/-! ### Taking a fault (R203) -/

@[simp] theorem State.takeFault_cfg (s : State) (c : FaultCode) : (s.takeFault c).cfg = s.cfg := rfl
@[simp] theorem State.takeFault_inputs (s : State) (c : FaultCode) : (s.takeFault c).inputs = s.inputs := rfl
@[simp] theorem State.takeFault_rsps (s : State) (c : FaultCode) :
    (s.takeFault c).rsps = s.rsps ++ [{ status := .fault c, data := 0 }] := rfl
@[simp] theorem State.takeFault_htc (s : State) (c : FaultCode) :
    (s.takeFault c).htc = { s.htc with err := some c, phase := .fault } := rfl

/-! ### The refusal of phase FAULT (R204) -/

@[simp] theorem State.refuse_cfg (s : State) : s.refuse.cfg = s.cfg := rfl
@[simp] theorem State.refuse_htc (s : State) : s.refuse.htc = s.htc := rfl
@[simp] theorem State.refuse_inputs (s : State) : s.refuse.inputs = s.inputs := rfl
@[simp] theorem State.refuse_rsps (s : State) :
    s.refuse.rsps = s.rsps ++ [{ status := .faulted, data := 0 }] := rfl

/-! ### Hardware reset (R230) and the command port -/

@[simp] theorem State.hardwareReset_cfg (s : State) : s.hardwareReset.cfg = s.cfg := rfl
@[simp] theorem State.hardwareReset_htc (s : State) : s.hardwareReset.htc = Htc.reset := rfl
@[simp] theorem State.hardwareReset_inputs (s : State) : s.hardwareReset.inputs = s.inputs := rfl
@[simp] theorem State.hardwareReset_rsps (s : State) : s.hardwareReset.rsps = s.rsps := rfl
@[simp] theorem State.withCommand_htc (s : State) (w : CmdWord) : (s.withCommand w).htc = s.htc := rfl
@[simp] theorem State.withCommand_cfg (s : State) (w : CmdWord) : (s.withCommand w).cfg = s.cfg := rfl
@[simp] theorem State.withCommand_rsps (s : State) (w : CmdWord) : (s.withCommand w).rsps = s.rsps := rfl
@[simp] theorem State.withCommand_inputs (s : State) (w : CmdWord) :
    (s.withCommand w).inputs = .command w :: s.inputs := rfl

/-! ### append (R13) -/

@[simp] theorem Htc.append_omem (h : Htc) (v : Byte) : (h.append v).omem = h.omem.write h.olen.toNat v := rfl
@[simp] theorem Htc.append_olen (h : Htc) (v : Byte) : (h.append v).olen = h.olen + 1 := rfl
@[simp] theorem Htc.append_freq (h : Htc) (v : Byte) : (h.append v).freq = h.freq := rfl
@[simp] theorem Htc.append_node (h : Htc) (v : Byte) : (h.append v).node = h.node := rfl
@[simp] theorem Htc.append_rootv (h : Htc) (v : Byte) : (h.append v).rootv = h.rootv := rfl
@[simp] theorem Htc.append_root (h : Htc) (v : Byte) : (h.append v).root = h.root := rfl
@[simp] theorem Htc.append_nleaf (h : Htc) (v : Byte) : (h.append v).nleaf = h.nleaf := rfl
@[simp] theorem Htc.append_nint (h : Htc) (v : Byte) : (h.append v).nint = h.nint := rfl
@[simp] theorem Htc.append_code (h : Htc) (v : Byte) : (h.append v).code = h.code := rfl
@[simp] theorem Htc.append_acc (h : Htc) (v : Byte) : (h.append v).acc = h.acc := rfl
@[simp] theorem Htc.append_nbits (h : Htc) (v : Byte) : (h.append v).nbits = h.nbits := rfl
@[simp] theorem Htc.append_cur (h : Htc) (v : Byte) : (h.append v).cur = h.cur := rfl
@[simp] theorem Htc.append_phase (h : Htc) (v : Byte) : (h.append v).phase = h.phase := rfl
@[simp] theorem Htc.append_err (h : Htc) (v : Byte) : (h.append v).err = h.err := rfl

/-! ### The frequency table, the tree registers, the phase -/

@[simp] theorem Htc.setCount_freq (h : Htc) (sym : Byte) (c : Count) :
    (h.setCount sym c).freq = tableSet h.freq sym c := rfl
@[simp] theorem Htc.setCount_phase (h : Htc) (sym : Byte) (c : Count) : (h.setCount sym c).phase = h.phase := rfl
@[simp] theorem Htc.setCount_err (h : Htc) (sym : Byte) (c : Count) : (h.setCount sym c).err = h.err := rfl
@[simp] theorem Htc.setCount_code (h : Htc) (sym : Byte) (c : Count) : (h.setCount sym c).code = h.code := rfl
@[simp] theorem Htc.setCount_omem (h : Htc) (sym : Byte) (c : Count) : (h.setCount sym c).omem = h.omem := rfl
@[simp] theorem Htc.setCount_olen (h : Htc) (sym : Byte) (c : Count) : (h.setCount sym c).olen = h.olen := rfl
@[simp] theorem Htc.setTree_freq (h : Htc) (t : Tree) : (h.setTree t).freq = h.freq := rfl
@[simp] theorem Htc.setTree_node (h : Htc) (t : Tree) : (h.setTree t).node = t.node := rfl
@[simp] theorem Htc.setTree_rootv (h : Htc) (t : Tree) : (h.setTree t).rootv = t.rootv := rfl
@[simp] theorem Htc.setTree_root (h : Htc) (t : Tree) : (h.setTree t).root = t.root := rfl
@[simp] theorem Htc.setTree_nleaf (h : Htc) (t : Tree) : (h.setTree t).nleaf = t.nleaf := rfl
@[simp] theorem Htc.setTree_nint (h : Htc) (t : Tree) : (h.setTree t).nint = t.nint := rfl
@[simp] theorem Htc.setPhase_phase (h : Htc) (p : Phase) : (h.setPhase p).phase = p := rfl
@[simp] theorem Htc.setPhase_omem (h : Htc) (p : Phase) : (h.setPhase p).omem = h.omem := rfl
@[simp] theorem Htc.setPhase_olen (h : Htc) (p : Phase) : (h.setPhase p).olen = h.olen := rfl
@[simp] theorem Htc.setPhase_cur (h : Htc) (p : Phase) : (h.setPhase p).cur = h.cur := rfl

end Sys2Proof.Machine
end

