-- ==== Sys2Proof/Laws/Decoder.lean ====
section
/-! SUPPORT. What `drain()` and `step(b)` (45_decode.md R170) can do, and their frames. -/

namespace Sys2Proof.Machine

/-- One symbol emitted: the byte of CUR's leaf appended, CUR back at ROOT (R170). -/
abbrev Htc.emit (h : Htc) : Htc := { h.append (idxByte h.cur) with cur := h.root }

theorem drainLoop_idle {cfg : Config} {h : Htc} (fuel : Nat) (hi : (h.wanting && (h.nodeAt h.cur).leaf) = false) :
    drainLoop cfg fuel h = .ok h := by
  cases fuel with
  | zero => rfl
  | succ n => simp [drainLoop, hi]

theorem drainLoop_emit {cfg : Config} {h : Htc} (fuel : Nat) (hl : (h.wanting && (h.nodeAt h.cur).leaf) = true)
    (ho : h.olen ≠ cfg.outCap) : drainLoop cfg (fuel + 1) h = drainLoop cfg fuel h.emit := by
  rw [drainLoop, if_pos hl, if_neg ho]

theorem drainLoop_overflow {cfg : Config} {h : Htc} (fuel : Nat) (hl : (h.wanting && (h.nodeAt h.cur).leaf) = true)
    (ho : h.olen = cfg.outCap) : drainLoop cfg (fuel + 1) h = .error .overflow := by
  simp [drainLoop, hl, ho]

/-- What every state that `drain()` passes through keeps: the property is kept by each emission. -/
theorem drainLoop_induct {cfg : Config} {P : Htc → Prop} (keep : ∀ h, P h → h.olen ≠ cfg.outCap → P h.emit)
    {fuel : Nat} {h h' : Htc} (e : drainLoop cfg fuel h = .ok h') (hp : P h) : P h' := by
  induction fuel generalizing h with
  | zero => cases e; exact hp
  | succ n ih =>
    by_cases hl : (h.wanting && (h.nodeAt h.cur).leaf) = true
    · by_cases ho : h.olen = cfg.outCap
      · simp [drainLoop_overflow n hl ho] at e
      · rw [drainLoop_emit n hl ho] at e
        exact ih e (keep h hp ho)
    · rw [drainLoop_idle _ (by simpa using hl)] at e
      cases e
      exact hp

/-- The frame of `drain()`: only OMEM, OLEN and CUR can change. -/
theorem drainLoop_frame {cfg : Config} {fuel : Nat} {h h' : Htc} (e : drainLoop cfg fuel h = .ok h') :
    h' = { h with omem := h'.omem, olen := h'.olen, cur := h'.cur } := by
  refine drainLoop_induct (P := fun g => g = { h with omem := g.omem, olen := g.olen, cur := g.cur }) ?_ e rfl
  intro g hg _
  show ({ g.append (idxByte g.cur) with cur := g.root } : Htc) = _
  rw [hg]
  rfl

/-- The only fault of `drain()` is OVERFLOW. -/
theorem drainLoop_error {cfg : Config} {fuel : Nat} {h : Htc} {c : FaultCode}
    (e : drainLoop cfg fuel h = .error c) : c = .overflow := by
  induction fuel generalizing h with
  | zero => cases e
  | succ n ih =>
    by_cases hl : (h.wanting && (h.nodeAt h.cur).leaf) = true
    · by_cases ho : h.olen = cfg.outCap
      · rw [drainLoop_overflow n hl ho] at e
        cases e
        rfl
      · rw [drainLoop_emit n hl ho] at e
        exact ih e
    · rw [drainLoop_idle _ (by simpa using hl)] at e
      cases e

theorem walkBit_padding {cfg : Config} {h : Htc} (b : Bool) (hw : h.wanting = false) : walkBit cfg h b = .ok h := by
  simp [walkBit, hw]

theorem walkBit_descend {cfg : Config} {h : Htc} (b : Bool) (hw : h.wanting = true) :
    walkBit cfg h b = drain cfg { h with cur := if b then (h.nodeAt h.cur).right else (h.nodeAt h.cur).left } := by
  simp [walkBit, hw]

/-- The frame of `step(b)`. -/
theorem walkBit_frame {cfg : Config} {h h' : Htc} {b : Bool} (e : walkBit cfg h b = .ok h') :
    h' = { h with omem := h'.omem, olen := h'.olen, cur := h'.cur } := by
  by_cases hw : h.wanting = true
  · rw [walkBit_descend b hw] at e
    have := drainLoop_frame e
    rw [this]
  · rw [walkBit_padding b (by simpa using hw)] at e
    cases e
    rfl

@[simp] theorem walkBits_nil (cfg : Config) (h : Htc) : walkBits cfg h [] = .ok h := rfl

theorem walkBits_cons_ok {cfg : Config} {h g : Htc} {b : Bool} {bits : BitString} (e : walkBit cfg h b = .ok g) :
    walkBits cfg h (b :: bits) = walkBits cfg g bits := by
  simp [walkBits, e]

/-- Walking one string after another is walking their concatenation. -/
theorem walkBits_append (cfg : Config) (h : Htc) (xs ys : BitString) :
    walkBits cfg h (xs ++ ys) = (walkBits cfg h xs).bind (fun g => walkBits cfg g ys) := by
  induction xs generalizing h with
  | nil => rfl
  | cons b xs ih =>
    cases e : walkBit cfg h b with
    | ok g => simp [walkBits, e, ih]
    | error c => simp [walkBits, e, Except.bind]

/-- The frame of a string of bits. -/
theorem walkBits_frame {cfg : Config} {bits : BitString} {h h' : Htc} (e : walkBits cfg h bits = .ok h') :
    h' = { h with omem := h'.omem, olen := h'.olen, cur := h'.cur } := by
  induction bits generalizing h with
  | nil => cases e; rfl
  | cons b bits ih =>
    cases eb : walkBit cfg h b with
    | error c => simp [walkBits, eb] at e
    | ok g =>
      rw [walkBits_cons_ok eb] at e
      rw [ih e]
      conv_lhs => rw [walkBit_frame eb]

/-- Every bit after the last symbol is ignored (R172 (a)). -/
theorem walkBits_padding {cfg : Config} {h : Htc} (bits : BitString) (hw : h.wanting = false) :
    walkBits cfg h bits = .ok h := by
  induction bits with
  | nil => rfl
  | cons b bits ih => rw [walkBits_cons_ok (walkBit_padding b hw), ih]

end Sys2Proof.Machine
end

