-- ==== Sys2Proof/Laws/Ops.lean ====
section
/-! SUPPORT. What the shared wrapper of every command can do (60_exceptions.md R201 to R204), said once: `runCommand_cases`
and one equation per case. -/

namespace Sys2Proof.Machine

variable {i : Instr} {body : Config → Htc → CmdResult} {s : State}

theorem runCommand_refused (hp : permission i s.htc.phase = .refused) : runCommand i body s = .next s.refuse := by
  simp [runCommand, hp]

theorem runCommand_wrongPhase (hp : permission i s.htc.phase = .wrongPhase) :
    runCommand i body s = .next (s.takeFault .phase) := by
  simp [runCommand, hp]

theorem runCommand_done {h : Htc} {d : Data} (hp : permission i s.htc.phase = .executed)
    (hb : body s.cfg s.htc = .done h d) : runCommand i body s = .next ({ s with htc := h }.respond .ok d) := by
  simp [runCommand, hp, hb]

theorem runCommand_raise {c : FaultCode} (hp : permission i s.htc.phase = .executed)
    (hb : body s.cfg s.htc = .raise c) : runCommand i body s = .next (s.takeFault c) := by
  simp [runCommand, hp, hb]

theorem runCommand_stuck {r : Fault} (hp : permission i s.htc.phase = .executed)
    (hb : body s.cfg s.htc = .stuck r) : runCommand i body s = .fault r := by
  simp [runCommand, hp, hb]

/-- Everything a command can do when it answers a next state: it is refused (phase FAULT), raises PHASE, raises a fault
of its own, or completes with OK. -/
theorem runCommand_cases {t : State} (h : runCommand i body s = .next t) :
    (permission i s.htc.phase = .refused ∧ t = s.refuse) ∨
    (permission i s.htc.phase = .wrongPhase ∧ t = s.takeFault .phase) ∨
    (∃ c, permission i s.htc.phase = .executed ∧ body s.cfg s.htc = .raise c ∧ t = s.takeFault c) ∨
    (∃ g d, permission i s.htc.phase = .executed ∧ body s.cfg s.htc = .done g d ∧
      t = ({ s with htc := g }.respond .ok d)) := by
  unfold runCommand at h
  split at h
  · next hp => exact .inl ⟨hp, by cases h; rfl⟩
  · next hp => exact .inr (.inl ⟨hp, by cases h; rfl⟩)
  · next hp =>
    split at h
    · next g d hb => exact .inr (.inr (.inr ⟨g, d, hp, hb, by cases h; rfl⟩))
    · next c hb => exact .inr (.inr (.inl ⟨c, hp, hb, by cases h; rfl⟩))
    · cases h

/-- A command stops only where its pseudocode has no effect to give. -/
theorem runCommand_fault {r : Fault} (h : runCommand i body s = .fault r) :
    permission i s.htc.phase = .executed ∧ body s.cfg s.htc = .stuck r := by
  unfold runCommand at h
  split at h
  · cases h
  · cases h
  · next hp =>
    split at h
    · cases h
    · cases h
    · next r' hb =>
      cases h
      exact ⟨hp, hb⟩

/-- No command is refused by the model. -/
theorem runCommand_ne_refused (r : Refusal) : runCommand i body s ≠ .refused r := by
  unfold runCommand
  split
  · simp
  · simp
  · split <;> simp

@[simp] theorem CmdResult.ofExcept_ok (h : Htc) : CmdResult.ofExcept (.ok h) = .done h 0 := rfl
@[simp] theorem CmdResult.ofExcept_error (c : FaultCode) : CmdResult.ofExcept (.error c) = .raise c := rfl

theorem State.illegalWord_of_fault (h : s.htc.phase = .fault) : s.illegalWord = s.refuse := by
  simp [State.illegalWord, h]

theorem State.illegalWord_of_alive (h : s.htc.phase ≠ .fault) : s.illegalWord = s.takeFault .illegal := by
  simp [State.illegalWord, h]

/-- The table of R202 never refuses outside phase FAULT. -/
theorem permission_ne_refused (h : s.htc.phase ≠ .fault) : permission i s.htc.phase ≠ .refused := by
  cases i <;> simp [permission, onlyIn, anyButFault, h] <;> split <;> simp

end Sys2Proof.Machine
end

