-- ==== Sys2Proof/Laws/Exec.lean ====
section
/-! SUPPORT. Every command is the shared wrapper around its own effect: one equation for `exec`, from which a proof over
all commands starts. -/

namespace Sys2Proof.Machine

/-- The pseudocode of each command. -/
def effect : Instr → Config → Htc → CmdResult
  | .init => initEffect
  | .stat => statEffect
  | .fset sym count => fsetEffect sym count
  | .fcnt byte => fcntEffect byte
  | .fget sym => fgetEffect sym
  | .ftot => ftotEffect
  | .build => buildEffect
  | .nget idx => ngetEffect idx
  | .gen => genEffect
  | .clen sym => clenEffect sym
  | .cbit sym pos => cbitEffect sym pos
  | .pbit bit => pbitEffect bit
  | .enc byte => encEffect byte
  | .flush => flushEffect
  | .dbegin => dbeginEffect
  | .dec byte => decEffect byte
  | .dend => dendEffect
  | .olen => olenEffect
  | .ord addr => ordEffect addr

/-- A command is the wrapper around its effect. -/
theorem exec_eq (i : Instr) (s : State) : exec i s = runCommand i (effect i) s := by cases i <;> rfl

variable {i : Instr} {s : State}

theorem exec_refused (hp : permission i s.htc.phase = .refused) : exec i s = .next s.refuse := by
  rw [exec_eq, runCommand_refused hp]

theorem exec_wrongPhase (hp : permission i s.htc.phase = .wrongPhase) : exec i s = .next (s.takeFault .phase) := by
  rw [exec_eq, runCommand_wrongPhase hp]

theorem exec_done {h : Htc} {d : Data} (hp : permission i s.htc.phase = .executed)
    (he : effect i s.cfg s.htc = .done h d) : exec i s = .next ({ s with htc := h }.respond .ok d) := by
  rw [exec_eq, runCommand_done hp he]

theorem exec_raise {c : FaultCode} (hp : permission i s.htc.phase = .executed)
    (he : effect i s.cfg s.htc = .raise c) : exec i s = .next (s.takeFault c) := by
  rw [exec_eq, runCommand_raise hp he]

/-- Everything a command can do when it answers a next state. -/
theorem exec_cases {t : State} (h : exec i s = .next t) :
    (permission i s.htc.phase = .refused ∧ t = s.refuse) ∨
    (permission i s.htc.phase = .wrongPhase ∧ t = s.takeFault .phase) ∨
    (∃ c, permission i s.htc.phase = .executed ∧ effect i s.cfg s.htc = .raise c ∧ t = s.takeFault c) ∨
    (∃ g d, permission i s.htc.phase = .executed ∧ effect i s.cfg s.htc = .done g d ∧
      t = ({ s with htc := g }.respond .ok d)) :=
  runCommand_cases (by rw [← exec_eq]; exact h)

/-- No command is refused by the model. -/
theorem exec_ne_refused (r : Refusal) : exec i s ≠ .refused r := by
  rw [exec_eq]
  exact runCommand_ne_refused r

end Sys2Proof.Machine
end

