-- ==== Sys2Proof/Laws/Packer.lean ====
section
/-! SUPPORT. What `pushbit` (43_bitpacker.md R145) can do, case by case, and its frame. -/

namespace Sys2Proof.Machine

/-- ACC with a new bit below the bits already there (R145). -/
abbrev pushedAcc (h : Htc) (b : Bool) : Byte := h.acc ||| ((BitVec.ofBool b).setWidth 8 <<< (7 - h.nbits.toNat))

theorem pushBit_partial {cfg : Config} {h : Htc} (b : Bool) (hn : h.nbits ≠ 7) :
    pushBit cfg h b = .ok { h with acc := pushedAcc h b, nbits := h.nbits + 1 } := by
  unfold pushBit
  rw [if_neg hn]

theorem pushBit_full {cfg : Config} {h : Htc} (b : Bool) (hn : h.nbits = 7) (ho : h.olen ≠ cfg.outCap) :
    pushBit cfg h b = .ok { h.append (pushedAcc h b) with acc := 0, nbits := 0 } := by
  unfold pushBit
  rw [if_pos hn, if_neg ho]

theorem pushBit_overflow {cfg : Config} {h : Htc} (b : Bool) (hn : h.nbits = 7) (ho : h.olen = cfg.outCap) :
    pushBit cfg h b = .error .overflow := by
  simp [pushBit, hn, ho]

/-- Everything a successful `pushbit` can do: fill ACC, or complete a byte and append it. -/
theorem pushBit_cases {cfg : Config} {h h' : Htc} {b : Bool} (e : pushBit cfg h b = .ok h') :
    (h.nbits ≠ 7 ∧ h' = { h with acc := pushedAcc h b, nbits := h.nbits + 1 }) ∨
    (h.nbits = 7 ∧ h.olen ≠ cfg.outCap ∧ h' = { h.append (pushedAcc h b) with acc := 0, nbits := 0 }) := by
  by_cases hn : h.nbits = 7
  · by_cases ho : h.olen = cfg.outCap
    · simp [pushBit_overflow b hn ho] at e
    · rw [pushBit_full b hn ho] at e
      cases e
      exact .inr ⟨hn, ho, rfl⟩
  · rw [pushBit_partial b hn] at e
    cases e
    exact .inl ⟨hn, rfl⟩

/-- The only fault of `pushbit` is OVERFLOW (R145). -/
theorem pushBit_error {cfg : Config} {h : Htc} {b : Bool} {c : FaultCode} (e : pushBit cfg h b = .error c) :
    c = .overflow ∧ h.nbits = 7 ∧ h.olen = cfg.outCap := by
  by_cases hn : h.nbits = 7
  · by_cases ho : h.olen = cfg.outCap
    · rw [pushBit_overflow b hn ho] at e
      cases e
      exact ⟨rfl, hn, ho⟩
    · simp [pushBit_full b hn ho] at e
  · simp [pushBit_partial b hn] at e

/-- The frame of `pushbit`: only ACC, NBITS, OMEM and OLEN can change. -/
theorem pushBit_frame {cfg : Config} {h h' : Htc} {b : Bool} (e : pushBit cfg h b = .ok h') :
    h' = { h with acc := h'.acc, nbits := h'.nbits, omem := h'.omem, olen := h'.olen } := by
  rcases pushBit_cases e with ⟨_, rfl⟩ | ⟨_, _, rfl⟩ <;> rfl

@[simp] theorem pushBits_nil (cfg : Config) (h : Htc) : pushBits cfg h [] = .ok h := rfl

theorem pushBits_cons_ok {cfg : Config} {h g : Htc} {b : Bool} {bits : BitString} (e : pushBit cfg h b = .ok g) :
    pushBits cfg h (b :: bits) = pushBits cfg g bits := by
  simp [pushBits, e]

/-- Pushing one string after another is pushing their concatenation. -/
theorem pushBits_append (cfg : Config) (h : Htc) (xs ys : BitString) :
    pushBits cfg h (xs ++ ys) = (pushBits cfg h xs).bind (fun g => pushBits cfg g ys) := by
  induction xs generalizing h with
  | nil => rfl
  | cons b xs ih =>
    cases e : pushBit cfg h b with
    | ok g => simp [pushBits, e, ih]
    | error c => simp [pushBits, e, Except.bind]

/-- The frame of a string of bits. -/
theorem pushBits_frame {cfg : Config} {bits : BitString} {h h' : Htc} (e : pushBits cfg h bits = .ok h') :
    h' = { h with acc := h'.acc, nbits := h'.nbits, omem := h'.omem, olen := h'.olen } := by
  induction bits generalizing h with
  | nil => cases e; rfl
  | cons b bits ih =>
    cases eb : pushBit cfg h b with
    | error c => simp [pushBits, eb] at e
    | ok g =>
      rw [pushBits_cons_ok eb] at e
      rw [ih e]
      conv_lhs => rw [pushBit_frame eb]

/-- A string of bits keeps OMEM's canonical form. -/
theorem pushBits_wf {cfg : Config} {bits : BitString} {h h' : Htc} (e : pushBits cfg h bits = .ok h')
    (hw : Memory.wf h.omem) : Memory.wf h'.omem := by
  induction bits generalizing h with
  | nil => cases e; exact hw
  | cons b bits ih =>
    cases eb : pushBit cfg h b with
    | error c => simp [pushBits, eb] at e
    | ok g =>
      rw [pushBits_cons_ok eb] at e
      refine ih e ?_
      rcases pushBit_cases eb with ⟨_, rfl⟩ | ⟨_, _, rfl⟩
      · exact hw
      · exact Htc.append_wf _ hw

end Sys2Proof.Machine
end

