-- ==== Sys2Proof/Laws/Effect.lean ====
section
/-! SUPPORT. Everything each command can write when it completes (10_state.md R35), said once for all commands, and the phase it
then ran in (60_exceptions.md R202). -/

namespace Sys2Proof.Machine

variable {cfg : Config} {h g : Htc} {d : Data}

theorem ofExcept_done {r : Except FaultCode Htc} (e : CmdResult.ofExcept r = .done g d) : r = .ok g ∧ d = 0 := by
  cases r with
  | ok x => cases e; exact ⟨rfl, rfl⟩
  | error c => cases e

/-- The frame of every command that completes, and its DATA unless it is a read. -/
theorem effect_frame (i : Instr) (he : effect i cfg h = .done g d) :
    match i with
    | .init => g = Htc.reset ∧ d = 0
    | .stat | .fget _ | .ftot | .nget _ | .clen _ | .cbit _ _ | .olen | .ord _ => g = h
    | .fset _ _ | .fcnt _ => g = { h with freq := g.freq } ∧ d = 0
    | .build => g = { h with node := g.node, rootv := g.rootv, root := g.root, nleaf := g.nleaf, nint := g.nint,
                             phase := .tree } ∧ d = 0
    | .gen => g = { h with code := g.code, acc := 0, nbits := 0, phase := .encode } ∧ d = 0
    | .pbit _ | .enc _ => g = { h with acc := g.acc, nbits := g.nbits, omem := g.omem, olen := g.olen } ∧ d = 0
    | .flush => g = { h with acc := g.acc, nbits := g.nbits, omem := g.omem, olen := g.olen, phase := .done } ∧ d = 0
    | .dbegin => g = { h with omem := g.omem, olen := g.olen, cur := g.cur, phase := .decode } ∧ d = 0
    | .dec _ => g = { h with omem := g.omem, olen := g.olen, cur := g.cur } ∧ d = 0
    | .dend => g = { h with phase := .done } ∧ d = 0 := by
  cases i with
  | init => cases he; exact ⟨rfl, rfl⟩
  | stat => cases he; rfl
  | fget sym => cases he; rfl
  | ftot => cases he; rfl
  | clen sym => cases he; rfl
  | olen => cases he; rfl
  | nget idx => simp only [effect, ngetEffect] at he; split at he <;> cases he; rfl
  | cbit sym pos => simp only [effect, cbitEffect] at he; split at he <;> cases he; rfl
  | ord addr =>
    simp only [effect, ordEffect] at he
    split at he
    · cases he
    · split at he <;> cases he; rfl
  | fset sym count => cases he; exact ⟨rfl, rfl⟩
  | fcnt byte => simp only [effect, fcntEffect] at he; split at he <;> cases he; exact ⟨rfl, rfl⟩
  | build => cases he; exact ⟨rfl, rfl⟩
  | gen => simp only [effect, genEffect] at he; split at he <;> cases he; exact ⟨rfl, rfl⟩
  | pbit bit =>
    simp only [effect, pbitEffect] at he
    split at he
    · cases he
    · obtain ⟨hp, rfl⟩ := ofExcept_done he
      exact ⟨pushBit_frame hp, rfl⟩
  | enc byte =>
    simp only [effect, encEffect] at he
    split at he
    · cases he
    · split at he
      · cases he
      · obtain ⟨hp, rfl⟩ := ofExcept_done he
        exact ⟨pushBits_frame hp, rfl⟩
  | flush =>
    simp only [effect, flushEffect] at he
    split at he
    · cases he; exact ⟨rfl, rfl⟩
    · split at he <;> cases he; exact ⟨rfl, rfl⟩
  | dbegin =>
    simp only [effect, dbeginEffect] at he
    split at he
    · cases he
    · obtain ⟨hp, rfl⟩ := ofExcept_done he
      cases hd : drain cfg { h with cur := h.root } with
      | error c => rw [hd] at hp; cases hp
      | ok x =>
        rw [hd] at hp
        cases hp
        have hx := drainLoop_frame hd
        exact ⟨by conv_lhs => rw [hx]
                  rfl, rfl⟩
  | dec byte =>
    obtain ⟨hp, rfl⟩ := ofExcept_done he
    exact ⟨walkBits_frame hp, rfl⟩
  | dend => simp only [effect, dendEffect] at he; split at he <;> cases he; exact ⟨rfl, rfl⟩

theorem onlyIn_executed {p now : Phase} (h : onlyIn p now = .executed) : now = p := by
  cases p <;> cases now <;> first | rfl | cases h

/-- A command that is executed runs in a phase R202 marks `y`. -/
theorem phase_of_executed (i : Instr) {now : Phase} (hp : permission i now = .executed) :
    match i with
    | .init | .stat => True
    | .fset _ _ | .fcnt _ | .build => now = .load
    | .gen | .dbegin => now = .tree
    | .pbit _ | .enc _ | .flush => now = .encode
    | .dec _ | .dend => now = .decode
    | .fget _ | .ftot | .nget _ | .clen _ | .cbit _ _ | .olen | .ord _ => now ≠ .fault := by
  cases i <;> first
    | trivial
    | exact onlyIn_executed hp
    | (rintro rfl; cases hp)

end Sys2Proof.Machine
end

