-- ==== Sys2Proof/Laws/Encoding.lean ====
section
/-! SUPPORT. The fields of a command word (30_encoding.md R71) and the word of its fields. -/

namespace Sys2Proof

@[simp] theorem fieldOp_cmdWord (op a : BitVec 8) (b : BitVec 32) : fieldOp (cmdWord op a b) = op := by
  unfold fieldOp cmdWord
  rw [BitVec.extractLsb'_append_eq_of_le (by omega), BitVec.extractLsb'_append_eq_of_le (by omega)]
  exact BitVec.extractLsb'_eq_self

@[simp] theorem fieldA_cmdWord (op a : BitVec 8) (b : BitVec 32) : fieldA (cmdWord op a b) = a := by
  unfold fieldA cmdWord
  rw [BitVec.extractLsb'_append_eq_of_le (by omega), BitVec.extractLsb'_append_eq_of_add_le (by omega)]
  exact BitVec.extractLsb'_eq_self

@[simp] theorem fieldB_cmdWord (op a : BitVec 8) (b : BitVec 32) : fieldB (cmdWord op a b) = b := by
  unfold fieldB cmdWord
  rw [BitVec.extractLsb'_append_eq_of_add_le (by omega)]
  exact BitVec.extractLsb'_eq_self

/-- Every word is the word of its fields. -/
theorem cmdWord_fields (w : CmdWord) : cmdWord (fieldOp w) (fieldA w) (fieldB w) = w := by
  apply BitVec.eq_of_getLsbD_eq
  intro k hk
  simp only [cmdWord, fieldOp, fieldA, fieldB, BitVec.getLsbD_append, BitVec.getLsbD_extractLsb']
  by_cases h1 : k < 32
  · simp [h1]
  · by_cases h2 : k < 40
    · have : k - 32 < 8 := by omega
      have e : 32 + (k - 32) = k := by omega
      simp [h1, this, e]
    · have h3 : ¬ k - 32 < 8 := by omega
      have h4 : k - 32 - 8 < 8 := by omega
      have e : 40 + (k - 32 - 8) = k := by omega
      simp [h1, h3, h4, e]

/-- The decoder on a word given by its fields. -/
@[simp] theorem decode_cmdWord (op a : BitVec 8) (b : BitVec 32) : decode (cmdWord op a b) = decodeFields op a b := by
  simp [decode]

end Sys2Proof
end

