-- ==== Sys2Proof/Laws/Flags.lean ====
section
/-! SUPPORT. Fields put side by side as a sum of numbers (30_encoding.md R74, R75), and the entries of the phase table
(60_exceptions.md R202). -/

namespace Sys2Proof.Machine

/-- `a ++ b` as a number: a in the high bits (00_scope.md R11). -/
theorem toNat_append_add {m n : Nat} (a : BitVec m) (b : BitVec n) : (a ++ b).toNat = a.toNat * 2 ^ n + b.toNat := by
  rw [BitVec.toNat_append, ← Nat.shiftLeft_add_eq_or_of_lt b.isLt, Nat.shiftLeft_eq]

@[simp] theorem idxBits_toNat (i : NodeIdx) : (idxBits i).toNat = i.val := by
  have : i.val < 512 := by omega
  simp [idxBits, Nat.mod_eq_of_lt this]

@[simp] theorem onlyIn_same {p : Phase} (h : p ≠ .fault) : onlyIn p p = .executed := by simp [onlyIn, h]
@[simp] theorem onlyIn_fault (p : Phase) : onlyIn p .fault = .refused := rfl
theorem onlyIn_other {p now : Phase} (hf : now ≠ .fault) (hp : now ≠ p) : onlyIn p now = .wrongPhase := by
  simp [onlyIn, hf, hp]

@[simp] theorem anyButFault_fault : anyButFault .fault = .refused := rfl
theorem anyButFault_other {now : Phase} (h : now ≠ .fault) : anyButFault now = .executed := by simp [anyButFault, h]

end Sys2Proof.Machine
end

