-- ==== Sys2Proof/Laws/PerInstr.lean ====
section
/-! SUPPORT. Statements about every command as syntax, one lemma per constructor. WordOfRow: the word the encoder writes
selects the row of 30_encoding.md R77 that has the command's mnemonic. -/

namespace Sys2Proof

theorem cmdWord_and (op a m n : BitVec 8) (b k : BitVec 32) :
    cmdWord op a b &&& cmdWord m n k = cmdWord (op &&& m) (a &&& n) (b &&& k) := by
  unfold cmdWord
  rw [BitVec.and_append, BitVec.and_append]

/-- The encoded word of a command selects a row of R77 with the command's mnemonic. -/
def Laws.WordOfRow.Statement (i : Instr) : Prop :=
  ∃ r ∈ opRows, r.mnemonic = i.mnemonic ∧ r.selects (encode i) = true

namespace Laws.WordOfRow

theorem init : Statement .init := ⟨⟨"INIT", 0x010000000000#48, 0xFFFFFFFFFFFF#48⟩, by decide, rfl, by decide⟩
theorem stat : Statement .stat := ⟨⟨"STAT", 0x020000000000#48, 0xFFFFFFFFFFFF#48⟩, by decide, rfl, by decide⟩
theorem ftot : Statement .ftot := ⟨⟨"FTOT", 0x130000000000#48, 0xFFFFFFFFFFFF#48⟩, by decide, rfl, by decide⟩
theorem build : Statement .build := ⟨⟨"BUILD", 0x200000000000#48, 0xFFFFFFFFFFFF#48⟩, by decide, rfl, by decide⟩
theorem gen : Statement .gen := ⟨⟨"GEN", 0x300000000000#48, 0xFFFFFFFFFFFF#48⟩, by decide, rfl, by decide⟩
theorem flush : Statement .flush := ⟨⟨"FLUSH", 0x420000000000#48, 0xFFFFFFFFFFFF#48⟩, by decide, rfl, by decide⟩
theorem dbegin : Statement .dbegin := ⟨⟨"DBEGIN", 0x500000000000#48, 0xFFFFFFFFFFFF#48⟩, by decide, rfl, by decide⟩
theorem dend : Statement .dend := ⟨⟨"DEND", 0x520000000000#48, 0xFFFFFFFFFFFF#48⟩, by decide, rfl, by decide⟩
theorem olen : Statement .olen := ⟨⟨"OLEN", 0x600000000000#48, 0xFFFFFFFFFFFF#48⟩, by decide, rfl, by decide⟩

/-- A row of format S selects the word with its opcode, any A, and B = 0. -/
theorem selects_formatS (op a : BitVec 8) (name : String) :
    (OpRow.mk name (cmdWord op 0 0) (cmdWord 0xFF 0 0xFFFFFFFF)).selects (cmdWord op a 0) = true := by
  have h : op &&& 0xFF#8 = op := by simpa using BitVec.and_allOnes (x := op)
  simp [OpRow.selects, cmdWord_and, h]

/-- A row of format SB selects the word with its opcode, any A and any B. -/
theorem selects_formatSB (op a : BitVec 8) (b : BitVec 32) (name : String) :
    (OpRow.mk name (cmdWord op 0 0) (cmdWord 0xFF 0 0)).selects (cmdWord op a b) = true := by
  have h : op &&& 0xFF#8 = op := by simpa using BitVec.and_allOnes (x := op)
  simp [OpRow.selects, cmdWord_and, h]

/-- A row of format B selects the word with its opcode, A = 0, and any B. -/
theorem selects_formatB (op : BitVec 8) (b : BitVec 32) (name : String) :
    (OpRow.mk name (cmdWord op 0 0) (cmdWord 0xFF 0xFF 0)).selects (cmdWord op 0 b) = true := by
  have h : op &&& 0xFF#8 = op := by simpa using BitVec.and_allOnes (x := op)
  simp [OpRow.selects, cmdWord_and, h]

theorem fset (sym : Byte) (count : Count) : Statement (.fset sym count) :=
  ⟨⟨"FSET", cmdWord 0x10 0 0, cmdWord 0xFF 0 0⟩, by decide, rfl, selects_formatSB _ _ _ _⟩
theorem fcnt (byte : Byte) : Statement (.fcnt byte) :=
  ⟨⟨"FCNT", cmdWord 0x11 0 0, cmdWord 0xFF 0 0xFFFFFFFF⟩, by decide, rfl, selects_formatS _ _ _⟩
theorem fget (sym : Byte) : Statement (.fget sym) :=
  ⟨⟨"FGET", cmdWord 0x12 0 0, cmdWord 0xFF 0 0xFFFFFFFF⟩, by decide, rfl, selects_formatS _ _ _⟩
theorem nget (idx : BitVec 32) : Statement (.nget idx) :=
  ⟨⟨"NGET", cmdWord 0x21 0 0, cmdWord 0xFF 0xFF 0⟩, by decide, rfl, selects_formatB _ _ _⟩
theorem clen (sym : Byte) : Statement (.clen sym) :=
  ⟨⟨"CLEN", cmdWord 0x31 0 0, cmdWord 0xFF 0 0xFFFFFFFF⟩, by decide, rfl, selects_formatS _ _ _⟩
theorem cbit (sym : Byte) (pos : BitVec 32) : Statement (.cbit sym pos) :=
  ⟨⟨"CBIT", cmdWord 0x32 0 0, cmdWord 0xFF 0 0⟩, by decide, rfl, selects_formatSB _ _ _ _⟩
theorem pbit (bit : Bool) : Statement (.pbit bit) :=
  ⟨⟨"PBIT", 0x400000000000#48, 0xFFFEFFFFFFFF#48⟩, by decide, rfl, by cases bit <;> decide⟩
theorem enc (byte : Byte) : Statement (.enc byte) :=
  ⟨⟨"ENC", cmdWord 0x41 0 0, cmdWord 0xFF 0 0xFFFFFFFF⟩, by decide, rfl, selects_formatS _ _ _⟩
theorem dec (byte : Byte) : Statement (.dec byte) :=
  ⟨⟨"DEC", cmdWord 0x51 0 0, cmdWord 0xFF 0 0xFFFFFFFF⟩, by decide, rfl, selects_formatS _ _ _⟩
theorem ord (addr : Len) : Statement (.ord addr) :=
  ⟨⟨"ORD", cmdWord 0x61 0 0, cmdWord 0xFF 0xFF 0⟩, by decide, rfl, selects_formatB _ _ _⟩

end Laws.WordOfRow

end Sys2Proof
end

