-- ==== Sys2Proof/Laws/Step.lean ====
section
/-! SUPPORT. What a step is for each kind of input (30_encoding.md R76, R79). -/

namespace Sys2Proof.Machine

variable {s : State} {w : CmdWord} {rest : List HostInput} {i : Instr}

/-- A step takes the first input. -/
theorem step_input {x : HostInput} (h : s.inputs = x :: rest) : step s = presentInput x { s with inputs := rest } := by
  simp [step, h]

@[simp] theorem presentInput_command : presentInput (.command w) s = presentWord w s := rfl
@[simp] theorem presentInput_reset : presentInput .reset s = .next s.hardwareReset := rfl

theorem presentWord_legal (h : decode w = some i) : presentWord w s = exec i s := by simp [presentWord, h]
theorem presentWord_illegal (h : decode w = none) : presentWord w s = .next s.illegalWord := by simp [presentWord, h]

/-- What a step can be: idle, a reset, an illegal word, or a command. -/
theorem step_cases {t : State} (h : step s = .next t) :
    (s.inputs = [] ∧ t = s) ∨
    (∃ rest, s.inputs = .reset :: rest ∧ t = ({ s with inputs := rest } : State).hardwareReset) ∨
    (∃ w rest, s.inputs = .command w :: rest ∧ decode w = none ∧ t = ({ s with inputs := rest } : State).illegalWord) ∨
    (∃ w rest i, s.inputs = .command w :: rest ∧ decode w = some i ∧ exec i { s with inputs := rest } = .next t) := by
  cases hi : s.inputs with
  | nil =>
    rw [step, hi] at h
    cases h
    exact .inl ⟨rfl, rfl⟩
  | cons x rest =>
    rw [step_input hi] at h
    cases x with
    | reset =>
      cases h
      exact .inr (.inl ⟨rest, rfl, rfl⟩)
    | command w =>
      rw [presentInput_command] at h
      cases hd : decode w with
      | none =>
        rw [presentWord_illegal hd] at h
        cases h
        exact .inr (.inr (.inl ⟨w, rest, rfl, hd, rfl⟩))
      | some i =>
        rw [presentWord_legal hd] at h
        exact .inr (.inr (.inr ⟨w, rest, i, rfl, hd, h⟩))

end Sys2Proof.Machine
end

