-- ==== Sys2Proof/Laws/Safety.lean ====
section
/-! SUPPORT. The cases of a command in the words the statements use: `answered`, `faulted`, `turnedAway`, and who gets
them (60_exceptions.md R201 to R204). -/

namespace Sys2Proof.Machine

variable {s : State}

/-- The command completes with OK. -/
theorem exec_answered (i : Instr) {h : Htc} {d : Data} (hp : permission i s.htc.phase = .executed)
    (he : effect i s.cfg s.htc = .done h d) : exec i s = .next (s.answered h d) := exec_done hp he

/-- The command raises a fault of its own. -/
theorem exec_faulted (i : Instr) {c : FaultCode} (hp : permission i s.htc.phase = .executed)
    (he : effect i s.cfg s.htc = .raise c) : exec i s = .next (s.faulted c) := exec_raise hp he

theorem exec_turnedAway (i : Instr) (hp : permission i s.htc.phase = .refused) : exec i s = .next s.turnedAway :=
  exec_refused hp

/-- A command whose row of R202 has one `y`. -/
theorem needsPhase_of (i : Instr) (p : Phase) (hp : ∀ now, permission i now = onlyIn p now) : NeedsPhase i p := by
  intro s
  refine ⟨fun h => exec_refused (by rw [hp, h]; rfl), fun h1 h2 => exec_wrongPhase ?_⟩
  rw [hp, onlyIn_other h1 h2]

/-- A command of the last row of R202. -/
theorem needsLife_of (i : Instr) (hp : ∀ now, permission i now = anyButFault now) : NeedsLife i :=
  fun s h => exec_refused (by rw [hp, h]; rfl)

/-- A word that decodes to no command is answered as R79 says. -/
theorem illegalWord_of {w : CmdWord} (h : decode w = none) : IllegalWord w := by
  refine ⟨h, fun s rest hi => ⟨fun hp => ?_, fun hp => ?_⟩⟩
  · rw [step_input hi, presentInput_command, presentWord_illegal h, State.illegalWord, if_pos hp]
    rfl
  · rw [step_input hi, presentInput_command, presentWord_illegal h, State.illegalWord, if_neg hp]
    rfl

end Sys2Proof.Machine
end

