-- ==== Sys2Proof/Laws/Tree.lean ====
section
/-! SUPPORT. The key order (41_tree_builder.md R110), the search for the least key, the leaves BUILD starts from,
and the unfolding of the merge loop. -/

namespace Sys2Proof.Machine

variable {arena : Vector Node 511}

theorem keyLt_iff {i j : NodeIdx} : keyLt arena i j = true ↔
    (arenaGet arena i).f < (arenaGet arena j).f ∨ ((arenaGet arena i).f = (arenaGet arena j).f ∧ i < j) := by
  simp [keyLt]

theorem keyLt_irrefl (i : NodeIdx) : keyLt arena i i = false := by
  simp [keyLt, BitVec.lt_irrefl]

theorem keyLt_trans {i j k : NodeIdx} (h1 : keyLt arena i j = true) (h2 : keyLt arena j k = true) :
    keyLt arena i k = true := by
  rw [keyLt_iff] at *
  simp only [BitVec.lt_def, Fin.lt_def, ← BitVec.toNat_inj] at *
  omega

/-- Two different nodes never compare equal (R110). -/
theorem keyLt_total {i j : NodeIdx} (h : i ≠ j) : keyLt arena i j = true ∨ keyLt arena j i = true := by
  have hv : i.val ≠ j.val := fun e => h (Fin.ext e)
  simp only [keyLt_iff, BitVec.lt_def, Fin.lt_def, ← BitVec.toNat_inj]
  omega

/-- The least key is a member. -/
theorem minKey_mem (m : NodeIdx) (pq : List NodeIdx) : minKey arena m pq = m ∨ minKey arena m pq ∈ pq := by
  induction pq generalizing m with
  | nil => exact .inl rfl
  | cons i pq ih =>
    unfold minKey
    split
    · rcases ih i with h | h
      · exact .inr (by simp [h])
      · exact .inr (List.mem_cons_of_mem _ h)
    · rcases ih m with h | h
      · exact .inl h
      · exact .inr (List.mem_cons_of_mem _ h)

/-- No member has a lesser key. -/
theorem minKey_least (m : NodeIdx) (pq : List NodeIdx) :
    ∀ x, x = m ∨ x ∈ pq → keyLt arena x (minKey arena m pq) = false := by
  induction pq generalizing m with
  | nil =>
    intro x hx
    rcases hx with rfl | hx
    · exact keyLt_irrefl _
    · cases hx
  | cons i pq ih =>
    intro x hx
    unfold minKey
    split
    · next hlt =>
      rcases hx with rfl | hx
      · have hi := ih i i (.inl rfl)
        by_contra hc
        have := keyLt_trans hlt (by simpa using hc)
        simp [hi] at this
      · exact ih i x (by simpa using hx)
    · next hlt =>
      rcases hx with rfl | hx
      · exact ih x x (.inl rfl)
      · rcases List.mem_cons.1 hx with rfl | hx
        · have hm := ih m m (.inl rfl)
          by_cases hxm : x = m
          · subst hxm; exact hm
          · have hmx : keyLt arena m x = true := (keyLt_total hxm).resolve_left hlt
            by_contra hc
            have := keyLt_trans hmx (by simpa using hc)
            simp [hm] at this
        · exact ih m x (.inr hx)

@[simp] theorem extractMin_nil : extractMin arena [] = none := rfl

theorem extractMin_cons (i : NodeIdx) (pq : List NodeIdx) :
    extractMin arena (i :: pq) = some (minKey arena i pq, (i :: pq).erase (minKey arena i pq)) := rfl

/-- What `extract_min` answers: a member, and the queue without it. -/
theorem extractMin_some {pq rest : List NodeIdx} {m : NodeIdx} (h : extractMin arena pq = some (m, rest)) :
    m ∈ pq ∧ rest = pq.erase m ∧ ∀ x ∈ pq, keyLt arena x m = false := by
  cases pq with
  | nil => cases h
  | cons i pq =>
    rw [extractMin_cons] at h
    cases h
    refine ⟨?_, rfl, fun x hx => minKey_least i pq x (by simpa using hx)⟩
    rcases minKey_mem (arena := arena) i pq with h | h
    · simp [h]
    · exact List.mem_cons_of_mem _ h

/-- An entry of the arena before the merges. -/
theorem arenaGet_leafArena (freq : Vector Count 256) (i : NodeIdx) :
    arenaGet (leafArena freq) i = if hi : i.val < 256 then leafNode (freq[i.val]'hi) else Node.zero := by
  unfold arenaGet leafArena
  rw [Vector.getElem_mk, List.getElem_toArray, List.getElem_append]
  simp only [List.length_map, Vector.length_toList, List.getElem_map, Vector.getElem_toList, List.getElem_replicate]

theorem arenaGet_leafArena_leafIdx (freq : Vector Count 256) (b : Byte) :
    arenaGet (leafArena freq) (leafIdx b) = leafNode (tableGet freq b) := by
  rw [arenaGet_leafArena, dif_pos (show (leafIdx b).val < 256 from b.isLt)]
  rfl

theorem arenaGet_leafArena_high (freq : Vector Count 256) {i : NodeIdx} (h : 256 ≤ i.val) :
    arenaGet (leafArena freq) i = Node.zero := by
  rw [arenaGet_leafArena, dif_neg (by omega)]

/-- The present symbols are those with a count. -/
theorem mem_present {freq : Vector Count 256} {b : Byte} : b ∈ present freq ↔ tableGet freq b ≠ 0 := by
  unfold present
  simp only [List.mem_map, List.mem_filter, Prod.exists, bne_iff_ne]
  constructor
  · rintro ⟨c, k, ⟨hm, hc⟩, rfl⟩
    obtain ⟨hk, he⟩ := List.mem_zipIdx' hm
    have hk' : k < 256 := by rwa [Vector.length_toList] at hk
    rw [show c = freq[k] from he] at hc
    simpa [tableGet, Nat.mod_eq_of_lt hk'] using hc
  · intro h
    refine ⟨tableGet freq b, b.toNat, ⟨?_, h⟩, by simp⟩
    rw [List.mem_zipIdx_iff_getElem?]
    simp [tableGet]

/-- They stand in ascending order, so without repeats. -/
theorem present_pairwise (freq : Vector Count 256) : (present freq).Pairwise (fun a b => a.toNat < b.toNat) := by
  unfold present
  rw [List.pairwise_map]
  refine List.Pairwise.imp_of_mem ?_ (List.Pairwise.filter _ (R := fun p q => p.2 < q.2) ?_)
  · intro p q hp hq h
    have lt : ∀ r : Count × Nat, r ∈ freq.toList.zipIdx.filter (fun p => p.1 != 0) → r.2 < 256 := by
      intro r hr
      have := (List.mem_zipIdx' (List.mem_filter.1 hr).1).1
      rwa [Vector.length_toList] at this
    simpa [Nat.mod_eq_of_lt (lt p hp), Nat.mod_eq_of_lt (lt q hq)] using h
  · rw [List.pairwise_iff_getElem]
    intro i j hi hj hij
    simpa using hij

theorem present_nodup (freq : Vector Count 256) : (present freq).Nodup :=
  (present_pairwise freq).imp fun h e => by simp [e] at h

@[simp] theorem mergeLoop_zero (m : Merge) : mergeLoop 0 m = m := rfl

theorem mergeLoop_stop {m : Merge} (fuel : Nat) (h : mergeOnce m = none) : mergeLoop fuel m = m := by
  cases fuel with
  | zero => rfl
  | succ n => simp [mergeLoop, h]

theorem mergeLoop_next {m m' : Merge} (fuel : Nat) (h : mergeOnce m = some m') :
    mergeLoop (fuel + 1) m = mergeLoop fuel m' := by
  simp [mergeLoop, h]

/-- What every state of the merge loop keeps. -/
theorem mergeLoop_induct {P : Merge → Prop} (keep : ∀ m m', P m → mergeOnce m = some m' → P m') (fuel : Nat) (m : Merge)
    (hp : P m) : P (mergeLoop fuel m) := by
  induction fuel generalizing m with
  | zero => exact hp
  | succ n ih =>
    cases h : mergeOnce m with
    | none => rw [mergeLoop_stop _ h]; exact hp
    | some m' => rw [mergeLoop_next _ h]; exact ih m' (keep m m' hp h)

end Sys2Proof.Machine
end

