-- ==== Sys2Proof/Machine/Assembler.lean ====
section
/-! DEFINITION. The assembler syntax of 30_encoding.md R80 and the pseudo-commands of R81, on lists of characters: one line to
the commands it stands for, and a command word to its 12 hexadecimal digits. Spacing and the case of hexadecimal digits
are the model's reading (entry 13). -/

namespace Sys2Proof.Machine

/-- The pieces of a line: a mnemonic or number, a character in single quotes, a string in double quotes, a comma. -/
inductive Token where
  | word (cs : List Char)
  | char (c : Char)
  | str (cs : List Char)
  | comma
deriving DecidableEq, Repr

/-- What the reader of a line is inside of. Collected characters stand last first. -/
inductive Lexing where
  | between
  | inWord (cs : List Char)
  | inChar
  | closing (c : Char)
  | inStr (cs : List Char)
deriving DecidableEq, Repr

/-- A printable ASCII character (R80). -/
def printable (c : Char) : Bool := 32 ≤ c.toNat && c.toNat ≤ 126

/-- A space, a tab, or the end of a line. -/
def spacing (c : Char) : Bool := c = ' ' || c = '\t' || c = '\r' || c = '\n'

/-- The tokens of a line; a comment runs from `;` to its end (R80). `none` for an open quote or an unprintable character. -/
def lexLine : Lexing → List Char → Option (List Token)
  | .between, [] => some []
  | .inWord w, [] => some [.word w.reverse]
  | .inChar, [] | .closing _, [] | .inStr _, [] => none
  | .between, c :: cs =>
    if c = ';' then some []
    else if c = ',' then (lexLine .between cs).map (.comma :: ·)
    else if c = '\'' then lexLine .inChar cs
    else if c = '"' then lexLine (.inStr []) cs
    else if spacing c then lexLine .between cs
    else lexLine (.inWord [c]) cs
  | .inWord w, c :: cs =>
    if c = ';' then some [.word w.reverse]
    else if c = ',' then (lexLine .between cs).map ([.word w.reverse, .comma] ++ ·)
    else if c = '\'' || c = '"' then none
    else if spacing c then (lexLine .between cs).map (.word w.reverse :: ·)
    else lexLine (.inWord (c :: w)) cs
  | .inChar, c :: cs => if printable c then lexLine (.closing c) cs else none
  | .closing d, c :: cs => if c = '\'' then (lexLine .between cs).map (.char d :: ·) else none
  | .inStr w, c :: cs =>
    if c = '"' then (lexLine .between cs).map (.str w.reverse :: ·)
    else if printable c then lexLine (.inStr (c :: w)) cs
    else none

/-- The value of a digit, 16 for a character that is none. -/
def digitValue (c : Char) : Nat :=
  if '0' ≤ c && c ≤ '9' then c.toNat - '0'.toNat
  else if 'A' ≤ c && c ≤ 'F' then c.toNat - 'A'.toNat + 10
  else if 'a' ≤ c && c ≤ 'f' then c.toNat - 'a'.toNat + 10
  else 16

/-- A number in a base from its digits, the first the highest. -/
def digits (base : Nat) : Nat → List Char → Option Nat
  | n, [] => some n
  | n, c :: cs => if digitValue c < base then digits base (base * n + digitValue c) cs else none

/-- A decimal number or a hexadecimal number `0x..` (R80). -/
def number : List Char → Option Nat
  | [] => none
  | ['0', 'x'] => none
  | '0' :: 'x' :: cs => digits 16 0 cs
  | cs => digits 10 0 cs

/-- A number that fits its field. -/
def numberBelow (bound : Nat) (cs : List Char) : Option Nat :=
  (number cs).filter (· < bound)

/-- An operand `sym` or `byte`: a number, or a character standing for its byte value (R80). -/
def byteOperand : Token → Option Byte
  | .word cs => (numberBelow (2 ^ 8) cs).map (BitVec.ofNat 8)
  | .char c => some (BitVec.ofNat 8 c.toNat)
  | _ => none

/-- An operand `count`, `idx`, `pos` or `addr`. -/
def wordOperand : Token → Option (BitVec 32)
  | .word cs => (numberBelow (2 ^ 32) cs).map (BitVec.ofNat 32)
  | _ => none

/-- The operand `bit`. -/
def bitOperand : Token → Option Bool
  | .word cs => (numberBelow 2 cs).map (· = 1)
  | _ => none

/-- The byte list of a pseudo-command: operands one after the other (R81). -/
def byteList (ts : List Token) : Option (List Byte) := ts.mapM byteOperand

/-- The byte list of FCNTS and ENCS, which may be one double-quoted ASCII string (R81). -/
def byteListOrString : List Token → Option (List Byte)
  | [.str cs] => some (cs.map fun c => BitVec.ofNat 8 c.toNat)
  | ts => byteList ts

/-- The bit string of PBITS (R81). -/
def bitString : List Token → Option BitString
  | [.str cs] => cs.mapM fun c => if c = '0' then some false else if c = '1' then some true else none
  | _ => none

/-- A mnemonic with no operand. -/
def asmZ (i : Instr) : List Token → Option (List Instr)
  | [] => some [i]
  | _ => none
/-- A mnemonic with one byte operand. -/
def asmS (f : Byte → Instr) : List Token → Option (List Instr)
  | [t] => (byteOperand t).map fun b => [f b]
  | _ => none
/-- A mnemonic with a byte operand and a 32-bit operand, separated by a comma. -/
def asmSB (f : Byte → BitVec 32 → Instr) : List Token → Option (List Instr)
  | [t, .comma, u] => (byteOperand t).bind fun a => (wordOperand u).map fun b => [f a b]
  | _ => none
/-- A mnemonic with one 32-bit operand. -/
def asmB (f : BitVec 32 → Instr) : List Token → Option (List Instr)
  | [t] => (wordOperand t).map fun b => [f b]
  | _ => none
/-- A mnemonic with one bit operand. -/
def asmT (f : Bool → Instr) : List Token → Option (List Instr)
  | [t] => (bitOperand t).map fun b => [f b]
  | _ => none

/-- The commands a mnemonic and its operands stand for: R77's mnemonics, then R81's pseudo-commands. -/
def assemble (m : List Char) (ts : List Token) : Option (List Instr) :=
  if m = "INIT".toList then asmZ .init ts
  else if m = "STAT".toList then asmZ .stat ts
  else if m = "FSET".toList then asmSB .fset ts
  else if m = "FCNT".toList then asmS .fcnt ts
  else if m = "FGET".toList then asmS .fget ts
  else if m = "FTOT".toList then asmZ .ftot ts
  else if m = "BUILD".toList then asmZ .build ts
  else if m = "NGET".toList then asmB .nget ts
  else if m = "GEN".toList then asmZ .gen ts
  else if m = "CLEN".toList then asmS .clen ts
  else if m = "CBIT".toList then asmSB .cbit ts
  else if m = "PBIT".toList then asmT .pbit ts
  else if m = "ENC".toList then asmS .enc ts
  else if m = "FLUSH".toList then asmZ .flush ts
  else if m = "DBEGIN".toList then asmZ .dbegin ts
  else if m = "DEC".toList then asmS .dec ts
  else if m = "DEND".toList then asmZ .dend ts
  else if m = "OLEN".toList then asmZ .olen ts
  else if m = "ORD".toList then asmB .ord ts
  else if m = "FCNTS".toList then (byteListOrString ts).map fcnts
  else if m = "ENCS".toList then (byteListOrString ts).map encs
  else if m = "DECS".toList then (byteList ts).map decs
  else if m = "PBITS".toList then (bitString ts).map pbits
  else none

/-- One line of assembler: one command, one pseudo-command, or nothing (R80). `none` for a line that is neither. -/
def assembleLine (line : List Char) : Option (List Instr) :=
  match lexLine .between line with
  | some [] => some []
  | some (.word m :: ts) => assemble m ts
  | _ => none

/-- A hexadecimal digit. -/
def hexDigit (n : Nat) : Char := if n < 10 then Char.ofNat ('0'.toNat + n) else Char.ofNat ('A'.toNat + (n - 10))

/-- A command word as 12 hexadecimal digits, OP first (R80). -/
def hexWord (w : CmdWord) : List Char :=
  (List.range 12).map fun k => hexDigit (w.extractLsb' (4 * (11 - k)) 4).toNat

end Sys2Proof.Machine
end

