-- ==== Sys2Proof/Tests/Slice0.lean ====
section
/-! SUPPORT. Small tests, each on one word or one step, with results from 95_test_vectors.md or from hand calculation by the
rules; and, for every statement with hypotheses, states and operands that meet them. -/

namespace Sys2Proof.Tests
open Sys2Proof Sys2Proof.Machine

-- Many theorems here wait for the kernel; checked one after another they do not each hold a thread.
set_option Elab.async false

/-! ### Small states -/

/-- A frequency table from its non-zero counts. -/
def table (l : List (Byte × Count)) : Vector Count 256 :=
  l.foldl (fun t p => tableSet t p.1 p.2) (Vector.replicate 256 0)

/-- The table of "aaab". -/
def ab : Vector Count 256 := table [(0x61, 3), (0x62, 1)]
/-- Phase LOAD with a table. -/
def loading (cap : Len) (freq : Vector Count 256) : State :=
  let s := State.resetWith ⟨cap⟩
  { s with htc := { s.htc with freq := freq } }

/-- Phase TREE with the empty tree (R114). -/
def builtEmpty (cap : Len) : State :=
  let s := State.resetWith ⟨cap⟩
  { s with htc := { s.htc with phase := .tree } }

/-- A leaf (R22). -/
def leaf (f : Total) : Node := { v := true, leaf := true, f := f, left := 0, right := 0 }

/-- Phase TREE for "aaab": 256(4; 98, 97), as section 2.3 gives it. -/
def builtAb (cap : Len) : State :=
  let s := loading cap ab
  { s with htc := { s.htc with
      node := arenaSet (arenaSet (arenaSet s.htc.node 97 (leaf 3)) 98 (leaf 1)) 256
        { v := true, leaf := false, f := 4, left := 98, right := 97 }
      rootv := true, root := 256, nleaf := 2, nint := 1, phase := .tree } }

/-- Phase TREE for n copies of 'A': the leaf is the root (R113). -/
def builtA (cap : Len) (n : Count) : State :=
  let s := loading cap (table [(0x41, n)])
  { s with htc := { s.htc with
      node := arenaSet s.htc.node 0x41 (leaf (n.setWidth 40)), rootv := true, root := 0x41, nleaf := 1, phase := .tree } }

/-- Phase ENCODE for "aaab": b = "0", a = "1", as section 2.4 gives it. -/
def encodingAb (cap : Len) : State :=
  let s := builtAb cap
  { s with htc := { s.htc with
      code := tableSet (tableSet emptyBook 0x62 (codeOfPath [false])) 0x61 (codeOfPath [true]), phase := .encode } }

/-- Phase ENCODE for copies of 'A': the empty code. -/
def encodingA (cap : Len) : State :=
  let s := builtA cap 1
  { s with htc := { s.htc with code := tableSet emptyBook 0x41 (codeOfPath []), phase := .encode } }

/-- Phase ENCODE over the empty table, with a partial byte. -/
def packing (cap : Len) (acc : Byte) (nbits : BitVec 3) : State :=
  let s := builtEmpty cap
  { s with htc := { s.htc with acc := acc, nbits := nbits, phase := .encode } }

/-- A session after DBEGIN, nothing written. -/
def decoding (s : State) : State :=
  { s with htc := { s.htc with cur := s.htc.root, phase := .decode } }

/-- The session of one 'A' after DBEGIN: one byte written. -/
def oneOut : State :=
  let s := decoding (builtA 1 1)
  { s with htc := { s.htc with omem := [(0, 0x41)], olen := 1 } }

/-- Phase FAULT with a latched code. -/
def faulty (c : FaultCode) : State :=
  let s := loading 16 ab
  { s with htc := { s.htc with phase := .fault, err := some c } }

/-- The state with a next input. -/
def given (s : State) (w : CmdWord) : State := s.withCommand w

/-- STATUS and DATA of the last response. -/
def reply : Host.Outcome State Fault Refusal → Option (BitVec 8 × Data)
  | .next t => t.rsps.getLast?.map fun r => (r.status.bits, r.data)
  | _ => none

/-- A part of HTC after a step. -/
def after {α : Type} (f : Htc → α) : Host.Outcome State Fault Refusal → Option α
  | .next t => some (f t.htc)
  | _ => none

/-! ### Words (95_test_vectors.md section 2.1) -/

theorem test_decode_control :
    decode 0x010000000000#48 = some .init ∧ decode 0x020000000000#48 = some .stat ∧
    decode 0x600000000000#48 = some .olen ∧ decode 0x610000000003#48 = some (.ord 3) := by decide

theorem test_decode_frequency :
    decode 0x106100000003#48 = some (.fset 0x61 3) ∧ decode 0x10FFFFFFFFFF#48 = some (.fset 255 0xFFFFFFFF) ∧
    decode 0x116100000000#48 = some (.fcnt 0x61) ∧ decode 0x126100000000#48 = some (.fget 0x61) ∧
    decode 0x130000000000#48 = some .ftot := by decide

theorem test_decode_tree :
    decode 0x200000000000#48 = some .build ∧ decode 0x210000000100#48 = some (.nget 256) ∧
    decode 0x2100000001FE#48 = some (.nget 510) := by decide

theorem test_decode_codebook :
    decode 0x300000000000#48 = some .gen ∧ decode 0x316100000000#48 = some (.clen 0x61) ∧
    decode 0x326100000002#48 = some (.cbit 0x61 2) := by decide

theorem test_decode_packer :
    decode 0x400100000000#48 = some (.pbit true) ∧ decode 0x400000000000#48 = some (.pbit false) ∧
    decode 0x416100000000#48 = some (.enc 0x61) ∧ decode 0x420000000000#48 = some .flush := by decide

theorem test_decode_decoder :
    decode 0x500000000000#48 = some .dbegin ∧ decode 0x51E000000000#48 = some (.dec 0xE0) ∧
    decode 0x520000000000#48 = some .dend := by decide

/-- The same words the other way round. -/
theorem test_encode :
    encode (.fset 0x61 3) = 0x106100000003#48 ∧ encode (.nget 510) = 0x2100000001FE#48 ∧
    encode (.pbit true) = 0x400100000000#48 ∧ encode (.dec 0xE0) = 0x51E000000000#48 := by decide

/-- The table's bit 0 is the word's bit 0 (R77). -/
theorem test_table_word : decodeTableWord 48 0x210000000100 = some (.nget 256) := by decide

/-! ### Illegal words: the checks of WellFormed, and the decoder with them (section 2.1) -/

theorem test_illegal_unassigned_op :
    (legalWord 0x000000000000#48 = false ∧ decode 0x000000000000#48 = none) ∧
    (legalWord 0xFFFFFFFFFFFF#48 = false ∧ decode 0xFFFFFFFFFFFF#48 = none) ∧
    [0x03#8, 0x14, 0x22, 0x33, 0x43, 0x53, 0x62].all (fun op =>
      !legalWord (cmdWord op 0 0) && decode (cmdWord op 0 0) == none) = true := by decide

theorem test_illegal_format_z_a : legalWord 0x200100000000#48 = false ∧ decode 0x200100000000#48 = none := by decide
theorem test_illegal_format_z_b : legalWord 0x010000000001#48 = false ∧ decode 0x010000000001#48 = none := by decide
theorem test_illegal_format_s_b : legalWord 0x120000000001#48 = false ∧ decode 0x120000000001#48 = none := by decide
theorem test_illegal_format_b_a : legalWord 0x210100000000#48 = false ∧ decode 0x210100000000#48 = none := by decide
theorem test_illegal_format_t_a : legalWord 0x400200000000#48 = false ∧ decode 0x400200000000#48 = none := by decide
theorem test_illegal_format_t_b : legalWord 0x400100000001#48 = false ∧ decode 0x400100000001#48 = none := by decide
theorem test_legal_word : legalWord 0x417A00000000#48 = true ∧ (Instr.enc 0x7A).wellFormed = true := by decide

/-! ### Control and output (section 2.8) -/

theorem test_init_from_fault : after id (exec .init (faulty .trunc)) = some Htc.reset := by rfl
/-- OK 0000000000000047: PHASE 7, ERR 4. -/
theorem test_stat_in_fault : reply (exec .stat (faulty .freqOvf)) = some (0x00, 0x47) := by decide +kernel
/-- Section 2.7: the STAT of a:3 b:1 after DBEGIN. -/
theorem test_stat_decode : reply (exec .stat (decoding (builtAb 16))) = some (0x00, 0x00400000080B0003) := by decide +kernel
theorem test_olen : reply (exec .olen oneOut) = some (0x00, 1) := by decide +kernel
theorem test_ord : reply (exec (.ord 0) oneOut) = some (0x00, 0x41) := by decide +kernel
theorem test_ord_range : reply (exec (.ord 1) oneOut) = some (0x03, 0) := by decide +kernel

/-! ### Frequency table (section 2.2) -/

theorem test_fset : after (·.count 0x61) (exec (.fset 0x61 2) (loading 16 ab)) = some 2 := by decide +kernel
theorem test_fset_frozen : reply (exec (.fset 0x61 2) (builtAb 16)) = some (0x02, 0) := by decide +kernel
theorem test_fcnt : after (·.count 0x61) (exec (.fcnt 0x61) (loading 16 (table [(0x61, 0xFFFFFFFE)]))) =
    some 0xFFFFFFFF := by decide +kernel
theorem test_fcnt_overflow : reply (exec (.fcnt 0x61) (loading 16 (table [(0x61, 0xFFFFFFFF)]))) = some (0x04, 0) := by
  decide +kernel
theorem test_fget : reply (exec (.fget 0x61) (loading 16 ab)) = some (0x00, 3) := by decide +kernel
theorem test_ftot : reply (exec .ftot (loading 16 ab)) = some (0x00, 4) := by decide +kernel
/-- The largest total, 2^40 - 256. -/
theorem test_ftot_largest : reply (exec .ftot (loading 16 (Vector.replicate 256 0xFFFFFFFF))) =
    some (0x00, 0xFFFFFFFF00) := by decide +kernel

/-! ### Tree builder (section 2.3) -/

/-- c:1 d:1 b:2 r:2 a:5: 258(6; 256, 257), ROOT 259. -/
theorem test_build : after (fun h => (h.nodeAt 258, h.root, h.nint))
    (exec .build (loading 16 (table [(0x61, 5), (0x62, 2), (0x63, 1), (0x64, 1), (0x72, 2)]))) =
    some ({ v := true, leaf := false, f := 6, left := 256, right := 257 }, 259, 4) := by decide +kernel
/-- a:1 b:1 c:2: leaf c before internal node 256 of the same frequency. -/
theorem test_build_tie : after (fun h => h.nodeAt 257) (exec .build (loading 16 (table [(0x61, 1), (0x62, 1), (0x63, 2)]))) =
    some { v := true, leaf := false, f := 4, left := 99, right := 256 } := by decide +kernel
theorem test_nget : reply (exec (.nget 256) (builtAb 16)) = some (0x00, 0x08C2620000000004) := by decide +kernel
theorem test_nget_range : reply (exec (.nget 511) (builtAb 16)) = some (0x03, 0) := by decide +kernel

/-! ### CodeBook (section 2.4) -/

/-- a:3 b:1: b = "0", a = "1", c has no code. -/
theorem test_gen : after (fun h => ((h.codeOf 0x62).string, (h.codeOf 0x61).string, (h.codeOf 0x63).cv))
    (exec .gen (builtAb 16)) = some ([false], [true], false) := by decide +kernel
/-- One symbol: the empty code, CV = 1. -/
theorem test_gen_one_symbol : after (fun h => ((h.codeOf 0x41).cv, (h.codeOf 0x41).string)) (exec .gen (builtA 16 1)) =
    some (true, []) := by decide +kernel
theorem test_clen : reply (exec (.clen 0x41) (encodingA 16)) = some (0x00, 0x100) := by decide +kernel
theorem test_cbit : reply (exec (.cbit 0x61 0) (encodingAb 16)) = some (0x00, 1) := by decide +kernel
theorem test_cbit_range : reply (exec (.cbit 0x61 1) (encodingAb 16)) = some (0x03, 0) := by decide +kernel

/-! ### Packer and encode (sections 2.5 and 2.6) -/

theorem test_pack : pack [[true, false, true, true, false]] = [0xB0] ∧
    pack [[true, false, true, false, false, true, false, true], [true]] = [0xA5, 0x80] ∧ pack [[], []] = [] := by decide
theorem test_unpack : unpack [0xE0] = [true, true, true, false, false, false, false, false] := by decide
/-- The eighth bit of A5 appends the byte. -/
theorem test_pbit_eighth : after (fun h => (h.omem, h.acc, h.nbits)) (exec (.pbit true) (packing 16 0xA4 7)) =
    some ([(0, 0xA5)], 0, 0) := by decide +kernel
/-- OUT_CAP = 0, the eighth bit: STAT afterwards has ACC FE, NBITS 7. -/
theorem test_pbit_overflow : after (fun h => (h.acc, h.nbits, h.err)) (exec (.pbit true) (packing 0 0xFE 7)) =
    some (0xFE, 7, some .overflow) := by decide +kernel
theorem test_flush : after (fun h => (h.omem, h.nbits, h.phase)) (exec .flush (packing 16 0xB0 5)) =
    some ([(0, 0xB0)], 0, .done) := by decide +kernel
theorem test_flush_whole : after (fun h => (h.olen, h.phase)) (exec .flush (packing 0 0 0)) = some (0, .done) := by
  decide +kernel
theorem test_enc : after (fun h => (h.acc, h.nbits)) (exec (.enc 0x61) (encodingAb 16)) = some (0x80, 1) := by
  decide +kernel
theorem test_enc_no_code : reply (exec (.enc 0x63) (encodingAb 0)) = some (0x05, 0) := by decide +kernel

/-! ### Decode (section 2.7) -/

theorem test_dbegin_one_symbol : after (fun h => (h.omem, h.cur, h.phase)) (exec .dbegin (builtA 16 2)) =
    some ([(0, 0x41), (1, 0x41)], 0x41, .decode) := by decide +kernel
theorem test_dbegin_overflow : reply (exec .dbegin (builtA 4 5)) = some (0x06, 0) := by decide +kernel
theorem test_dec : after (fun h => (h.omem, h.cur)) (exec (.dec 0xEF) (decoding (builtAb 16))) =
    some ([(0, 0x61), (1, 0x61), (2, 0x61), (3, 0x62)], 256) := by decide +kernel
/-- OUT_CAP = 3: the whole DEC has no effect. -/
theorem test_dec_overflow : after (fun h => (h.omem, h.cur, h.err)) (exec (.dec 0xE0) (decoding (builtAb 3))) =
    some ([], 256, some .overflow) := by decide +kernel
theorem test_dend_trunc : reply (exec .dend (decoding (builtAb 16))) = some (0x07, 0) := by decide +kernel
theorem test_dend : after (·.phase) (exec .dend oneOut) = some .done := by decide +kernel

/-! ### The step, and the order of checks (60_exceptions.md R201; section 2.8) -/

/-- ENC with B = 1 in phase TREE is ILLEGAL, not PHASE. -/
theorem test_order_illegal_first : reply (step (given (builtAb 16) 0x417A00000001)) = some (0x01, 0) := by decide +kernel
/-- ENC 'c' in phase TREE is PHASE, not NOCODE. -/
theorem test_order_phase_first : reply (step (given (builtAb 16) 0x416300000000)) = some (0x02, 0) := by decide +kernel
/-- In FAULT an ill-formed INIT is FAULTED. -/
theorem test_order_faulted_first : reply (step (given (faulty .trunc) 0x010000000001)) = some (0x08, 0) := by decide +kernel
/-- The host's word runs as the first command after reset, whatever OUT_CAP is. -/
theorem test_with_fetch_word : reply (step (State.reset.withFetchWord 48 0x130000000000)) = some (0x00, 0) := by
  decide +kernel

/-! ### Assembler (30_encoding.md R80, R81) -/

theorem test_assemble_char : assembleLine "FSET 'a', 3 ; count".toList = some [.fset 0x61 3] := by decide +kernel
theorem test_assemble_hex : assembleLine "DEC 0xE0".toList = some [.dec 0xE0] := by decide +kernel
theorem test_assemble_string : assembleLine "FCNTS \"ab\"".toList = some [.fcnt 0x61, .fcnt 0x62] := by decide +kernel
theorem test_assemble_bits : assembleLine "PBITS \"10\"".toList = some [.pbit true, .pbit false] := by decide +kernel
theorem test_assemble_comment : assembleLine "; nothing".toList = some [] := by decide +kernel
theorem test_hex_word : hexWord (encode (.nget 510)) = "2100000001FE".toList := by decide +kernel

/-! ### States with the invariants of R38, for the witnesses below -/

/-- The invariants of a session that has written nothing and whose packer is empty. -/
theorem inv_of_nothing_written {s : State} (hacc : s.htc.acc = 0) (hm : s.htc.omem = []) (ho : s.htc.olen = 0)
    (hp : s.htc.phase ≠ .fault) (he : s.htc.err = none) (hs : s.htc.Session s.htc.phase) : s.Inv := by
  refine ⟨fun k _ => by simp [hacc], ⟨by simp [hm], fun a => by simp [hm, ho], by simp [ho, BitVec.le_def]⟩, ?_⟩
  rw [if_neg hp]
  exact ⟨he, hs⟩

/-- `reset` of every configuration. -/
theorem inv_reset (c : Config) : (State.resetWith c).Inv :=
  inv_of_nothing_written rfl rfl rfl nofun rfl ⟨rfl, rfl, ⟨rfl, rfl⟩, rfl, rfl⟩

/-- A tree as lists and numbers. -/
def treeParts (t : Tree) : List Node × Bool × NodeIdx × BitVec 9 × BitVec 8 :=
  (t.node.toList, t.rootv, t.root, t.nleaf, t.nint)

theorem treeParts_inj {t u : Tree} (h : treeParts t = treeParts u) : t = u := by
  cases t; cases u
  simp only [treeParts, Prod.mk.injEq, Vector.toList_inj] at h
  obtain ⟨rfl, rfl, rfl, rfl, rfl⟩ := h
  rfl

theorem tree_ab : (builtAb 4).htc.tree = buildTree ab := treeParts_inj (by decide +kernel)
theorem tree_a : (builtA 1 1).htc.tree = buildTree (table [(0x41, 1)]) := treeParts_inj (by decide +kernel)

theorem inv_builtAb (cap : Len) : (builtAb cap).Inv :=
  inv_of_nothing_written rfl rfl rfl nofun rfl ⟨tree_ab, rfl, ⟨rfl, rfl⟩, rfl, rfl⟩

theorem codes_ab : genBook (builtAb 4).htc.node true 256 = .ok (encodingAb 4).htc.code := by rfl

theorem inv_encodingAb (cap : Len) : (encodingAb cap).Inv :=
  inv_of_nothing_written rfl rfl rfl nofun rfl ⟨tree_ab, codes_ab, rfl⟩

theorem total_ab : total ab = 4 := by decide +kernel

theorem inv_decodingAb (cap : Len) : (decoding (builtAb cap)).Inv := by
  refine inv_of_nothing_written rfl rfl rfl nofun rfl ⟨tree_ab, rfl, ⟨rfl, rfl⟩, ?_⟩
  have ht : total (decoding (builtAb cap)).htc.freq = 4 := total_ab
  have hw : (decoding (builtAb cap)).htc.wanting = true := by
    unfold Htc.wanting
    rw [ht]
    rfl
  refine ⟨by rw [ht]; show 0#40 ≤ 4#40; decide, ?_⟩
  rw [if_pos hw]
  exact ⟨rfl, rfl⟩

theorem total_oneOut : total oneOut.htc.freq = 1 := by decide +kernel

theorem inv_oneOut : oneOut.Inv := by
  refine ⟨fun k _ => by simp [oneOut, decoding, builtA, loading, State.resetWith, Htc.reset], ⟨?_, ?_, ?_⟩, rfl, ?_⟩
  · exact List.pairwise_singleton _ _
  · intro a
    show (Memory.read [(0, 0x41)] a).isSome = true ↔ a < 1
    by_cases h : 0 = a
    · subst h; simp [Memory.read]
    · simp [Memory.read, h]; omega
  · exact by decide
  · refine ⟨tree_a, rfl, ⟨rfl, rfl⟩, ?_⟩
    have hw : oneOut.htc.wanting = false := by
      unfold Htc.wanting
      rw [total_oneOut]
      rfl
    refine ⟨by rw [total_oneOut]; exact by decide, ?_⟩
    simp only [hw, Bool.false_eq_true, if_false]
    rfl

/-! ### Witnesses: for each statement with hypotheses, what meets them, each clause at a boundary of its range -/

/-- The step answers a next state with a property. -/
def ends (p : State → Bool) : Host.Outcome State Fault Refusal → Bool
  | .next t => p t
  | _ => false

theorem next_of_ends {p : State → Bool} {o : Host.Outcome State Fault Refusal} (h : ends p o = true) :
    ∃ t, o = .next t ∧ p t = true := by
  cases o with
  | next t => exact ⟨t, rfl, h⟩
  | _ => cases h

/-- The step answers a next state. -/
def steps (o : Host.Outcome State Fault Refusal) : Bool := ends (fun _ => true) o

theorem next_of_steps {o : Host.Outcome State Fault Refusal} (h : steps o = true) : ∃ t, o = .next t :=
  let ⟨t, ht, _⟩ := next_of_ends h
  ⟨t, ht⟩

theorem witness_EncodeOfDecodeIsIdentity : ∃ w i, decode w = some i := ⟨0x106100000003#48, .fset 0x61 3, by decide⟩

theorem witness_DecoderFollowsTheOpcodeMap :
    (∃ r ∈ opRows, r.selects 0x210000000100#48 = true) ∧ decode 0x210000000100#48 = some (.nget 256) ∧
    (∀ r ∈ opRows, r.selects 0x210100000000#48 = false) := by decide

theorem witness_StepRunsTheDecodedCommand :
    (given oneOut 0x600000000000).inputs = .command 0x600000000000 :: [] ∧ decode 0x600000000000#48 = some .olen :=
  ⟨rfl, by decide⟩

theorem witness_StepAnswersAnIllegalWord (c : FaultCode) :
    (given (faulty c) 0x200100000000).inputs = .command 0x200100000000 :: [] ∧
    (given (loading 0 ab) 0x200100000000).inputs = .command 0x200100000000 :: [] ∧
    legalWord 0x200100000000 = false ∧ (faulty c).htc.phase = .fault ∧ (loading 0 ab).htc.phase ≠ .fault :=
  ⟨rfl, rfl, by decide, rfl, nofun⟩

theorem witness_IdleResetAndInit : oneOut.inputs = [] ∧
    ({ oneOut with inputs := [.reset] } : State).inputs = .reset :: [] ∧ (1#8 ≠ 0 ∨ 0#32 ≠ 0) ∧ (0#8 ≠ 0 ∨ 1#32 ≠ 0) :=
  ⟨rfl, rfl, by decide, by decide⟩

theorem witness_ResetStateValues : ({ oneOut with inputs := [.reset] } : State).inputs = .reset :: [] := rfl

theorem witness_StepKeepsTheInvariant : (given oneOut 0x520000000000).Inv ∧
    ∃ t, step (given oneOut 0x520000000000) = .next t :=
  ⟨inv_oneOut, next_of_steps (by decide +kernel)⟩

theorem witness_StepNeverStops : (given oneOut 0x610000000000).Inv := inv_oneOut

theorem witness_StepKeepsOmemCanonical : Memory.wf oneOut.htc.omem ∧
    ∃ t, step (given oneOut 0x610000000000) = .next t :=
  ⟨List.pairwise_singleton _ _, next_of_steps (by decide +kernel)⟩

theorem witness_StepKeepsCapacityAndWrittenBytes : (given oneOut 0x520000000000).Inv ∧ 0 < oneOut.htc.olen.toNat ∧
    ∃ t, step (given oneOut 0x520000000000) = .next t :=
  ⟨inv_oneOut, by decide, next_of_steps (by decide +kernel)⟩

/-- A word refused (STATUS not OK), and a legal word that is no read. -/
theorem witness_OneResponsePerWord :
    reply (step (given (faulty .trunc) 0x600000000000)) = some (0x08, 0) ∧
    reply (step (given (loading 0 ab) 0x116100000000)) = some (0x00, 0) ∧
    decode 0x116100000000#48 = some (.fcnt 0x61) ∧ isRead (.fcnt 0x61) = false := by decide +kernel

theorem witness_FaultChangesOnlyErrAndPhase :
    ∃ t, step (given (State.resetWith ⟨0⟩) 0) = .next t ∧
      t.rsps = (given (State.resetWith ⟨0⟩) 0).rsps ++ [{ status := .fault .illegal, data := 0 }] := ⟨_, rfl, rfl⟩

theorem witness_FaultPhaseRefusesEveryOtherWord (c : FaultCode) (w : CmdWord) :
    (given (faulty c) w).inputs = .command w :: [] ∧ (given (faulty c) w).htc.phase = .fault ∧
    decode 0x010000000000#48 = some .init ∧ decode 0x020000000000#48 = some .stat ∧
    decode 0x010000000001#48 ≠ some .init ∧ decode 0x010000000001#48 ≠ some .stat :=
  ⟨rfl, rfl, by decide, by decide, by decide, by decide⟩

/-- A state in each phase: what PhaseTableIsEnforced and the statements about one phase assume. -/
theorem witness_PhaseTableIsEnforced : (loading 0 ab).htc.phase = .load ∧ (builtAb 0).htc.phase = .tree ∧
    (encodingAb 0).htc.phase = .encode ∧ oneOut.htc.phase = .decode ∧ (faulty .trunc).htc.phase = .fault ∧
    (loading 0 ab).htc.phase ≠ .fault := ⟨rfl, rfl, rfl, rfl, rfl, nofun⟩

theorem witness_WriteOwnershipIsComplete : (∃ t, exec .build (loading 0 ab) = .next t) ∧
    (∃ t, exec (.fget 0x61) (loading 0 ab) = .next t ∧ isRead (.fget 0x61) = true ∧
      ∃ d, t.rsps = (loading 0 ab).rsps ++ [{ status := .ok, data := d }]) :=
  ⟨⟨_, rfl⟩, _, rfl, rfl, _, rfl⟩

theorem witness_PhaseTransitionsAreTheListedOnes : ∃ t, exec .flush (encodingAb 0) = .next t ∧ t.htc.phase = .done :=
  ⟨_, rfl, rfl⟩

theorem witness_StatReportsTheRegisters : (0xFF#8 ≠ 0 ∨ 0#32 ≠ 0) ∧ (0#8 ≠ 0 ∨ 0xFFFFFFFF#32 ≠ 0) := by decide

theorem witness_OlenReportsTheLength : oneOut.htc.phase ≠ .fault ∧ (faulty .range).htc.phase = .fault := ⟨nofun, rfl⟩

/-- addr = OLEN, and addr = OLEN - 1. -/
theorem witness_OrdReadsOneByte : oneOut.htc.phase ≠ .fault ∧ oneOut.htc.olen.toNat ≤ (1#32).toNat ∧
    (0#32).toNat < oneOut.htc.olen.toNat ∧ oneOut.htc.omem.read (0#32).toNat = some 0x41 ∧ oneOut.Inv ∧ 0xFF#8 ≠ 0 :=
  ⟨nofun, by decide, by decide, rfl, inv_oneOut, by decide⟩

theorem witness_FsetWritesOneCount : (loading 0 ab).htc.phase = .load := rfl

/-- The count 2^32 - 1, and the count 2^32 - 2. -/
theorem witness_FcntCountsOneByte :
    (loading 0 (table [(0, 0xFFFFFFFF)])).htc.phase = .load ∧
    ((loading 0 (table [(0, 0xFFFFFFFF)])).htc.count 0).toNat = 2 ^ 32 - 1 ∧
    ((loading 0 (table [(0, 0xFFFFFFFE)])).htc.count 0).toNat ≠ 2 ^ 32 - 1 := by decide +kernel

theorem witness_FgetReadsOneCount : (encodingAb 0).htc.phase ≠ .fault ∧ 1#32 ≠ 0 := ⟨nofun, by decide⟩

theorem witness_FtotSumsAllCounts : (loading 0 ab).htc.phase ≠ .fault ∧ (1#8 ≠ 0 ∨ 0#32 ≠ 0) := ⟨nofun, by decide⟩

/-- A table with one entry. -/
theorem table_one (a b : Byte) (n : Count) : tableGet (table [(a, n)]) b = if b = a then n else 0 := by
  simp [table, tableGet_tableSet]

/-- A count that reaches 2^32 - 1. -/
theorem witness_CountingConservesFrequency :
    (loading 0 (table [(0x61, 0xFFFFFFFE)])).htc.phase = .load ∧
    ∀ v : Byte, ((loading 0 (table [(0x61, 0xFFFFFFFE)])).htc.count v).toNat + [0x61#8].count v < 2 ^ 32 := by
  refine ⟨rfl, fun v => ?_⟩
  show (tableGet (table [(0x61, 0xFFFFFFFE)]) v).toNat + _ < _
  rw [table_one, List.count_singleton]
  by_cases h : v = 0x61
  · subst h
    decide
  · rw [if_neg h, if_neg (by simpa using Ne.symm h)]
    decide

theorem witness_FrequencyTableIsFrozenAfterLoad : (given oneOut 0x116100000000).htc.phase ≠ .load ∧
    ∃ t, step (given oneOut 0x116100000000) = .next t := ⟨nofun, next_of_steps (by decide +kernel)⟩

theorem witness_ExtractMinTakesTheLeastKey : [97, 98].Nodup ∧ ([97, 98] : List NodeIdx) ≠ [] := by decide

/-- One member; two members with `next` at the last entry of the arena. -/
theorem witness_MergeJoinsTheTwoLeast :
    (⟨(builtAb 0).htc.node, [97], 256⟩ : Merge).pq.Nodup ∧ (⟨(builtAb 0).htc.node, [97], 256⟩ : Merge).pq.length < 2 ∧
    (⟨(builtAb 0).htc.node, [97, 98], 510⟩ : Merge).pq.Nodup ∧
    2 ≤ (⟨(builtAb 0).htc.node, [97, 98], 510⟩ : Merge).pq.length ∧ 510 < 511 :=
  ⟨by decide, by decide, by decide, by decide, by decide⟩

theorem witness_BuildLeavesAHuffmanTree : (loading 0 ab).htc.phase = .load ∧ (0#8 ≠ 0 ∨ 1#32 ≠ 0) := ⟨rfl, by decide⟩

theorem witness_EveryLeafHasOnePath : tableGet ab 0x62 ≠ 0 := by decide +kernel

theorem witness_BuildOfOneSymbol : (loading 0 (table [(0x41, 1)])).htc.phase = .load ∧
    (loading 0 (table [(0x41, 1)])).htc.count 0x41 ≠ 0 ∧
    ∀ b : Byte, b ≠ 0x41 → (loading 0 (table [(0x41, 1)])).htc.count b = 0 := by
  refine ⟨rfl, ?_, fun b h => ?_⟩
  · show tableGet (table [(0x41, 1)]) 0x41 ≠ 0
    simp [table_one]
  · show tableGet (table [(0x41, 1)]) b = 0
    rw [table_one, if_neg h]

theorem witness_BuildOfTheEmptyTable : (State.resetWith ⟨0⟩).htc.phase = .load ∧
    ∀ b : Byte, (State.resetWith ⟨0⟩).htc.count b = 0 := ⟨rfl, fun b => tableGet_replicate 0 b⟩

theorem witness_BuildIsAFunctionOfFreq : (loading 0 ab).htc.phase = .load ∧ (loading 16 ab).htc.phase = .load ∧
    (loading 0 ab).htc.freq = (loading 16 ab).htc.freq := ⟨rfl, rfl, rfl⟩

/-- idx = 511, and idx = 510. -/
theorem witness_NgetReadsOneNode : (builtAb 0).htc.phase ≠ .fault ∧ 510 < (511#32).toNat ∧
    (510#32).toNat = (510 : NodeIdx).val ∧ 1#8 ≠ 0 := ⟨nofun, by decide, by decide, by decide⟩

/-- A symbol with a count, and one without. -/
theorem witness_GenAssignsThePaths : (builtAb 0).Inv ∧ (builtAb 0).htc.phase = .tree ∧
    (builtAb 0).htc.count 0x61 ≠ 0 ∧ (builtAb 0).htc.count 0x63 = 0 :=
  ⟨inv_builtAb 0, rfl, by decide +kernel, by decide +kernel⟩

theorem witness_GenOfALeafAndOfNoTree : (builtA 0 1).htc.phase = .tree ∧ (builtA 0 1).htc.rootv = true ∧
    (builtA 0 1).htc.root = leafIdx 0x41 ∧ ((builtA 0 1).htc.nodeAt (builtA 0 1).htc.root).leaf = true ∧
    (builtEmpty 0).htc.phase = .tree ∧ (builtEmpty 0).htc.rootv = false :=
  ⟨rfl, rfl, rfl, by decide +kernel, rfl, rfl⟩

theorem witness_CodesArePrefixFree : (encodingAb 0).htc.HasTree ∧ (encodingAb 0).htc.HasCodes ∧ (0x61#8 ≠ 0x62#8) ∧
    ((encodingAb 0).htc.codeOf 0x61).cv = true ∧ ((encodingAb 0).htc.codeOf 0x62).cv = true :=
  ⟨tree_ab, codes_ab, by decide, by decide +kernel, by decide +kernel⟩

theorem witness_CodeLengthsAreBounded : (encodingAb 0).htc.HasTree ∧ (encodingAb 0).htc.HasCodes ∧
    ((encodingAb 0).htc.codeOf 0x61).cv = true ∧ 2 ≤ (encodingAb 0).htc.nleaf.toNat :=
  ⟨tree_ab, codes_ab, by decide +kernel, by decide⟩

theorem witness_KraftSumIsOne : (encodingAb 0).htc.HasTree ∧ (encodingAb 0).htc.HasCodes ∧
    2 ≤ (encodingAb 0).htc.nleaf.toNat := ⟨tree_ab, codes_ab, by decide⟩

theorem witness_ClenReadsTheLength : (encodingAb 0).htc.phase ≠ .fault ∧ 1#32 ≠ 0 := ⟨nofun, by decide⟩

/-- No code; pos = CLEN; pos = CLEN - 1. -/
theorem witness_CbitReadsOneBit : (encodingAb 0).htc.phase ≠ .fault ∧ ((encodingAb 0).htc.codeOf 0x63).cv = false ∧
    ((encodingAb 0).htc.codeOf 0x61).clen.toNat ≤ (1#32).toNat ∧ ((encodingAb 0).htc.codeOf 0x61).cv = true ∧
    (0#32).toNat < ((encodingAb 0).htc.codeOf 0x61).clen.toNat := by decide +kernel

/-- NBITS = 6; NBITS = 7 with one byte of room; NBITS = 7 with none. -/
theorem witness_PbitPushesOneBit : (packing 1 0xFE 7).htc.phase = .encode ∧ (packing 1 0xFC 6).htc.nbits.toNat < 7 ∧
    (packing 1 0xFE 7).htc.nbits = 7 ∧ (packing 1 0xFE 7).htc.olen ≠ (packing 1 0xFE 7).cfg.outCap ∧
    (packing 0 0xFE 7).htc.nbits = 7 ∧ (packing 0 0xFE 7).htc.olen = (packing 0 0xFE 7).cfg.outCap ∧
    2 ≤ (2#8).toNat := ⟨rfl, by decide, rfl, by decide, rfl, rfl, by decide⟩

/-- NBITS = 0; bits pending with no room; bits pending with one byte of room. -/
theorem witness_FlushPadsTheLastByte : (packing 0 0 0).htc.phase = .encode ∧ (packing 0 0 0).htc.nbits = 0 ∧
    (packing 0 0x80 1).htc.nbits ≠ 0 ∧ (packing 0 0x80 1).htc.olen = (packing 0 0x80 1).cfg.outCap ∧
    (packing 1 0x80 1).htc.nbits ≠ 0 ∧ (packing 1 0x80 1).htc.olen ≠ (packing 1 0x80 1).cfg.outCap :=
  ⟨rfl, rfl, by decide, rfl, by decide, by decide⟩

theorem witness_PackAndUnpackAgree : 0 < 8 ∧ 7 < 8 := by decide

/-- 'a' and a bit pushed, then FLUSH. -/
theorem witness_PackerRegistersAgreeWithPack : (encodingAb 1).htc.phase = .encode ∧ (encodingAb 1).htc.PackerEmpty ∧
    (encodingAb 1).htc.olen = 0 ∧ (encodingAb 1).htc.omem = [] ∧
    (∀ i ∈ [Instr.enc 0x61, .pbit true], isPush i = true) ∧
    ∃ t, execAll [.enc 0x61, .pbit true] (encodingAb 1) = .next t ∧ t.htc.phase = .encode ∧
      ∃ u, exec .flush t = .next u ∧ u.htc.phase = .done := by
  have h : ends (fun t => t.htc.phase = .encode && ends (fun u => u.htc.phase = .done) (exec .flush t))
      (execAll [.enc 0x61, .pbit true] (encodingAb 1)) = true := by decide +kernel
  obtain ⟨t, ht, hp⟩ := next_of_ends h
  rw [Bool.and_eq_true, decide_eq_true_iff] at hp
  obtain ⟨u, hu, hd⟩ := next_of_ends hp.2
  exact ⟨rfl, ⟨rfl, rfl⟩, rfl, rfl, by decide, t, ht, hp.1, u, hu, of_decide_eq_true hd⟩

/-- NBITS = 7 and a one-bit code, which completes one byte: no code; no room; just room. -/
theorem witness_EncPushesTheCode :
    let s := encodingAb 0
    let t := { encodingAb 1 with htc := { (encodingAb 1).htc with nbits := 7 } }
    let u := { s with htc := { s.htc with nbits := 7 } }
    s.htc.phase = .encode ∧ (s.htc.codeOf 0x63).cv = false ∧ (u.htc.codeOf 0x61).cv = true ∧
    u.cfg.outCap.toNat < u.htc.olen.toNat + (u.htc.nbits.toNat + (u.htc.codeOf 0x61).clen.toNat) / 8 ∧
    t.htc.olen.toNat + (t.htc.nbits.toNat + (t.htc.codeOf 0x61).clen.toNat) / 8 = t.cfg.outCap.toNat := by
  decide +kernel

/-- An internal root; no tree; one symbol with a count of OUT_CAP + 1, and of OUT_CAP. -/
theorem witness_DbeginStartsTheWalk :
    (builtAb 0).htc.phase = .tree ∧ (builtAb 0).htc.olen = 0 ∧
    ((builtAb 0).htc.nodeAt (builtAb 0).htc.root).leaf = false ∧ total (builtEmpty 0).htc.freq = 0 ∧
    (builtA 4 5).htc.rootv = true ∧ ((builtA 4 5).htc.nodeAt (builtA 4 5).htc.root).leaf = true ∧
    (builtA 4 5).cfg.outCap.toNat < (total (builtA 4 5).htc.freq).toNat ∧
    (total (builtA 5 5).htc.freq).toNat ≤ (builtA 5 5).cfg.outCap.toNat := by decide +kernel

/-- A DEC that ends well, and one that overflows; one bit that is ignored, that descends (here CUR is not the tree's), that
emits, and that has no room. -/
theorem witness_DecWalksEachBit :
    (∃ h, walkBits ⟨4⟩ (decoding (builtAb 4)).htc (unpack8 0xE0) = .ok h) ∧
    (∃ c, walkBits ⟨3⟩ (decoding (builtAb 3)).htc (unpack8 0xE0) = .error c) ∧
    (total oneOut.htc.freq).toNat ≤ oneOut.htc.olen.toNat ∧
    (decoding (builtAb 4)).htc.olen.toNat < (total (decoding (builtAb 4)).htc.freq).toNat ∧
    ((decoding (builtAb 4)).htc.nodeAt ((decoding (builtAb 4)).htc.nodeAt 0).left).leaf = false ∧
    ((decoding (builtAb 4)).htc.nodeAt ((decoding (builtAb 4)).htc.nodeAt 256).right).leaf = true ∧
    (decoding (builtAb 0)).htc.olen = (0 : Len) ∧ (decoding (builtAb 4)).htc.olen ≠ (4 : Len) ∧
    ((decoding (builtAb 4)).htc.nodeAt (decoding (builtAb 4)).htc.root).leaf = false := by
  refine ⟨?_, ?_, by decide +kernel⟩
  · have h : (walkBits ⟨4⟩ (decoding (builtAb 4)).htc (unpack8 0xE0)).isOk = true := by decide +kernel
    cases hw : walkBits ⟨4⟩ (decoding (builtAb 4)).htc (unpack8 0xE0) with
    | ok g => exact ⟨g, rfl⟩
    | error c => rw [hw] at h; cases h
  · have h : (walkBits ⟨3⟩ (decoding (builtAb 3)).htc (unpack8 0xE0)).isOk = false := by decide +kernel
    cases hw : walkBits ⟨3⟩ (decoding (builtAb 3)).htc (unpack8 0xE0) with
    | ok g => rw [hw] at h; cases h
    | error c => exact ⟨c, rfl⟩

/-- OUT_CAP just the total. -/
theorem witness_DecCompletesWhenTheOutputFits : (decoding (builtAb 4)).Inv ∧ (decoding (builtAb 4)).htc.phase = .decode ∧
    (total (decoding (builtAb 4)).htc.freq).toNat ≤ (decoding (builtAb 4)).cfg.outCap.toNat :=
  ⟨inv_decodingAb 4, rfl, by decide +kernel⟩

theorem witness_DecIgnoresPadding : oneOut.htc.phase = .decode ∧ (total oneOut.htc.freq).toNat ≤ oneOut.htc.olen.toNat :=
  ⟨rfl, by decide +kernel⟩

/-- One symbol missing, and none. -/
theorem witness_DendChecksTheCount : (decoding (builtA 1 1)).htc.phase = .decode ∧
    (decoding (builtA 1 1)).htc.olen.toNat < (total (decoding (builtA 1 1)).htc.freq).toNat ∧
    oneOut.htc.phase = .decode ∧ (total oneOut.htc.freq).toNat ≤ oneOut.htc.olen.toNat := by decide +kernel

/-- With a payload that is long enough, and with none. -/
theorem witness_DecodeAgreesWithTheLoopOfTheSource : (builtAb 4).Inv ∧ (builtAb 4).htc.phase = .tree ∧
    (total (builtAb 4).htc.freq).toNat ≤ (builtAb 4).cfg.outCap.toNat ∧
    tcDecode (builtAb 4).htc.tree 4 (unpack [0xE0]) = some [0x61, 0x61, 0x61, 0x62] ∧
    tcDecode (builtAb 4).htc.tree 4 (unpack []) = none :=
  ⟨inv_builtAb 4, rfl, by decide +kernel, by decide +kernel, by decide +kernel⟩

/-- The hypotheses that the round trip and the truncation statement share. -/
def RoundTripFrom (e d : State) (bytes : List Byte) : Prop :=
  e.Inv ∧ e.htc.phase = .encode ∧ e.htc.PackerEmpty ∧ e.htc.olen = 0 ∧
  (∃ t, execAll (encs bytes ++ [.flush]) e = .next t ∧ t.htc.phase = .done) ∧
  d.Inv ∧ d.htc.phase = .tree ∧ d.htc.freq = e.htc.freq ∧
  (total d.htc.freq).toNat = bytes.length ∧ bytes.length ≤ d.cfg.outCap.toNat

/-- "aaab" in one byte of room, its output just fitting. -/
theorem witness_RoundTripRecoversTheInput : RoundTripFrom (encodingAb 1) (builtAb 4) [0x61, 0x61, 0x61, 0x62] := by
  have h : ends (fun t => t.htc.phase = .done) (execAll (encs [0x61, 0x61, 0x61, 0x62] ++ [.flush]) (encodingAb 1)) =
      true := by decide +kernel
  obtain ⟨t, ht, hp⟩ := next_of_ends h
  exact ⟨inv_encodingAb 1, rfl, ⟨rfl, rfl⟩, rfl, ⟨t, ht, of_decide_eq_true hp⟩, inv_builtAb 4, rfl, rfl, by decide +kernel,
    by decide⟩

/-- Its codes are 4 bits; no byte of the payload is fed. -/
theorem witness_TruncatedPayloadIsCaught : RoundTripFrom (encodingAb 1) (builtAb 4) [0x61, 0x61, 0x61, 0x62] ∧
    codeBits (encodingAb 1).htc.code [0x61, 0x61, 0x61, 0x62] = some [true, true, true, false] ∧
    8 * 0 < [true, true, true, false].length :=
  ⟨witness_RoundTripRecoversTheInput, by decide +kernel, by decide⟩

theorem witness_ReadOutGivesTheOutput : oneOut.Inv ∧ oneOut.htc.phase ≠ .fault := ⟨inv_oneOut, nofun⟩

/-- "ab", and the byte counts that (T + 7) div 8 is compared with. -/
theorem witness_EncodeProcedurePacksTheCodes : (∀ v : Byte, [0x61#8, 0x62].count v < 2 ^ 32) ∧
    codeBits (encodingAb 1).htc.code [0x61, 0x62] = some [true, false] ∧
    (State.resetWith ⟨0⟩).cfg.outCap.toNat < ([true, false].length + 7) / 8 ∧
    ([true, false].length + 7) / 8 ≤ (State.resetWith ⟨1⟩).cfg.outCap.toNat := by decide +kernel

theorem witness_RoundTripOfTheProcedures : (∀ v : Byte, [0x61#8, 0x62].count v < 2 ^ 32) ∧
    [0x61#8, 0x62].length ≤ (State.resetWith ⟨2⟩).cfg.outCap.toNat := by decide +kernel

end Sys2Proof.Tests
end

section
/-! PROOFS. The family of 00_scope.md: the step function of R5. -/

namespace Sys2Proof.Machine

/-- Settles O6: a step presents the first input, and a presented legal word is its command executed. -/
theorem stepRunsTheDecodedCommand : Obligations.StepRunsTheDecodedCommand := by
  intro s w rest i hinput hdecode
  calc step s
    _ = presentInput (.command w) { s with inputs := rest } := step_input hinput
    _ = presentWord w { s with inputs := rest } := presentInput_command
    _ = exec i { s with inputs := rest } := presentWord_legal hdecode

end Sys2Proof.Machine
end

section
/-! PROOFS. The family of 10_state.md: what one command and one step can do to HTC as a whole, said once, and the
reset state. -/

namespace Sys2Proof.Machine

variable {i : Instr} {cfg : Config} {h g : Htc} {d : Data} {s t : State}

/-- INIT and STAT, the only commands executed in phase FAULT, raise no fault of their own (60_exceptions.md R204). -/
theorem phase_ne_fault_of_raise {c : FaultCode} (hp : permission i h.phase = .executed)
    (he : effect i cfg h = .raise c) : h.phase ≠ .fault := by
  intro hf
  rw [hf] at hp
  have hi := phase_of_executed i hp
  cases i
  case init | stat => cases he
  case fget | ftot | nget | clen | cbit | olen | ord => exact hi rfl
  all_goals cases hi

/-- What a command does to HTC: nothing, the fault entry of R203 outside phase FAULT, or its own completed effect. -/
theorem exec_htc_cases (h : exec i s = .next t) :
    t.htc = s.htc ∨
    (s.htc.phase ≠ .fault ∧ ∃ c, t.htc = (s.takeFault c).htc) ∨
    (∃ d, permission i s.htc.phase = .executed ∧ effect i s.cfg s.htc = .done t.htc d) := by
  rcases exec_cases h with ⟨_, rfl⟩ | ⟨hp, rfl⟩ | ⟨c, hp, he, rfl⟩ | ⟨g, d, hp, he, rfl⟩
  · exact .inl rfl
  · refine .inr (.inl ⟨fun hf => ?_, .phase, rfl⟩)
    rw [hf] at hp
    cases i <;> cases hp
  · exact .inr (.inl ⟨phase_ne_fault_of_raise hp he, c, rfl⟩)
  · exact .inr (.inr ⟨d, hp, he⟩)

theorem exec_cfg (h : exec i s = .next t) : t.cfg = s.cfg := by
  rcases exec_cases h with ⟨_, rfl⟩ | ⟨_, rfl⟩ | ⟨_, _, _, rfl⟩ | ⟨_, _, _, _, rfl⟩ <;> rfl

theorem illegalWord_htc_cases (s : State) :
    s.illegalWord.htc = s.htc ∨ (s.htc.phase ≠ .fault ∧ s.illegalWord.htc = (s.takeFault .illegal).htc) := by
  by_cases hf : s.htc.phase = .fault
  · exact .inl (by rw [State.illegalWord_of_fault hf, State.refuse_htc])
  · exact .inr ⟨hf, by rw [State.illegalWord_of_alive hf]⟩

theorem illegalWord_cfg (s : State) : s.illegalWord.cfg = s.cfg := by
  unfold State.illegalWord
  split <;> rfl

/-- What a step does to HTC: nothing, the reset, the fault entry of R203 outside phase FAULT, or the completed effect of
a command. -/
theorem step_htc_cases (h : step s = .next t) :
    t.htc = s.htc ∨ t.htc = Htc.reset ∨
    (s.htc.phase ≠ .fault ∧ ∃ c, t.htc = (s.takeFault c).htc) ∨
    (∃ i d, permission i s.htc.phase = .executed ∧ effect i s.cfg s.htc = .done t.htc d) := by
  rcases step_cases h with ⟨_, rfl⟩ | ⟨_, _, rfl⟩ | ⟨w, rest, _, _, rfl⟩ | ⟨w, rest, i, _, _, he⟩
  · exact .inl rfl
  · exact .inr (.inl rfl)
  · rcases illegalWord_htc_cases { s with inputs := rest } with hs | ⟨hf, hc⟩
    · exact .inl hs
    · exact .inr (.inr (.inl ⟨hf, .illegal, hc⟩))
  · rcases exec_htc_cases he with hs | hc | ⟨d, hd⟩
    · exact .inl hs
    · exact .inr (.inr (.inl hc))
    · exact .inr (.inr (.inr ⟨i, d, hd⟩))

theorem step_cfg (h : step s = .next t) : t.cfg = s.cfg := by
  rcases step_cases h with ⟨_, rfl⟩ | ⟨_, _, rfl⟩ | ⟨w, rest, _, _, rfl⟩ | ⟨w, rest, i, _, _, he⟩
  · rfl
  · rfl
  · exact (illegalWord_cfg _).trans rfl
  · exact (exec_cfg he).trans rfl

/-- PHASE after a command that completes in phase p (R28). -/
def phaseAfter (p : Phase) : Instr → Phase
  | .init => .load
  | .build => .tree
  | .gen => .encode
  | .dbegin => .decode
  | .flush | .dend => .done
  | _ => p

theorem effect_phase (i : Instr) (he : effect i cfg h = .done g d) : g.phase = phaseAfter h.phase i := by
  have hf := effect_frame i he
  cases i
  case stat | fget | ftot | nget | clen | cbit | olen | ord => exact (congrArg Htc.phase hf).trans rfl
  all_goals exact (congrArg Htc.phase hf.1).trans rfl

/-- Settles O5: each code is the value of its definition, and a field of the response is one side of the `++`. -/
theorem statusCodesAndResponseFields : Obligations.StatusCodesAndResponseFields := by
  refine ⟨by decide, by decide, ⟨rfl, fun c => by cases c <;> rfl⟩, fun r => ⟨?_, ?_⟩⟩
  · exact (BitVec.extractLsb'_append_eq_of_le (by omega)).trans BitVec.extractLsb'_eq_self
  · exact (BitVec.extractLsb'_append_eq_of_add_le (by omega)).trans BitVec.extractLsb'_eq_self

theorem exec_init (s : State) : exec .init s = .next (s.answered Htc.reset 0) :=
  exec_answered .init rfl rfl

/-- Settles O9: the tables of the reset state hold one value throughout, and hardware reset and INIT leave that state. -/
theorem resetStateValues : Obligations.ResetStateValues := by
  have hcode : ∀ b, Htc.reset.codeOf b = CodeEntry.zero := fun b => tableGet_replicate _ b
  refine ⟨fun b => tableGet_replicate _ b, fun i => arenaGet_replicate _ i, rfl, rfl, rfl, rfl, fun b => ?_,
    rfl, rfl, rfl, rfl, rfl, rfl, rfl, rfl, fun s rest hi => ?_, fun s => ⟨_, exec_init s, rfl⟩⟩
  · rw [hcode b]
    exact ⟨rfl, rfl, CodeEntry.zero_string⟩
  · exact ⟨_, step_input hi, rfl⟩

/-- The reset state has the invariants of R38 (a) in phase LOAD, for every OUT_CAP. -/
theorem Htc.reset_inv (cfg : Config) : Htc.reset.Inv cfg := by
  have hclean : Htc.reset.PackerClean := fun k _ => BitVec.getLsbD_zero
  have hfull : Htc.reset.OmemFull cfg :=
    ⟨Htc.reset_wf, fun a => by simp [Htc.reset], by simp [Htc.reset, BitVec.le_def]⟩
  exact ⟨hclean, hfull, rfl, rfl, rfl, ⟨rfl, rfl⟩, rfl, rfl⟩

/-- Settles O10: the invariants of the reset state do not depend on OUT_CAP. -/
theorem resetMeetsTheInvariant : Obligations.ResetMeetsTheInvariant :=
  fun c => Htc.reset_inv c

/-- Settles O20: PHASE after each command that completes, and the phase it ran in. -/
theorem phaseTransitionsAreTheListedOnes : Obligations.PhaseTransitionsAreTheListedOnes := by
  intro i s t he
  rcases exec_htc_cases he with hs | ⟨_, c, hc⟩ | ⟨d, hp, hd⟩
  · exact .inl (by rw [hs])
  · exact .inr (.inl (by rw [hc]; rfl))
  · have hto := effect_phase i hd
    have hfrom := phase_of_executed i hp
    cases i
    case init => exact .inr (.inr (.inl ⟨rfl, hto⟩))
    case build => exact .inr (.inr (.inr (.inl ⟨rfl, hfrom, hto⟩)))
    case gen => exact .inr (.inr (.inr (.inr (.inl ⟨rfl, hfrom, hto⟩))))
    case dbegin => exact .inr (.inr (.inr (.inr (.inr (.inl ⟨rfl, hfrom, hto⟩)))))
    case flush => exact .inr (.inr (.inr (.inr (.inr (.inr (.inl ⟨rfl, hfrom, hto⟩))))))
    case dend => exact .inr (.inr (.inr (.inr (.inr (.inr (.inr ⟨rfl, hfrom, hto⟩))))))
    all_goals exact .inl hto

/-- A command that completes outside phase LOAD leaves FREQ, unless it is INIT: FSET and FCNT run in LOAD only (R21). -/
theorem effect_freq_frozen (hl : h.phase ≠ .load) (hp : permission i h.phase = .executed)
    (he : effect i cfg h = .done g d) : g.freq = h.freq ∨ g = Htc.reset := by
  have hf := effect_frame i he
  have hfrom := phase_of_executed i hp
  cases i
  case init => exact .inr hf.1
  case fset | fcnt => exact absurd hfrom hl
  case stat | fget | ftot | nget | clen | cbit | olen | ord => exact .inl ( (congrArg Htc.freq hf).trans rfl)
  all_goals exact .inl ( (congrArg Htc.freq hf.1).trans rfl)

/-- Settles O29: idle, reset and fault entry write no count, and no command that does is executed outside LOAD. -/
theorem frequencyTableIsFrozenAfterLoad : Obligations.FrequencyTableIsFrozenAfterLoad := by
  intro s t hl hstep
  rcases step_htc_cases hstep with hs | hr | ⟨_, c, hc⟩ | ⟨i, d, hp, hd⟩
  · exact .inl (congrArg Htc.freq hs)
  · exact .inr hr
  · exact .inl (by rw [hc]; rfl)
  · exact effect_freq_frozen hl hp hd

/-- Settles O19: the frame of each command, and what a fault and a refusal leave. -/
theorem writeOwnershipIsComplete : Obligations.WriteOwnershipIsComplete := by
  intro i s t he
  rcases exec_cases he with ⟨_, rfl⟩ | ⟨_, rfl⟩ | ⟨c, _, _, rfl⟩ | ⟨g, d, _, hd, rfl⟩
  · cases i <;> simp
  · cases i <;> simp [Htc.tree]
  · cases i <;> simp [Htc.tree]
  · have hf := effect_frame i hd
    cases i
    case stat | fget | ftot | nget | clen | cbit | olen | ord => simp [hf]
    all_goals
      rw [State.respond_htc, hf.1]
      simp [Htc.tree, isRead]

end Sys2Proof.Machine
end

section
/-! PROOFS. What a completed command has done, one inversion lemma per command that writes OMEM, CODE or the end of
a session, and OMEM's canonical form (10_state.md R26). -/

namespace Sys2Proof.Machine

variable {cfg : Config} {h g : Htc} {d : Data}

/-! ### The pseudocode of a command that completed -/

theorem genEffect_done (he : genEffect cfg h = .done g d) :
    ∃ book, genBook h.node h.rootv h.root = .ok book ∧
      g = { h with code := book, acc := 0, nbits := 0, phase := .encode } := by
  unfold genEffect at he
  split at he
  · next book hb => cases he; exact ⟨book, hb, rfl⟩
  · cases he

theorem pbitEffect_done {bit : Bool} (he : pbitEffect bit cfg h = .done g d) : pushBit cfg h bit = .ok g := by
  unfold pbitEffect at he
  split at he
  · cases he
  · exact (ofExcept_done he).1

theorem encEffect_done {byte : Byte} (he : encEffect byte cfg h = .done g d) :
    pushBits cfg h (h.codeOf byte).string = .ok g := by
  simp only [encEffect] at he
  split at he
  · cases he
  · split at he
    · cases he
    · exact (ofExcept_done he).1

theorem flushEffect_done (he : flushEffect cfg h = .done g d) :
    (h.nbits = 0 ∧ g = { h with phase := .done }) ∨
    (h.olen ≠ cfg.outCap ∧ g = { h.append h.acc with acc := 0, nbits := 0, phase := .done }) := by
  unfold flushEffect at he
  split at he
  · next hn => cases he; exact .inl ⟨hn, rfl⟩
  · split at he
    · cases he
    · next ho => cases he; exact .inr ⟨ho, rfl⟩

theorem dbeginEffect_done (he : dbeginEffect cfg h = .done g d) :
    ∃ x, drain cfg { h with cur := h.root } = .ok x ∧ g = x.setPhase .decode := by
  unfold dbeginEffect at he
  split at he
  · cases he
  · obtain ⟨hmap, -⟩ := ofExcept_done he
    cases hd : drain cfg { h with cur := h.root } with
    | error c => rw [hd] at hmap; cases hmap
    | ok x => rw [hd] at hmap; cases hmap; exact ⟨x, rfl, rfl⟩

theorem decEffect_done {byte : Byte} (he : decEffect byte cfg h = .done g d) :
    walkBits cfg h (unpack8 byte) = .ok g :=
  (ofExcept_done he).1

theorem dendEffect_done (he : dendEffect cfg h = .done g d) : h.wanting = false ∧ g = h.setPhase .done := by
  unfold dendEffect at he
  split at he
  · cases he
  · next hw => cases he; exact ⟨by simpa using hw, rfl⟩

/-! ### What a string of bits keeps -/

/-- A property that each successful `pushbit` keeps, a string of bits keeps. -/
theorem pushBits_induct {P : Htc → Prop} (keep : ∀ x y b, P x → pushBit cfg x b = .ok y → P y) {bits : BitString}
    (e : pushBits cfg h bits = .ok g) (hp : P h) : P g := by
  induction bits generalizing h with
  | nil => cases e; exact hp
  | cons b bits ih =>
    cases eb : pushBit cfg h b with
    | error c => simp [pushBits, eb] at e
    | ok x =>
      rw [pushBits_cons_ok eb] at e
      exact ih e (keep h x b hp eb)

/-- A property that each successful `step(b)` keeps, a string of bits keeps. -/
theorem walkBits_induct {P : Htc → Prop} (keep : ∀ x y b, P x → walkBit cfg x b = .ok y → P y) {bits : BitString}
    (e : walkBits cfg h bits = .ok g) (hp : P h) : P g := by
  induction bits generalizing h with
  | nil => cases e; exact hp
  | cons b bits ih =>
    cases eb : walkBit cfg h b with
    | error c => simp [walkBits, eb] at e
    | ok x =>
      rw [walkBits_cons_ok eb] at e
      exact ih e (keep h x b hp eb)

/-! ### The canonical form of OMEM -/

theorem pushBit_wf {b : Bool} (e : pushBit cfg h b = .ok g) (hw : Memory.wf h.omem) : Memory.wf g.omem := by
  rcases pushBit_cases e with ⟨_, rfl⟩ | ⟨_, _, rfl⟩
  · exact hw
  · exact Htc.append_wf _ hw

theorem drain_wf (e : drain cfg h = .ok g) (hw : Memory.wf h.omem) : Memory.wf g.omem :=
  drainLoop_induct (P := fun x => Memory.wf x.omem) (fun x hx _ => Htc.append_wf (h := x) _ hx) e hw

theorem walkBit_wf {b : Bool} (e : walkBit cfg h b = .ok g) (hw : Memory.wf h.omem) : Memory.wf g.omem := by
  cases hwant : h.wanting with
  | false =>
    rw [walkBit_padding b hwant] at e
    cases e
    exact hw
  | true =>
    rw [walkBit_descend b hwant] at e
    exact drain_wf e hw

/-- Every command that completes keeps the canonical form: the writers of OMEM (R35) append. -/
theorem effect_wf (i : Instr) (he : effect i cfg h = .done g d) (hw : Memory.wf h.omem) : Memory.wf g.omem := by
  have hf := effect_frame i he
  cases i
  case init => rw [hf.1]; exact Htc.reset_wf
  case pbit bit => exact pushBit_wf (pbitEffect_done he) hw
  case enc byte => exact pushBits_wf (encEffect_done he) hw
  case flush =>
    rcases flushEffect_done he with ⟨_, rfl⟩ | ⟨_, rfl⟩
    · exact hw
    · exact Htc.append_wf _ hw
  case dbegin =>
    obtain ⟨x, hx, rfl⟩ := dbeginEffect_done he
    exact (drain_wf hx hw : Memory.wf x.omem)
  case dec byte =>
    exact walkBits_induct (P := fun x => Memory.wf x.omem) (fun _ _ _ hx e => walkBit_wf e hx) (decEffect_done he) hw
  case stat | fget | ftot | nget | clen | cbit | olen | ord => rw [hf]; exact hw
  all_goals rw [hf.1]; exact hw

/-- Settles O13: reset empties OMEM, fault entry leaves it, and each command that completes keeps its form. -/
theorem stepKeepsOmemCanonical : Obligations.StepKeepsOmemCanonical := by
  intro s t hw hstep
  rcases step_htc_cases hstep with hs | hr | ⟨_, c, hc⟩ | ⟨i, d, _, hd⟩
  · rw [hs]; exact hw
  · rw [hr]; exact Htc.reset_wf
  · rw [hc]; exact hw
  · exact effect_wf i hd hw

end Sys2Proof.Machine
end

section
/-! PROOFS. What the decode walk needs of BUILD's tree (41_tree_builder.md R112): its valid internal nodes have valid
children, and its root is valid unless the table is empty. -/

namespace Sys2Proof.Machine

variable {arena : Vector Node 511} {freq : Vector Count 256} {m m' : Merge}

/-- The children of a valid internal node are valid. -/
def ClosedArena (arena : Vector Node 511) : Prop :=
  ∀ j, (arenaGet arena j).v = true → (arenaGet arena j).leaf = false →
    (arenaGet arena (arenaGet arena j).left).v = true ∧ (arenaGet arena (arenaGet arena j).right).v = true

/-- What every state of the merge loop keeps. -/
structure Merge.Sound (m : Merge) : Prop where
  closed : ClosedArena m.arena
  queued : ∀ i ∈ m.pq, (arenaGet m.arena i).v = true

theorem valid_arenaSet {i j : NodeIdx} {n : Node} (hn : n.v = true) (hj : (arenaGet arena j).v = true) :
    (arenaGet (arenaSet arena i n) j).v = true := by
  rw [arenaGet_arenaSet]
  split
  · exact hn
  · exact hj

/-- A new internal node over two valid nodes keeps the arena closed. -/
theorem ClosedArena.set_internalNode (hc : ClosedArena arena) {l r : NodeIdx} (i : NodeIdx)
    (hl : (arenaGet arena l).v = true) (hr : (arenaGet arena r).v = true) :
    ClosedArena (arenaSet arena i (internalNode arena l r)) := by
  intro j hv hleaf
  by_cases hj : j = i
  · subst hj
    rw [arenaGet_arenaSet_same]
    exact ⟨valid_arenaSet rfl hl, valid_arenaSet rfl hr⟩
  · rw [arenaGet_arenaSet_other _ _ hj] at hv hleaf ⊢
    obtain ⟨hleft, hright⟩ := hc j hv hleaf
    exact ⟨valid_arenaSet rfl hleft, valid_arenaSet rfl hright⟩

/-- What one pass of the merge loop has done (R112). -/
theorem mergeOnce_some (h : mergeOnce m = some m') :
    ∃ l r, l ∈ m.pq ∧ r ∈ m.pq.erase l ∧
      m' = { arena := arenaSet m.arena (Fin.ofNat 511 m.next) (internalNode m.arena l r)
             pq    := insertPq ((m.pq.erase l).erase r) (Fin.ofNat 511 m.next)
             next  := m.next + 1 } := by
  unfold mergeOnce at h
  split at h
  · cases h
  · next l pq1 h1 =>
    split at h
    · cases h
    · next r pq2 h2 =>
      obtain ⟨hl, rfl, -⟩ := extractMin_some h1
      obtain ⟨hr, rfl, -⟩ := extractMin_some h2
      cases h
      exact ⟨l, r, hl, hr, rfl⟩

/-- The merge loop stops only at a queue of fewer than two members. -/
theorem length_of_mergeOnce_none (h : mergeOnce m = none) : m.pq.length ≤ 1 := by
  cases hpq : m.pq with
  | nil => simp
  | cons i pq =>
    have hmem : minKey m.arena i pq ∈ i :: pq := (extractMin_some (extractMin_cons i pq)).1
    cases hrest : (i :: pq).erase (minKey m.arena i pq) with
    | nil =>
      have := List.length_erase_of_mem hmem
      rw [hrest, List.length_nil] at this
      omega
    | cons j rest => simp [mergeOnce, hpq, extractMin_cons, hrest] at h

/-- One pass takes two members and adds one. -/
theorem mergeOnce_length (h : mergeOnce m = some m') : m.pq.length = m'.pq.length + 1 := by
  obtain ⟨l, r, hl, hr, rfl⟩ := mergeOnce_some h
  have hpos : 0 < (m.pq.erase l).length := List.length_pos_of_mem hr
  simp only [insertPq, List.length_append, List.length_singleton, List.length_erase_of_mem hr]
  rw [List.length_erase_of_mem hl] at hpos ⊢
  omega

theorem mergeOnce_ne_nil (h : mergeOnce m = some m') : m'.pq ≠ [] := by
  obtain ⟨l, r, _, _, rfl⟩ := mergeOnce_some h
  simp [insertPq]

theorem mergeOnce_sound (hs : m.Sound) (h : mergeOnce m = some m') : m'.Sound := by
  obtain ⟨l, r, hl, hr, rfl⟩ := mergeOnce_some h
  have hr' : r ∈ m.pq := List.mem_of_mem_erase hr
  refine ⟨hs.closed.set_internalNode _ (hs.queued l hl) (hs.queued r hr'), fun i hi => ?_⟩
  rcases List.mem_append.1 hi with hi | hi
  · exact valid_arenaSet rfl (hs.queued i (List.mem_of_mem_erase (List.mem_of_mem_erase hi)))
  · rw [List.mem_singleton.1 hi, arenaGet_arenaSet_same]
    rfl

/-- With enough passes, a queue with members ends with exactly one: the root. -/
theorem mergeLoop_length (fuel : Nat) (hne : m.pq ≠ []) (hlen : m.pq.length ≤ fuel + 1) :
    (mergeLoop fuel m).pq.length = 1 := by
  have hpos := List.length_pos_of_ne_nil hne
  induction fuel generalizing m with
  | zero => rw [mergeLoop_zero]; omega
  | succ n ih =>
    cases h : mergeOnce m with
    | none =>
      rw [mergeLoop_stop _ h]
      have := length_of_mergeOnce_none h
      omega
    | some m' =>
      rw [mergeLoop_next _ h]
      have := mergeOnce_length h
      exact ih (mergeOnce_ne_nil h) (by omega) (List.length_pos_of_ne_nil (mergeOnce_ne_nil h))

/-- Before the merges, the valid entries are leaves and the queue holds the present symbols. -/
theorem mergeStart_sound (freq : Vector Count 256) : (mergeStart freq).Sound := by
  constructor
  · intro j hv hleaf
    simp only [mergeStart, arenaGet_leafArena, leafNode] at hv hleaf
    split at hv
    · split at hv <;> simp_all [Node.zero]
    · cases hv
  · intro i hi
    obtain ⟨b, hb, rfl⟩ := List.mem_map.1 hi
    show (arenaGet (leafArena freq) (leafIdx b)).v = true
    rw [arenaGet_leafArena_leafIdx, leafNode, if_neg (mem_present.1 hb)]

theorem mergeLoop_sound (fuel : Nat) (hs : m.Sound) : (mergeLoop fuel m).Sound :=
  mergeLoop_induct (fun _ _ hs h => mergeOnce_sound hs h) fuel m hs

theorem present_length_le (freq : Vector Count 256) : (present freq).length ≤ 256 := by
  rw [present, List.length_map]
  exact (List.length_filter_le _ _).trans (by simp)

/-- A table without present symbols has the total 0. -/
theorem total_eq_zero (h : present freq = []) : total freq = 0 := by
  have hzero : freq = Vector.replicate 256 0 := by
    apply Vector.ext
    intro k hk
    have hk' : BitVec.ofNat 8 k ∉ present freq := by simp [h]
    simpa [mem_present, tableGet, Nat.mod_eq_of_lt hk] using hk'
  have hfold : ∀ n, (List.replicate n (0 : Count)).foldl (fun t c => t + c.setWidth 40) (0 : Total) = 0 := by
    intro n
    induction n with
    | zero => rfl
    | succ n ih => simpa [List.replicate_succ] using ih
  rw [hzero, total, Vector.toList_replicate]
  exact hfold 256

theorem buildTree_closed (freq : Vector Count 256) : ClosedArena (buildTree freq).node :=
  (mergeLoop_sound 255 (mergeStart_sound freq)).closed

/-- The root of a table with a total is a valid node (R117 (e)). -/
theorem buildTree_root_valid (h : total freq ≠ 0) :
    (arenaGet (buildTree freq).node (buildTree freq).root).v = true := by
  have hne : (mergeStart freq).pq ≠ [] := by
    simpa [mergeStart] using fun hp => h (total_eq_zero hp)
  have hlen : (mergeStart freq).pq.length ≤ 255 + 1 := by
    simpa [mergeStart] using present_length_le freq
  obtain ⟨r, hr⟩ := List.length_eq_one_iff.1 (mergeLoop_length 255 hne hlen)
  have hroot : (buildTree freq).root = r := by simp [buildTree, hr]
  rw [hroot]
  exact (mergeLoop_sound 255 (mergeStart_sound freq)).queued r (by simp [hr])

end Sys2Proof.Machine
end

section
/-! PROOFS. Every step keeps the invariants between commands (10_state.md R38): the packer and OMEM, the decode walk,
and then each command from the phase it runs in. -/

namespace Sys2Proof.Machine

variable {i : Instr} {cfg : Config} {h g : Htc} {d : Data}

/-! ### OMEM and the packer (R38 (g)) -/

/-- Below OUT_CAP, OLEN + 1 does not wrap. -/
theorem Htc.OmemFull.olen_succ_and_lt (hf : h.OmemFull cfg) (ho : h.olen ≠ cfg.outCap) :
    (h.olen + 1).toNat = h.olen.toNat + 1 ∧ h.olen.toNat < cfg.outCap.toNat := by
  obtain ⟨-, -, hle⟩ := hf
  rw [BitVec.le_def] at hle
  have hne : h.olen.toNat ≠ cfg.outCap.toNat := fun e => ho (BitVec.eq_of_toNat_eq e)
  have hlt := cfg.outCap.isLt
  exact ⟨BitVec.toNat_add_of_lt (show h.olen.toNat + 1 < 2 ^ 32 by omega), by omega⟩

theorem Htc.OmemFull.append (hf : h.OmemFull cfg) (ho : h.olen ≠ cfg.outCap) (v : Byte) :
    (h.append v).OmemFull cfg := by
  obtain ⟨hsucc, hlt⟩ := hf.olen_succ_and_lt ho
  obtain ⟨hwf, hread, -⟩ := hf
  refine ⟨Htc.append_wf v hwf, fun a => ?_, ?_⟩
  · rw [Htc.append_omem, Htc.append_olen, hsucc, Memory.read_write]
    split
    · next ha => simp [ha]
    · next ha => rw [hread a]; omega
  · rw [Htc.append_olen, BitVec.le_def, hsucc]
    exact hlt

theorem Htc.PackerEmpty.clean (he : h.PackerEmpty) : h.PackerClean := by
  intro k _
  rw [he.2]
  exact BitVec.getLsbD_zero

/-- A clean packer without pending bits holds the zero byte. -/
theorem Htc.PackerClean.empty (hc : h.PackerClean) (hn : h.nbits = 0) : h.PackerEmpty := by
  refine ⟨hn, BitVec.eq_of_getLsbD_eq fun k hk => ?_⟩
  exact (hc k (by simpa [hn] using hk)).trans BitVec.getLsbD_zero.symm

/-- A pushed bit goes above the clean bits of ACC (R145). -/
theorem pushedAcc_clean (hc : h.PackerClean) (b : Bool) {k : Nat} (hk : k + h.nbits.toNat < 7) :
    (pushedAcc h b).getLsbD k = false := by
  have hacc : h.acc.getLsbD k = false := hc k (by omega)
  have hbelow : k < 7 - h.nbits.toNat := by omega
  simp [pushedAcc, hacc, hbelow]

theorem pushBit_keeps {x y : Htc} {b : Bool} (hx : x.PackerClean ∧ x.OmemFull cfg) (e : pushBit cfg x b = .ok y) :
    y.PackerClean ∧ y.OmemFull cfg := by
  obtain ⟨hc, hf⟩ := hx
  rcases pushBit_cases e with ⟨hn, rfl⟩ | ⟨_, ho, rfl⟩
  · refine ⟨fun k hk => pushedAcc_clean hc b ?_, hf⟩
    have hlt := x.nbits.isLt
    have hne : x.nbits.toNat ≠ 7 := fun e => hn (BitVec.eq_of_toNat_eq e)
    have hsucc : (x.nbits + 1).toNat = x.nbits.toNat + 1 :=
      BitVec.toNat_add_of_lt (show x.nbits.toNat + 1 < 2 ^ 3 by omega)
    have hk' : k + (x.nbits + 1).toNat < 8 := hk
    omega
  · exact ⟨Htc.PackerEmpty.clean ⟨rfl, rfl⟩, hf.append ho _⟩

/-! ### The decode walk (R27, R170) -/

theorem Htc.wanting_iff : h.wanting = true ↔ h.olen.toNat < (total h.freq).toNat := by
  rw [Htc.wanting, decide_eq_true_iff, BitVec.lt_def, BitVec.toNat_setWidth_of_le (by decide)]

theorem olen_le_total_iff : h.olen.setWidth 40 ≤ total h.freq ↔ h.olen.toNat ≤ (total h.freq).toNat := by
  rw [BitVec.le_def, BitVec.toNat_setWidth_of_le (by decide)]

/-- What holds before every pass of `drain()`: CUR is a valid node while symbols are missing, else ROOT. -/
structure Htc.WalkSound (cfg : Config) (h : Htc) : Prop where
  full  : h.OmemFull cfg
  tree  : h.HasTree
  le    : h.olen.toNat ≤ (total h.freq).toNat
  valid : h.wanting = true → (h.nodeAt h.cur).v = true
  home  : h.wanting = false → h.cur = h.root

/-- What holds between two bits: the walk also stands on no leaf while symbols are missing. -/
def Htc.WalkPaused (cfg : Config) (h : Htc) : Prop :=
  h.WalkSound cfg ∧ (h.wanting = true → (h.nodeAt h.cur).leaf = false)

theorem Htc.WalkPaused.ready (hp : h.WalkPaused cfg) : h.WalkReady := by
  obtain ⟨hs, hleaf⟩ := hp
  refine ⟨olen_le_total_iff.2 hs.le, ?_⟩
  split
  · next hw => exact ⟨hs.valid hw, hleaf hw⟩
  · next hw => exact hs.home (by simpa using hw)

theorem Htc.WalkReady.paused (hr : h.WalkReady) (hf : h.OmemFull cfg) (ht : h.HasTree) : h.WalkPaused cfg := by
  obtain ⟨hle, hcur⟩ := hr
  cases hw : h.wanting with
  | true =>
    rw [if_pos hw] at hcur
    exact ⟨⟨hf, ht, olen_le_total_iff.1 hle, fun _ => hcur.1, by simp [hw]⟩, fun _ => hcur.2⟩
  | false =>
    rw [if_neg (by simp [hw])] at hcur
    exact ⟨⟨hf, ht, olen_le_total_iff.1 hle, by simp [hw], fun _ => hcur⟩, by simp [hw]⟩

theorem Htc.HasTree.node_eq (ht : h.HasTree) : h.node = (buildTree h.freq).node := congrArg Tree.node ht
theorem Htc.HasTree.root_eq (ht : h.HasTree) : h.root = (buildTree h.freq).root := congrArg Tree.root ht

/-- While symbols are missing there is a root (R117 (e)). -/
theorem Htc.HasTree.root_valid (ht : h.HasTree) (hw : h.wanting = true) : (h.nodeAt h.root).v = true := by
  have htotal : total h.freq ≠ 0 := by
    intro h0
    have := Htc.wanting_iff.1 hw
    simp [h0] at this
  rw [Htc.nodeAt, ht.node_eq, ht.root_eq]
  exact buildTree_root_valid htotal

/-- A walk that starts at the root. -/
theorem Htc.WalkSound.at_root (hf : h.OmemFull cfg) (ht : h.HasTree) (hle : h.olen.toNat ≤ (total h.freq).toNat)
    (hc : h.cur = h.root) : h.WalkSound cfg :=
  ⟨hf, ht, hle, fun hw => by rw [hc]; exact ht.root_valid hw, fun _ => hc⟩

theorem Htc.WalkSound.emit (hs : h.WalkSound cfg) (hw : h.wanting = true) (ho : h.olen ≠ cfg.outCap) :
    h.emit.WalkSound cfg := by
  have hsucc := (hs.full.olen_succ_and_lt ho).1
  have hlt := Htc.wanting_iff.1 hw
  refine .at_root (hs.full.append ho _) hs.tree ?_ rfl
  show (h.olen + 1).toNat ≤ (total h.freq).toNat
  omega

/-- With a pass for each missing symbol, `drain()` ends between two bits. -/
theorem drainLoop_paused {fuel : Nat} (hs : h.WalkSound cfg) (hfuel : (total h.freq).toNat ≤ h.olen.toNat + fuel)
    (e : drainLoop cfg fuel h = .ok g) : g.WalkPaused cfg := by
  induction fuel generalizing h with
  | zero =>
    cases e
    refine ⟨hs, fun hw => ?_⟩
    have := Htc.wanting_iff.1 hw
    omega
  | succ n ih =>
    cases hl : h.wanting && (h.nodeAt h.cur).leaf with
    | false =>
      rw [drainLoop_idle _ hl] at e
      cases e
      exact ⟨hs, fun hw => by simpa [hw] using hl⟩
    | true =>
      by_cases ho : h.olen = cfg.outCap
      · simp [drainLoop_overflow n hl ho] at e
      · rw [drainLoop_emit n hl ho] at e
        have hw : h.wanting = true := (Bool.and_eq_true _ _ ▸ hl).1
        have hsucc := (hs.full.olen_succ_and_lt ho).1
        refine ih (hs.emit hw ho) ?_ e
        show (total h.freq).toNat ≤ (h.olen + 1).toNat + n
        omega

theorem drain_paused (hs : h.WalkSound cfg) (e : drain cfg h = .ok g) : g.WalkPaused cfg :=
  drainLoop_paused hs (by omega) e

/-- The child that a bit leads to is a valid node of BUILD's tree. -/
theorem Htc.WalkPaused.descend (hp : h.WalkPaused cfg) (hw : h.wanting = true) (b : Bool) :
    ({ h with cur := if b then (h.nodeAt h.cur).right else (h.nodeAt h.cur).left } : Htc).WalkSound cfg := by
  obtain ⟨hs, hleaf⟩ := hp
  have hclosed : ClosedArena h.node := hs.tree.node_eq ▸ buildTree_closed h.freq
  obtain ⟨hleft, hright⟩ := hclosed h.cur (hs.valid hw) (hleaf hw)
  refine ⟨hs.full, hs.tree, hs.le, fun _ => ?_, fun hn => absurd (hn.symm.trans hw) nofun⟩
  cases b with
  | false => exact hleft
  | true => exact hright

theorem walkBit_paused {b : Bool} (hp : h.WalkPaused cfg) (e : walkBit cfg h b = .ok g) : g.WalkPaused cfg := by
  cases hw : h.wanting with
  | false =>
    rw [walkBit_padding b hw] at e
    cases e
    exact hp
  | true =>
    rw [walkBit_descend b hw] at e
    exact drain_paused (hp.descend hw b) e

/-! ### Each command from the phase it runs in -/

/-- The invariants in a phase other than FAULT. -/
theorem Htc.inv_iff {p : Phase} (hp : h.phase = p) (hne : p ≠ .fault) :
    h.Inv cfg ↔ h.PackerClean ∧ h.OmemFull cfg ∧ h.err = none ∧ h.Session p := by
  subst hp
  simp [Htc.Inv, hne]

/-- Fault entry keeps the invariants: the session is the one of the phase the fault was raised in (R38 (f)). -/
theorem State.takeFault_inv {s : State} (hi : s.htc.Inv s.cfg) (hp : s.htc.phase ≠ .fault) (c : FaultCode) :
    (s.takeFault c).htc.Inv s.cfg := by
  obtain ⟨hclean, hfull, -, hs⟩ := (Htc.inv_iff rfl hp).1 hi
  exact ⟨hclean, hfull, (if_pos rfl).mpr ⟨nofun, s.htc.phase, hs⟩⟩

theorem Htc.Inv.set_freq (hi : h.Inv cfg) (hp : h.phase = .load) (f : Vector Count 256) :
    ({ h with freq := f } : Htc).Inv cfg :=
  (Htc.inv_iff (h := { h with freq := f }) hp nofun).2 ((Htc.inv_iff hp nofun).1 hi)

theorem build_inv (hi : h.Inv cfg) (hp : h.phase = .load) :
    ({ h.setTree (buildTree h.freq) with phase := .tree } : Htc).Inv cfg := by
  obtain ⟨hclean, hfull, herr, -, hcodes, hempty, holen, hcur⟩ := (Htc.inv_iff hp nofun).1 hi
  exact (Htc.inv_iff (p := .tree) rfl nofun).2 ⟨hclean, hfull, herr, rfl, hcodes, hempty, holen, hcur⟩

theorem genEffect_inv (hi : h.Inv cfg) (hp : h.phase = .tree) (he : genEffect cfg h = .done g d) : g.Inv cfg := by
  obtain ⟨-, hfull, herr, htree, -, -, -, hcur⟩ := (Htc.inv_iff hp nofun).1 hi
  obtain ⟨book, hbook, rfl⟩ := genEffect_done he
  exact (Htc.inv_iff (p := .encode) rfl nofun).2 ⟨Htc.PackerEmpty.clean ⟨rfl, rfl⟩, hfull, herr, htree, hbook, hcur⟩

/-- PBIT and ENC: what a string of pushed bits leaves in phase ENCODE. -/
theorem pushBits_inv {bits : BitString} (hi : h.Inv cfg) (hp : h.phase = .encode)
    (e : pushBits cfg h bits = .ok g) : g.Inv cfg := by
  obtain ⟨hclean, hfull, herr, hsession⟩ := (Htc.inv_iff hp nofun).1 hi
  obtain ⟨hclean', hfull'⟩ := pushBits_induct (P := fun x => x.PackerClean ∧ x.OmemFull cfg)
    (fun _ _ _ hx e => pushBit_keeps hx e) e ⟨hclean, hfull⟩
  have hframe := pushBits_frame e
  have hphase : g.phase = .encode := (congrArg Htc.phase hframe).trans hp
  refine (Htc.inv_iff hphase nofun).2 ⟨hclean', hfull', (congrArg Htc.err hframe).trans herr, ?_⟩
  rw [hframe]
  exact hsession

theorem pushBits_singleton (cfg : Config) (h : Htc) (b : Bool) : pushBits cfg h [b] = pushBit cfg h b := by
  cases e : pushBit cfg h b with
  | ok x => rw [pushBits_cons_ok e, pushBits_nil]
  | error c => simp [pushBits, e]

theorem flushEffect_inv (hi : h.Inv cfg) (hp : h.phase = .encode) (he : flushEffect cfg h = .done g d) : g.Inv cfg := by
  obtain ⟨hclean, hfull, herr, htree, hcodes, hcur⟩ := (Htc.inv_iff hp nofun).1 hi
  rcases flushEffect_done he with ⟨hn, rfl⟩ | ⟨ho, rfl⟩
  · exact (Htc.inv_iff (p := .done) rfl nofun).2 ⟨hclean, hfull, herr, htree, hclean.empty hn, .inl ⟨hcodes, hcur⟩⟩
  · exact (Htc.inv_iff (p := .done) rfl nofun).2
      ⟨Htc.PackerEmpty.clean ⟨rfl, rfl⟩, hfull.append ho _, herr, htree, ⟨rfl, rfl⟩, .inl ⟨hcodes, hcur⟩⟩

/-- A session of phase TREE or DECODE whose walk ended between two bits is one of phase DECODE. -/
theorem Htc.WalkPaused.session (hp : g.WalkPaused cfg)
    (hframe : g = { h with omem := g.omem, olen := g.olen, cur := g.cur })
    (hcodes : h.NoCodes) (hempty : h.PackerEmpty) : g.Session .decode := by
  have hcode : g.code = h.code := (congrArg Htc.code hframe).trans rfl
  have hnbits : g.nbits = h.nbits := (congrArg Htc.nbits hframe).trans rfl
  have hacc : g.acc = h.acc := (congrArg Htc.acc hframe).trans rfl
  exact ⟨hp.1.tree, hcode.trans hcodes, ⟨hnbits.trans hempty.1, hacc.trans hempty.2⟩, hp.ready⟩

theorem dbeginEffect_inv (hi : h.Inv cfg) (hp : h.phase = .tree) (he : dbeginEffect cfg h = .done g d) : g.Inv cfg := by
  obtain ⟨-, hfull, herr, htree, hcodes, hempty, holen, -⟩ := (Htc.inv_iff hp nofun).1 hi
  obtain ⟨x, hdrain, rfl⟩ := dbeginEffect_done he
  have hstart : ({ h with cur := h.root } : Htc).WalkSound cfg :=
    .at_root hfull htree (by simp [holen]) rfl
  have hpaused := drain_paused hstart hdrain
  have hframe := drainLoop_frame hdrain
  obtain ⟨htree', hcodes', hempty', hready'⟩ := hpaused.session hframe hcodes hempty
  have herr' : x.err = none := (congrArg Htc.err hframe).trans herr
  exact (Htc.inv_iff (p := .decode) rfl nofun).2
    ⟨hempty'.clean, hpaused.1.full, herr', htree', hcodes', hempty', hready'⟩

theorem walkBits_inv {bits : BitString} (hi : h.Inv cfg) (hp : h.phase = .decode)
    (e : walkBits cfg h bits = .ok g) : g.Inv cfg := by
  obtain ⟨-, hfull, herr, htree, hcodes, hempty, hready⟩ := (Htc.inv_iff hp nofun).1 hi
  have hpaused : g.WalkPaused cfg :=
    walkBits_induct (fun _ _ _ hx e => walkBit_paused hx e) e (hready.paused hfull htree)
  have hframe := walkBits_frame e
  obtain ⟨htree', hcodes', hempty', hready'⟩ := hpaused.session hframe hcodes hempty
  exact (Htc.inv_iff ((congrArg Htc.phase hframe).trans hp) nofun).2
    ⟨hempty'.clean, hpaused.1.full, (congrArg Htc.err hframe).trans herr, htree', hcodes', hempty', hready'⟩

theorem dendEffect_inv (hi : h.Inv cfg) (hp : h.phase = .decode) (he : dendEffect cfg h = .done g d) : g.Inv cfg := by
  obtain ⟨hclean, hfull, herr, htree, hcodes, hempty, hready⟩ := (Htc.inv_iff hp nofun).1 hi
  obtain ⟨hw, rfl⟩ := dendEffect_done he
  obtain ⟨hle, hcur⟩ := hready
  rw [if_neg (by simp [hw])] at hcur
  have hall : h.olen.setWidth 40 = total h.freq := by
    have hge : ¬ h.olen.setWidth 40 < total h.freq := by simpa [Htc.wanting] using hw
    rw [BitVec.lt_def] at hge
    rw [BitVec.le_def] at hle
    exact BitVec.eq_of_toNat_eq (by omega)
  exact (Htc.inv_iff (p := .done) rfl nofun).2 ⟨hclean, hfull, herr, htree, hempty, .inr ⟨hcodes, hcur, hall⟩⟩

/-- Every command that completes keeps the invariants. -/
theorem effect_inv (i : Instr) (hi : h.Inv cfg) (hp : permission i h.phase = .executed)
    (he : effect i cfg h = .done g d) : g.Inv cfg := by
  have hframe := effect_frame i he
  have hfrom := phase_of_executed i hp
  cases i
  case init => rw [hframe.1]; exact Htc.reset_inv cfg
  case fset | fcnt => rw [hframe.1]; exact hi.set_freq hfrom _
  case build => cases he; exact build_inv hi hfrom
  case gen => exact genEffect_inv hi hfrom he
  case pbit bit => exact pushBits_inv hi hfrom ((pushBits_singleton cfg h bit).trans (pbitEffect_done he))
  case enc byte => exact pushBits_inv hi hfrom (encEffect_done he)
  case flush => exact flushEffect_inv hi hfrom he
  case dbegin => exact dbeginEffect_inv hi hfrom he
  case dec byte => exact walkBits_inv hi hfrom (decEffect_done he)
  case dend => exact dendEffect_inv hi hfrom he
  case stat | fget | ftot | nget | clen | cbit | olen | ord => rw [hframe]; exact hi

/-- Settles O11: a step leaves HTC alone, resets it, faults, or completes a command, and each keeps the invariants. -/
theorem stepKeepsTheInvariant : Obligations.StepKeepsTheInvariant := by
  intro s t hi hstep
  rw [State.Inv, step_cfg hstep]
  rcases step_htc_cases hstep with hs | hr | ⟨hp, c, hc⟩ | ⟨i, d, hp, hd⟩
  · rw [hs]; exact hi
  · rw [hr]; exact Htc.reset_inv s.cfg
  · rw [hc]; exact State.takeFault_inv hi hp c
  · exact effect_inv i hi hp hd

end Sys2Proof.Machine
end

section
/-! PROOFS. The family of 20_memory.md: the bits after the last symbol (R58). -/

namespace Sys2Proof.Machine

/-- No symbol is missing exactly when OLEN is not below the total (45_decode.md R170). -/
theorem Htc.wanting_eq_false_iff {h : Htc} : h.wanting = false ↔ (total h.freq).toNat ≤ h.olen.toNat := by
  rw [← Bool.not_eq_true, Htc.wanting_iff, Nat.not_lt]

/-- With no symbol missing, all eight bits of a payload byte are padding (45_decode.md R172 (a)). -/
theorem decEffect_padding {cfg : Config} {h : Htc} (byte : Byte) (hw : h.wanting = false) :
    decEffect byte cfg h = .done h 0 := by
  rw [decEffect, walkBits_padding _ hw, CmdResult.ofExcept_ok]

/-- Settles O53: DEC is executed in phase DECODE, and its byte is all padding. -/
theorem decIgnoresPadding : Obligations.DecIgnoresPadding := by
  intro s byte hphase hall
  have hexecuted : permission (.dec byte) s.htc.phase = .executed := by rw [hphase]; rfl
  have hpadding : effect (.dec byte) s.cfg s.htc = .done s.htc 0 :=
    decEffect_padding byte (Htc.wanting_eq_false_iff.2 hall)
  exact exec_answered (.dec byte) hexecuted hpadding

end Sys2Proof.Machine
end

section
/-! PROOFS. The family of 30_encoding.md, decoder and encoder: each is the other's inverse, format by format (R72). -/

namespace Sys2Proof

variable {op a : BitVec 8} {b : BitVec 32} {i j : Instr}

/-! ### The operand of format T -/

/-- The operand of format T as the byte A (R72). -/
def bitByte (bit : Bool) : BitVec 8 := if bit then 1 else 0

theorem encode_pbit (bit : Bool) : encode (.pbit bit) = cmdWord 0x40 (bitByte bit) 0 := rfl

/-- A byte whose bits 7 to 1 are 0 is its bit 0. -/
theorem bitByte_of_high_zero (h : a.extractLsb' 1 7 = 0) : bitByte (a.getLsbD 0) = a := by
  have hhigh : a.toNat / 2 % 128 = 0 := by
    simpa [BitVec.extractLsb'_toNat, Nat.shiftRight_eq_div_pow] using congrArg BitVec.toNat h
  have hvalue : a.toNat = 0 ∨ a.toNat = 1 := by omega
  rcases hvalue with h0 | h1
  · obtain rfl : a = 0 := BitVec.eq_of_toNat_eq h0
    rfl
  · obtain rfl : a = 1 := BitVec.eq_of_toNat_eq h1
    rfl

/-! ### A format reads the fields the encoder writes -/

@[simp] theorem formatZ_zero (i : Instr) : formatZ 0 0 i = some i := rfl
@[simp] theorem formatS_zero (a : Byte) (f : Byte → Instr) : formatS a 0 f = some (f a) := rfl
@[simp] theorem formatB_zero (b : BitVec 32) (f : BitVec 32 → Instr) : formatB 0 b f = some (f b) := rfl
@[simp] theorem formatT_bitByte (bit : Bool) (f : Bool → Instr) : formatT (bitByte bit) 0 f = some (f bit) := by
  cases bit <;> rfl

/-- Settles O2: the fields of the encoded word are what its command's format reads. -/
theorem decodeOfEncodeIsIdentity : Obligations.DecodeOfEncodeIsIdentity := by
  intro i
  cases i with
  | init | stat | ftot | build | gen | flush | dbegin | dend | olen => exact (decode_cmdWord _ 0 0).trans (formatZ_zero _)
  | fcnt x | fget x | clen x | enc x | dec x => exact (decode_cmdWord _ x 0).trans (formatS_zero x _)
  | fset x y | cbit x y => exact decode_cmdWord _ x y
  | nget y | ord y => exact (decode_cmdWord _ 0 y).trans (formatB_zero y _)
  | pbit bit =>
    rw [encode_pbit, decode_cmdWord]
    exact formatT_bitByte bit _

/-- Two commands with the same word are the same command. -/
theorem encode_injective : Function.Injective encode := fun i j h =>
  Option.some.inj (by rw [← decodeOfEncodeIsIdentity i, h, decodeOfEncodeIsIdentity j])

/-! ### What a format accepts is the word of the command it answers -/

theorem encode_of_formatZ (hj : encode j = cmdWord op 0 0) (h : formatZ a b j = some i) :
    encode i = cmdWord op a b := by
  obtain ⟨⟨rfl, rfl⟩, rfl⟩ : (a = 0 ∧ b = 0) ∧ j = i := by simpa [formatZ] using h
  exact hj

theorem encode_of_formatS {f : Byte → Instr} (hf : ∀ x, encode (f x) = cmdWord op x 0)
    (h : formatS a b f = some i) : encode i = cmdWord op a b := by
  obtain ⟨rfl, rfl⟩ : b = 0 ∧ f a = i := by simpa [formatS] using h
  exact hf a

theorem encode_of_formatSB {f : Byte → BitVec 32 → Instr} (hf : ∀ x y, encode (f x y) = cmdWord op x y)
    (h : formatSB a b f = some i) : encode i = cmdWord op a b := by
  obtain rfl : f a b = i := Option.some.inj h
  exact hf a b

theorem encode_of_formatB {f : BitVec 32 → Instr} (hf : ∀ y, encode (f y) = cmdWord op 0 y)
    (h : formatB a b f = some i) : encode i = cmdWord op a b := by
  obtain ⟨rfl, rfl⟩ : a = 0 ∧ f b = i := by simpa [formatB] using h
  exact hf b

theorem encode_of_formatT {f : Bool → Instr} (hf : ∀ bit, encode (f bit) = cmdWord op (bitByte bit) 0)
    (h : formatT a b f = some i) : encode i = cmdWord op a b := by
  obtain ⟨⟨ha, rfl⟩, rfl⟩ : (a.extractLsb' 1 7 = 0 ∧ b = 0) ∧ f (a.getLsbD 0) = i := by simpa [formatT] using h
  rw [hf, bitByte_of_high_zero ha]

theorem cmdWord_of_toNat {k : Nat} (hop : op.toNat = k) : cmdWord (BitVec.ofNat 8 k) a b = cmdWord op a b := by
  rw [← hop, BitVec.ofNat_toNat, BitVec.setWidth_eq]

/-- The fields the decoder accepts are those of the word of the command it answers. -/
theorem encode_of_decodeFields (h : decodeFields op a b = some i) : encode i = cmdWord op a b := by
  unfold decodeFields at h
  split at h
  case h_1 hop | h_2 hop | h_6 hop | h_7 hop | h_9 hop | h_14 hop | h_15 hop | h_17 hop | h_18 hop =>
    rw [← cmdWord_of_toNat hop]
    exact encode_of_formatZ rfl h
  case h_4 hop | h_5 hop | h_10 hop | h_13 hop | h_16 hop =>
    rw [← cmdWord_of_toNat hop]
    exact encode_of_formatS (fun _ => rfl) h
  case h_3 hop | h_11 hop =>
    rw [← cmdWord_of_toNat hop]
    exact encode_of_formatSB (fun _ _ => rfl) h
  case h_8 hop | h_19 hop =>
    rw [← cmdWord_of_toNat hop]
    exact encode_of_formatB (fun _ => rfl) h
  case h_12 hop =>
    rw [← cmdWord_of_toNat hop]
    exact encode_of_formatT encode_pbit h
  case h_20 => cases h

/-- Settles O3: a word is the word of its fields. -/
theorem encodeOfDecodeIsIdentity : Obligations.EncodeOfDecodeIsIdentity := by
  intro w i h
  rw [encode_of_decodeFields h, cmdWord_fields]

/-- A word decodes to the one command whose word it is. -/
theorem decode_eq_some_iff {w : CmdWord} : decode w = some i ↔ encode i = w :=
  ⟨encodeOfDecodeIsIdentity w i, fun h => h ▸ decodeOfEncodeIsIdentity i⟩

/-- Settles O1: the words of the test vectors, decoded. -/
theorem testVectorWordsDecode : Obligations.TestVectorWordsDecode := by
  unfold Obligations.TestVectorWordsDecode
  decide

end Sys2Proof
end

section
/-! PROOFS. The family of 30_encoding.md, the opcode map (R76, R77): the words a row selects are the words of the
commands with its mnemonic, so rows that share a word are one row. -/

namespace Sys2Proof

variable {op a o x n : BitVec 8} {b y k : BitVec 32} {w : CmdWord} {r : OpRow} {name : String}

/-! ### The words a row selects -/

theorem cmdWord_inj : cmdWord o x y = cmdWord op a b ↔ o = op ∧ x = a ∧ y = b := by
  refine ⟨fun h => ⟨?_, ?_, ?_⟩, fun ⟨ho, hx, hy⟩ => by rw [ho, hx, hy]⟩
  · simpa using congrArg fieldOp h
  · simpa using congrArg fieldA h
  · simpa using congrArg fieldB h

theorem and_ones8 (x : BitVec 8) : x &&& 0xFF = x := BitVec.and_allOnes
theorem and_ones32 (y : BitVec 32) : y &&& 0xFFFFFFFF = y := BitVec.and_allOnes

/-- A row whose mask has all bits of OP fixes OP, and compares A and B under their masks. -/
theorem OpRow.selects_iff : (OpRow.mk name (cmdWord op a b) (cmdWord 0xFF n k)).selects w = true ↔
    fieldOp w = op ∧ fieldA w &&& n = a ∧ fieldB w &&& k = b := by
  conv_lhs => rw [← cmdWord_fields w]
  rw [OpRow.selects, cmdWord_and, beq_iff_eq, cmdWord_inj, and_ones8]

/-- Every word the row selects is the word of a command with the row's mnemonic. -/
def OpRow.Spelled (r : OpRow) : Prop :=
  ∀ w, r.selects w = true → ∃ i : Instr, i.mnemonic = r.mnemonic ∧ encode i = w

theorem OpRow.Spelled.formatZ (op : BitVec 8) (j : Instr) (hn : j.mnemonic = name) (hj : encode j = cmdWord op 0 0) :
    OpRow.Spelled ⟨name, cmdWord op 0 0, cmdWord 0xFF 0xFF 0xFFFFFFFF⟩ := by
  intro w hw
  obtain ⟨rfl, ha, hb⟩ := OpRow.selects_iff.1 hw
  rw [and_ones8] at ha
  rw [and_ones32] at hb
  exact ⟨j, hn, by rw [hj, ← ha, ← hb, cmdWord_fields]⟩

theorem OpRow.Spelled.formatS (op : BitVec 8) (f : Byte → Instr) (hn : ∀ x, (f x).mnemonic = name)
    (hf : ∀ x, encode (f x) = cmdWord op x 0) :
    OpRow.Spelled ⟨name, cmdWord op 0 0, cmdWord 0xFF 0 0xFFFFFFFF⟩ := by
  intro w hw
  obtain ⟨rfl, -, hb⟩ := OpRow.selects_iff.1 hw
  rw [and_ones32] at hb
  exact ⟨f (fieldA w), hn _, by rw [hf, ← hb, cmdWord_fields]⟩

theorem OpRow.Spelled.formatSB (op : BitVec 8) (f : Byte → BitVec 32 → Instr) (hn : ∀ x y, (f x y).mnemonic = name)
    (hf : ∀ x y, encode (f x y) = cmdWord op x y) :
    OpRow.Spelled ⟨name, cmdWord op 0 0, cmdWord 0xFF 0 0⟩ := by
  intro w hw
  obtain ⟨rfl, -, -⟩ := OpRow.selects_iff.1 hw
  exact ⟨f (fieldA w) (fieldB w), hn _ _, by rw [hf, cmdWord_fields]⟩

theorem OpRow.Spelled.formatB (op : BitVec 8) (f : BitVec 32 → Instr) (hn : ∀ y, (f y).mnemonic = name)
    (hf : ∀ y, encode (f y) = cmdWord op 0 y) :
    OpRow.Spelled ⟨name, cmdWord op 0 0, cmdWord 0xFF 0xFF 0⟩ := by
  intro w hw
  obtain ⟨rfl, ha, -⟩ := OpRow.selects_iff.1 hw
  rw [and_ones8] at ha
  exact ⟨f (fieldB w), hn _, by rw [hf, ← ha, cmdWord_fields]⟩

theorem OpRow.Spelled.formatT (op : BitVec 8) (f : Bool → Instr) (hn : ∀ bit, (f bit).mnemonic = name)
    (hf : ∀ bit, encode (f bit) = cmdWord op (bitByte bit) 0) :
    OpRow.Spelled ⟨name, cmdWord op 0 0, cmdWord 0xFF 0xFE 0xFFFFFFFF⟩ := by
  intro w hw
  obtain ⟨rfl, ha, hb⟩ := OpRow.selects_iff.1 hw
  have hhigh : (fieldA w).extractLsb' 1 7 = 0 := by
    have h7 := congrArg (BitVec.extractLsb' 1 7) ha
    rw [BitVec.extractLsb'_and] at h7
    exact (BitVec.and_allOnes (x := (fieldA w).extractLsb' 1 7)).symm.trans h7
  rw [and_ones32] at hb
  exact ⟨f ((fieldA w).getLsbD 0), hn _, by rw [hf, bitByte_of_high_zero hhigh, ← hb, cmdWord_fields]⟩

/-- Every row of R77 selects only the words of its own command. -/
theorem opRows_spelled : ∀ r ∈ opRows, r.Spelled := by
  simp only [opRows, List.forall_mem_cons]
  exact ⟨
    .formatZ 0x01 .init rfl rfl,
    .formatZ 0x02 .stat rfl rfl,
    .formatSB 0x10 .fset (fun _ _ => rfl) (fun _ _ => rfl),
    .formatS 0x11 .fcnt (fun _ => rfl) (fun _ => rfl),
    .formatS 0x12 .fget (fun _ => rfl) (fun _ => rfl),
    .formatZ 0x13 .ftot rfl rfl,
    .formatZ 0x20 .build rfl rfl,
    .formatB 0x21 .nget (fun _ => rfl) (fun _ => rfl),
    .formatZ 0x30 .gen rfl rfl,
    .formatS 0x31 .clen (fun _ => rfl) (fun _ => rfl),
    .formatSB 0x32 .cbit (fun _ _ => rfl) (fun _ _ => rfl),
    .formatT 0x40 .pbit (fun _ => rfl) encode_pbit,
    .formatS 0x41 .enc (fun _ => rfl) (fun _ => rfl),
    .formatZ 0x42 .flush rfl rfl,
    .formatZ 0x50 .dbegin rfl rfl,
    .formatS 0x51 .dec (fun _ => rfl) (fun _ => rfl),
    .formatZ 0x52 .dend rfl rfl,
    .formatZ 0x60 .olen rfl rfl,
    .formatB 0x61 .ord (fun _ => rfl) (fun _ => rfl),
    List.forall_mem_nil _⟩

/-- Every command's word selects the row of its mnemonic. -/
theorem encode_selects_row (i : Instr) : Laws.WordOfRow.Statement i := by
  cases i with
  | init => exact Laws.WordOfRow.init
  | stat => exact Laws.WordOfRow.stat
  | fset sym count => exact Laws.WordOfRow.fset sym count
  | fcnt byte => exact Laws.WordOfRow.fcnt byte
  | fget sym => exact Laws.WordOfRow.fget sym
  | ftot => exact Laws.WordOfRow.ftot
  | build => exact Laws.WordOfRow.build
  | nget idx => exact Laws.WordOfRow.nget idx
  | gen => exact Laws.WordOfRow.gen
  | clen sym => exact Laws.WordOfRow.clen sym
  | cbit sym pos => exact Laws.WordOfRow.cbit sym pos
  | pbit bit => exact Laws.WordOfRow.pbit bit
  | enc byte => exact Laws.WordOfRow.enc byte
  | flush => exact Laws.WordOfRow.flush
  | dbegin => exact Laws.WordOfRow.dbegin
  | dec byte => exact Laws.WordOfRow.dec byte
  | dend => exact Laws.WordOfRow.dend
  | olen => exact Laws.WordOfRow.olen
  | ord addr => exact Laws.WordOfRow.ord addr

theorem opRows_mnemonic_nodup : (opRows.map OpRow.mnemonic).Nodup := by decide

/-- Two rows that select one word are rows of the command the word stands for. -/
theorem opRow_unique {q : OpRow} (hr : r ∈ opRows) (hq : q ∈ opRows) (hrw : r.selects w = true)
    (hqw : q.selects w = true) : r = q := by
  obtain ⟨i, hir, hiw⟩ := opRows_spelled r hr w hrw
  obtain ⟨j, hjq, hjw⟩ := opRows_spelled q hq w hqw
  have hij : i = j := encode_injective (hiw.trans hjw.symm)
  exact List.inj_on_of_nodup_map opRows_mnemonic_nodup hr hq (by rw [← hir, hij, hjq])

/-- The row of the command a word decodes to selects the word. -/
theorem selected_of_decode {i : Instr} (h : decode w = some i) :
    ∃ r ∈ opRows, r.selects w = true ∧ r.mnemonic = i.mnemonic := by
  obtain ⟨r, hr, hn, hs⟩ := encode_selects_row i
  rw [encodeOfDecodeIsIdentity w i h] at hs
  exact ⟨r, hr, hs, hn⟩

/-- The decoder answers none exactly when no row of R77 selects the word. -/
theorem decode_eq_none_iff : decode w = none ↔ ∀ r ∈ opRows, r.selects w = false := by
  constructor
  · intro hnone r hr
    by_contra hs
    obtain ⟨i, -, hi⟩ := opRows_spelled r hr w (by simpa using hs)
    simp [decode_eq_some_iff.2 hi] at hnone
  · intro hrows
    by_contra hsome
    obtain ⟨i, hi⟩ := Option.ne_none_iff_exists'.1 hsome
    obtain ⟨r, hr, hs, -⟩ := selected_of_decode hi
    simp [hrows r hr] at hs

/-- Settles O4: the rows against the commands whose words they select. -/
theorem decoderFollowsTheOpcodeMap : Obligations.DecoderFollowsTheOpcodeMap :=
  fun _ => ⟨fun _ hr _ hq => opRow_unique hr hq, decode_eq_none_iff, fun _ => selected_of_decode⟩

theorem decode_eq_none_of_not_legalWord (h : legalWord w = false) : decode w = none :=
  decode_eq_none_iff.2 (by simpa [legalWord] using h)

end Sys2Proof
end

section
/-! PROOFS. The family of 30_encoding.md, the responses (R74, R75, R79). -/

namespace Sys2Proof.Machine

variable {i : Instr} {cfg : Config} {h g : Htc} {d : Data} {s t : State}

/-- Settles O7: no row selects an illegal word, so it decodes to no command. -/
theorem stepAnswersAnIllegalWord : Obligations.StepAnswersAnIllegalWord :=
  fun _ hw => illegalWord_of (decode_eq_none_of_not_legalWord hw)

/-- A command that completes and is no read responds 0 (R75). -/
theorem effect_data (he : effect i cfg h = .done g d) (hread : isRead i = false) : d = 0 := by
  have hf := effect_frame i he
  cases i
  case stat | fget | ftot | nget | clen | cbit | olen | ord => cases hread
  all_goals exact hf.2

/-- An illegal word is answered by one response with DATA 0, and HTC takes no further input. -/
theorem illegalWord_response (s : State) :
    s.illegalWord.inputs = s.inputs ∧ ∃ r, s.illegalWord.rsps = s.rsps ++ [r] ∧ r.data = 0 := by
  by_cases hf : s.htc.phase = .fault
  · rw [State.illegalWord_of_fault hf]
    exact ⟨rfl, _, rfl, rfl⟩
  · rw [State.illegalWord_of_alive hf]
    exact ⟨rfl, _, rfl, rfl⟩

/-- A command is answered by one response, whose DATA is 0 unless it is a read that ended with OK. -/
theorem exec_response (he : exec i s = .next t) :
    t.inputs = s.inputs ∧ ∃ r, t.rsps = s.rsps ++ [r] ∧ (r.status ≠ .ok → r.data = 0) ∧
      (isRead i = false → r.data = 0) := by
  rcases exec_cases he with ⟨_, rfl⟩ | ⟨_, rfl⟩ | ⟨c, _, _, rfl⟩ | ⟨g, d, _, hd, rfl⟩
  · exact ⟨rfl, _, rfl, fun _ => rfl, fun _ => rfl⟩
  · exact ⟨rfl, _, rfl, fun _ => rfl, fun _ => rfl⟩
  · exact ⟨rfl, _, rfl, fun _ => rfl, fun _ => rfl⟩
  · exact ⟨rfl, _, rfl, fun hok => absurd rfl hok, effect_data hd⟩

/-- Settles O15: a word is illegal or a command, and each gets one response. -/
theorem oneResponsePerWord : Obligations.OneResponsePerWord := by
  intro s t w rest hinput hstep
  rw [step_input hinput, presentInput_command] at hstep
  cases hd : decode w with
  | none =>
    rw [presentWord_illegal hd] at hstep
    cases hstep
    obtain ⟨hin, r, hr, hdata⟩ := illegalWord_response { s with inputs := rest }
    exact ⟨hin, r, hr, fun _ => hdata, nofun⟩
  | some i =>
    rw [presentWord_legal hd] at hstep
    obtain ⟨hin, r, hr, hok, hread⟩ := exec_response hstep
    refine ⟨hin, r, hr, hok, fun j hj => ?_⟩
    cases hj
    exact hread

end Sys2Proof.Machine
end

section
/-! PROOFS. The words of an opcode that its format does not accept are illegal (30_encoding.md R72, R79). -/

namespace Sys2Proof.Machine

variable {op : BitVec 8}

/-- Format Z: A or B is not 0. -/
theorem illegalWord_of_formatZ {i : Instr} (hop : ∀ a b, decodeFields op a b = formatZ a b i) (a : BitVec 8)
    (b : BitVec 32) (hab : a ≠ 0 ∨ b ≠ 0) : IllegalWord (cmdWord op a b) := by
  apply illegalWord_of
  rw [decode_cmdWord, hop, formatZ, if_neg (fun ⟨ha, hb⟩ => hab.elim (absurd ha) (absurd hb))]

/-- Format S: B is not 0. -/
theorem illegalWord_of_formatS {f : Byte → Instr} (hop : ∀ a b, decodeFields op a b = formatS a b f) (a : BitVec 8)
    (b : BitVec 32) (hb : b ≠ 0) : IllegalWord (cmdWord op a b) := by
  apply illegalWord_of
  rw [decode_cmdWord, hop, formatS, if_neg hb]

end Sys2Proof.Machine
end

section
/-! PROOFS. The counts and their sum as numbers (40_frequency.md R103, R104): the 40 bits of the total are enough. -/

namespace Sys2Proof.Machine

/-! ### The 256 byte values -/

theorem getElem_allSymbols {k : Nat} (hk : k < allSymbols.length) : allSymbols[k] = BitVec.ofNat 8 k := by
  simp [allSymbols]

@[simp] theorem length_allSymbols : allSymbols.length = 256 := by simp [allSymbols]

theorem mem_allSymbols (b : Byte) : b ∈ allSymbols :=
  List.mem_map.2 ⟨b.toNat, List.mem_range.2 b.isLt, by simp⟩

theorem allSymbols_nodup : allSymbols.Nodup := by
  refine List.nodup_range.map_on fun j hj k hk h => ?_
  have hjk := congrArg BitVec.toNat h
  rwa [BitVec.toNat_ofNat, BitVec.toNat_ofNat, Nat.mod_eq_of_lt (List.mem_range.1 hj),
    Nat.mod_eq_of_lt (List.mem_range.1 hk)] at hjk

/-- The occurrences of all byte values in a list make up the list. -/
theorem sum_count_allSymbols (bytes : List Byte) : (allSymbols.map fun v => bytes.count v).sum = bytes.length := by
  have hall : ∀ v ∈ (bytes : Multiset Byte), v ∈ allSymbols.toFinset := fun v _ =>
    List.mem_toFinset.2 (mem_allSymbols v)
  simpa only [List.sum_toFinset _ allSymbols_nodup, Multiset.coe_count, Multiset.coe_card] using
    Multiset.sum_count_eq_card hall

/-! ### The sum of the counts -/

/-- The entries of a table in index order. -/
theorem toList_eq_map_tableGet {α : Type} (t : Vector α 256) : t.toList = allSymbols.map (tableGet t) := by
  apply List.ext_getElem
  · simp
  · intro k hk _
    have hk' : k < 256 := hk.trans_eq Vector.length_toList
    rw [Vector.getElem_toList, List.getElem_map, getElem_allSymbols]
    simp [tableGet, Nat.mod_eq_of_lt hk']

/-- 256 x (2^32 - 1) = 2^40 - 256 (R104). -/
theorem sum_counts_le (freq : Vector Count 256) :
    (allSymbols.map fun b => (tableGet freq b).toNat).sum ≤ 2 ^ 40 - 256 := by
  have hentry : ∀ c ∈ allSymbols.map fun b => (tableGet freq b).toNat, c ≤ 2 ^ 32 - 1 := by
    intro c hc
    obtain ⟨b, -, rfl⟩ := List.mem_map.1 hc
    exact Nat.le_sub_one_of_lt (tableGet freq b).isLt
  calc (allSymbols.map fun b => (tableGet freq b).toNat).sum
    _ ≤ (allSymbols.map fun b => (tableGet freq b).toNat).length • (2 ^ 32 - 1) := List.sum_le_card_nsmul _ _ hentry
    _ = 2 ^ 40 - 256 := by simp

/-- Adding counts in 40 bits is exact as long as the sum fits. -/
theorem foldl_add_count_toNat (counts : List Count) (t : Total)
    (hfits : t.toNat + (counts.map BitVec.toNat).sum < 2 ^ 40) :
    (counts.foldl (fun t c => t + c.setWidth 40) t).toNat = t.toNat + (counts.map BitVec.toNat).sum := by
  induction counts generalizing t with
  | nil => simp
  | cons c counts ih =>
    rw [List.map_cons, List.sum_cons] at hfits ⊢
    have hc : (t + c.setWidth 40).toNat = t.toNat + c.toNat := by
      rw [BitVec.toNat_add, BitVec.toNat_setWidth]
      omega
    rw [List.foldl_cons, ih _ (by omega), hc, Nat.add_assoc]

/-- The total is the sum of the 256 counts (R104). -/
theorem total_toNat (freq : Vector Count 256) :
    (total freq).toNat = (allSymbols.map fun b => (tableGet freq b).toNat).sum := by
  have hsum : (freq.toList.map BitVec.toNat).sum = (allSymbols.map fun b => (tableGet freq b).toNat).sum := by
    rw [toList_eq_map_tableGet, List.map_map]
    rfl
  have hle := sum_counts_le freq
  have hzero : (0 : Total).toNat = 0 := rfl
  rw [total, foldl_add_count_toNat _ _ (by omega), hsum, hzero, Nat.zero_add]

/-- A table grown by the occurrences in a byte list has its total grown by the length of the list. -/
theorem total_add_counts {f freq : Vector Count 256} {bytes : List Byte}
    (hf : ∀ v, (tableGet f v).toNat = (tableGet freq v).toNat + bytes.count v) :
    (total f).toNat = (total freq).toNat + bytes.length := by
  simp only [total_toNat, hf, List.sum_map_add, sum_count_allSymbols]

end Sys2Proof.Machine
end

section
/-! PROOFS. The family of 40_frequency.md: FSET, FCNT, FGET, FTOT, and a list of FCNTs (R105). -/

namespace Sys2Proof.Machine

variable {s : State}

/-! ### Counting one byte (R101) -/

/-- At 2^32-1 the count stays. -/
theorem exec_fcnt_overflow {byte : Byte} (hp : s.htc.phase = .load) (hmax : (s.htc.count byte).toNat = 2 ^ 32 - 1) :
    exec (.fcnt byte) s = .next (s.faulted .freqOvf) := by
  refine exec_faulted (.fcnt byte) (by rw [hp]; rfl) ?_
  have hc : s.htc.count byte = 0xFFFFFFFF#32 := BitVec.eq_of_toNat_eq hmax
  rw [effect, fcntEffect, if_pos hc]

/-- Below 2^32-1 the count of the byte grows by one, and no other does. -/
theorem exec_fcnt_counts {byte : Byte} (hp : s.htc.phase = .load) (hlt : (s.htc.count byte).toNat ≠ 2 ^ 32 - 1) :
    ∃ f : Vector Count 256,
      (∀ b, (tableGet f b).toNat = if b = byte then (s.htc.count b).toNat + 1 else (s.htc.count b).toNat) ∧
      exec (.fcnt byte) s = .next (s.answered { s.htc with freq := f } 0) := by
  refine ⟨tableSet s.htc.freq byte (s.htc.count byte + 1), fun b => ?_, ?_⟩
  · rw [tableGet_tableSet]
    split
    · next hb =>
      rw [hb]
      have hbound := (s.htc.count byte).isLt
      have hone : (1 : Count).toNat = 1 := rfl
      rw [BitVec.toNat_add_of_lt (by omega), hone]
    · rfl
  · refine exec_answered (.fcnt byte) (by rw [hp]; rfl) ?_
    have hc : s.htc.count byte ≠ 0xFFFFFFFF#32 := fun h => hlt (by rw [h]; rfl)
    rw [effect, fcntEffect, if_neg hc]
    rfl

/-! ### Counting a list of bytes (R105) -/

theorem execAll_cons_next {i : Instr} {rest : List Instr} {t : State} (h : exec i s = .next t) :
    execAll (i :: rest) s = execAll rest t := by
  rw [execAll, h]

/-- One FCNT per byte, from a state in which no count reaches 2^32: induction over the list, from any such state. -/
theorem execAll_fcnts (bytes : List Byte) (s : State) (hp : s.htc.phase = .load)
    (hfits : ∀ v, (s.htc.count v).toNat + bytes.count v < 2 ^ 32) :
    ∃ f : Vector Count 256,
      execAll (fcnts bytes) s =
        .next { s with htc := { s.htc with freq := f }
                       rsps := s.rsps ++ List.replicate bytes.length { status := .ok, data := 0 } } ∧
      ∀ v, (tableGet f v).toNat = (s.htc.count v).toNat + bytes.count v := by
  induction bytes generalizing s with
  | nil => exact ⟨s.htc.freq, by simp [fcnts, execAll], fun _ => rfl⟩
  | cons b bytes ih =>
    have hlt : (s.htc.count b).toNat ≠ 2 ^ 32 - 1 := by
      have := hfits b
      rw [List.count_cons_self] at this
      omega
    obtain ⟨g, hg, hexec⟩ := exec_fcnt_counts hp hlt
    have hmoved : ∀ v, (tableGet g v).toNat + bytes.count v = (s.htc.count v).toNat + (b :: bytes).count v := by
      intro v
      rw [hg]
      by_cases hv : v = b
      · rw [if_pos hv, hv, List.count_cons_self]
        omega
      · rw [if_neg hv, List.count_cons_of_ne (Ne.symm hv)]
    obtain ⟨f, hrun, hf⟩ := ih (s.answered { s.htc with freq := g } 0) hp fun v => (hmoved v).trans_lt (hfits v)
    refine ⟨f, ?_, fun v => (hf v).trans (hmoved v)⟩
    rw [fcnts, List.map_cons, execAll_cons_next hexec]
    refine hrun.trans ?_
    simp [State.answered, List.replicate_succ]

/-- Settles O28: each FCNT of the list adds one to its byte's count, and the occurrences sum up to the length. -/
theorem countingConservesFrequency : Obligations.CountingConservesFrequency := by
  intro bytes s hp hfits
  obtain ⟨f, hrun, hf⟩ := execAll_fcnts bytes s hp hfits
  exact ⟨f, hrun, hf, total_add_counts hf⟩

/-- Settles O25: the two cases of a count, at 2^32-1 and below. -/
theorem fcntCountsOneByte : Obligations.FcntCountsOneByte := fun byte =>
  ⟨decodeOfEncodeIsIdentity (.fcnt byte), illegalWord_of_formatS (fun _ _ => rfl) byte,
    needsPhase_of (.fcnt byte) .load fun _ => rfl,
    fun _ hp => ⟨exec_fcnt_overflow hp, exec_fcnt_counts hp⟩⟩

/-- Settles O27: the total is the exact sum, which 64 bits of DATA hold. -/
theorem ftotSumsAllCounts : Obligations.FtotSumsAllCounts := by
  refine ⟨decodeOfEncodeIsIdentity .ftot, illegalWord_of_formatZ fun _ _ => rfl,
    needsLife_of .ftot fun _ => rfl, fun s => ⟨sum_counts_le s.htc.freq, fun hp => ?_⟩⟩
  refine ⟨(total s.htc.freq).setWidth 64, exec_answered .ftot (anyButFault_other hp) rfl, ?_⟩
  rw [BitVec.toNat_setWidth_of_le (by decide)]
  exact total_toNat s.htc.freq

/-- Settles O24: FSET writes its entry of the table, whatever the count. -/
theorem fsetWritesOneCount : Obligations.FsetWritesOneCount := fun sym count =>
  ⟨decodeOfEncodeIsIdentity (.fset sym count), needsPhase_of (.fset sym count) .load fun _ => rfl,
    fun s hp => ⟨tableSet s.htc.freq sym count, fun b => tableGet_tableSet s.htc.freq sym b count,
      exec_answered (.fset sym count) (by rw [hp]; rfl) rfl⟩⟩

/-- Settles O26: FGET answers its entry of the table, zero-extended. -/
theorem fgetReadsOneCount : Obligations.FgetReadsOneCount := fun sym =>
  ⟨decodeOfEncodeIsIdentity (.fget sym), illegalWord_of_formatS (fun _ _ => rfl) sym,
    needsLife_of (.fget sym) fun _ => rfl,
    fun s hp => ⟨(s.htc.count sym).setWidth 64, exec_answered (.fget sym) (anyButFault_other hp) rfl,
      BitVec.toNat_setWidth_of_le (by decide)⟩⟩

end Sys2Proof.Machine
end

section
/-! PROOFS. The family of 41_tree_builder.md, the priority queue (R110, R111): `extract_min` and one pass of the merge
loop (R112), as the relation of the two states of the loop. -/

namespace Sys2Proof.Machine

variable {arena : Vector Node 511} {i j : NodeIdx} {m : Merge}

/-- The comparison of the model is the order of keys on numbers. -/
theorem keyLt_iff_keyBefore : keyLt arena i j = true ↔ KeyBefore arena i j := by
  rw [keyLt_iff, KeyBefore, BitVec.lt_def]

/-- A node that is not after another in key order is before it (R110). -/
theorem keyBefore_of_not_keyLt (hne : i ≠ j) (h : keyLt arena j i = false) : KeyBefore arena i j :=
  keyLt_iff_keyBefore.1 ((keyLt_total hne).resolve_right (by simp [h]))

/-- `extract_min` on a queue with members: the least member, and the queue without it. -/
theorem exists_extractMin {pq : List NodeIdx} (hd : pq.Nodup) (hne : pq ≠ []) :
    ∃ m rest, extractMin arena pq = some (m, rest) ∧ pq.Perm (m :: rest) ∧ ∀ i ∈ rest, KeyBefore arena m i := by
  obtain ⟨i, pq', rfl⟩ := List.exists_cons_of_ne_nil hne
  obtain ⟨hmem, hrest, hleast⟩ := extractMin_some (extractMin_cons (arena := arena) i pq')
  refine ⟨_, _, extractMin_cons i pq', List.perm_cons_erase hmem, fun x hx => ?_⟩
  obtain ⟨hxm, hxq⟩ := hd.mem_erase_iff.1 hx
  exact keyBefore_of_not_keyLt hxm.symm (hleast x hxq)

/-- Settles O30: the member that `extract_min` finds has the least key, and no other has the same. -/
theorem extractMinTakesTheLeastKey : Obligations.ExtractMinTakesTheLeastKey :=
  fun _ _ => exists_extractMin

/-- m' is m after one pass: the two members l, r with the least keys, in this order, are joined under the new node,
and `rest` are the other members (R112). -/
structure Merge.Joins (m : Merge) (l r new : NodeIdx) (rest : List NodeIdx) (m' : Merge) : Prop where
  new_val : new.val = m.next
  taken   : m.pq.Perm (l :: r :: rest)
  before  : KeyBefore m.arena l r
  least   : ∀ i ∈ rest, KeyBefore m.arena r i
  arena   : m'.arena = arenaSet m.arena new (internalNode m.arena l r)
  queue   : m'.pq.Perm (new :: rest)
  next    : m'.next = m.next + 1

theorem mergeOnce_of_length_lt (h : m.pq.length < 2) : mergeOnce m = none := by
  cases hm : mergeOnce m with
  | none => rfl
  | some m' =>
    have hlen := mergeOnce_length hm
    have hpos := List.length_pos_of_ne_nil (mergeOnce_ne_nil hm)
    omega

/-- One pass, given what its two calls of `extract_min` answer. -/
theorem mergeOnce_of_extractMin {l r : NodeIdx} {pq rest : List NodeIdx} (hl : extractMin m.arena m.pq = some (l, pq))
    (hr : extractMin m.arena pq = some (r, rest)) :
    mergeOnce m = some { arena := arenaSet m.arena (Fin.ofNat 511 m.next) (internalNode m.arena l r)
                         pq    := insertPq rest (Fin.ofNat 511 m.next)
                         next  := m.next + 1 } := by
  simp only [mergeOnce, hl, hr]

/-- A queue with two members is merged. -/
theorem exists_joins (hd : m.pq.Nodup) (hlen : 2 ≤ m.pq.length) (hnext : m.next < 511) :
    ∃ l r new rest m', mergeOnce m = some m' ∧ m.Joins l r new rest m' := by
  obtain ⟨l, pq1, hl, hpl, hleast⟩ := exists_extractMin (arena := m.arena) hd (List.ne_nil_of_length_pos (by omega))
  have hlen1 : m.pq.length = pq1.length + 1 := hpl.length_eq
  have hd1 : pq1.Nodup := (List.nodup_cons.1 (hpl.nodup hd)).2
  obtain ⟨r, rest, hr, hpr, hleast1⟩ :=
    exists_extractMin (arena := m.arena) hd1 (List.ne_nil_of_length_pos (by omega))
  have hnew : Fin.ofNat 511 m.next = ⟨m.next, hnext⟩ := Fin.ext (Nat.mod_eq_of_lt hnext)
  refine ⟨l, r, ⟨m.next, hnext⟩, rest, _, mergeOnce_of_extractMin hl hr, ?_⟩
  exact {
    new_val := rfl
    taken := hpl.trans (hpr.cons l)
    before := hleast r (hpr.mem_iff.2 List.mem_cons_self)
    least := hleast1
    arena := by rw [hnew]
    queue := by rw [hnew]; exact List.perm_append_singleton _ rest
    next := rfl }

/-- Settles O31: a pass extracts the least key twice; the arena of the loop changes at `next` alone. -/
theorem mergeJoinsTheTwoLeast : Obligations.MergeJoinsTheTwoLeast := by
  refine fun m hd => ⟨mergeOnce_of_length_lt, fun hlen hnext => ?_⟩
  obtain ⟨l, r, new, rest, m', hm, hj⟩ := exists_joins hd hlen hnext
  refine ⟨l, r, new, rest, m', hm, hj.new_val, hj.taken, hj.before, hj.least, hj.queue, hj.next, fun i => ?_⟩
  rw [hj.arena, arenaGet_arenaSet, internalNode]

end Sys2Proof.Machine
end

section
/-! PROOFS. The merge loop of BUILD (41_tree_builder.md R112): what every state of it has in common, from which the shape
of the tree follows (R117). -/

namespace Sys2Proof.Machine

variable {arena : Vector Node 511} {freq : Vector Count 256} {m m' : Merge} {l r new i j c : NodeIdx}
  {rest : List NodeIdx} {n : Node} {b : Byte}

/-! ### The arena before the merges -/

theorem arenaGet_leafArena_present (hb : b ∈ present freq) : arenaGet (leafArena freq) (leafIdx b) =
    { v := true, leaf := true, f := (tableGet freq b).setWidth 40, left := 0, right := 0 } := by
  rw [arenaGet_leafArena_leafIdx, leafNode, if_neg (mem_present.1 hb)]

theorem arenaGet_leafArena_absent (hi : ¬ ∃ b ∈ present freq, i = leafIdx b) :
    arenaGet (leafArena freq) i = Node.zero := by
  by_cases hlow : i.val < 256
  · have habsent : tableGet freq (idxByte i) = 0 := by
      by_contra hc
      exact hi ⟨idxByte i, mem_present.2 hc, (leafIdx_idxByte hlow).symm⟩
    rw [← leafIdx_idxByte hlow, arenaGet_leafArena_leafIdx, leafNode, if_pos habsent]
  · exact arenaGet_leafArena_high freq (by omega)

/-- The valid entries are those of the present symbols. -/
theorem leafArena_valid_iff : (arenaGet (leafArena freq) i).v = true ↔ ∃ b ∈ present freq, i = leafIdx b := by
  refine ⟨fun hv => ?_, ?_⟩
  · by_contra hi
    rw [arenaGet_leafArena_absent hi] at hv
    cases hv
  · rintro ⟨b, hb, rfl⟩
    rw [arenaGet_leafArena_present hb]

/-- They are leaves: no entry is an internal node. -/
theorem leafArena_leaf (hv : (arenaGet (leafArena freq) i).v = true) : (arenaGet (leafArena freq) i).leaf = true := by
  obtain ⟨b, hb, rfl⟩ := leafArena_valid_iff.1 hv
  rw [arenaGet_leafArena_present hb]

theorem leafArena_not_childOf : ¬ ChildOf (leafArena freq) j c := by
  rintro ⟨hv, hleaf, -⟩
  exact Bool.false_ne_true (hleaf.symm.trans (leafArena_leaf hv))

/-- The total is the sum over the present symbols (40_frequency.md R104). -/
theorem total_toNat_eq_sum_present (freq : Vector Count 256) :
    (total freq).toNat = ((present freq).map fun b => (tableGet freq b).toNat).sum := by
  have hpresent : (present freq).toFinset = {b ∈ allSymbols.toFinset | (tableGet freq b).toNat ≠ 0} := by
    ext b
    simp [mem_present, mem_allSymbols, ← BitVec.toNat_inj]
  rw [total_toNat, ← List.sum_toFinset _ allSymbols_nodup, ← List.sum_toFinset _ (present_nodup freq), hpresent,
    Finset.sum_filter_ne_zero]

/-! ### A new internal node in a free entry -/

theorem keyBefore_ne (h : KeyBefore arena i j) : i ≠ j := by
  rintro rfl
  rcases h with h | h
  · exact Nat.lt_irrefl _ h
  · exact lt_irrefl _ h.2

theorem keyBefore_arenaSet (hi : i ≠ new) (hj : j ≠ new) :
    KeyBefore (arenaSet arena new n) i j ↔ KeyBefore arena i j := by
  simp only [KeyBefore, arenaGet_arenaSet_other _ _ hi, arenaGet_arenaSet_other _ _ hj]

/-- The new node has its two children; every other node has the children it had. -/
theorem childOf_arenaSet_internalNode (hfree : (arenaGet arena new).v = false) :
    ChildOf (arenaSet arena new (internalNode arena l r)) j c ↔
      (j = new ∧ (l = c ∨ r = c)) ∨ ChildOf arena j c := by
  by_cases hj : j = new
  · subst hj
    simp [ChildOf, internalNode, hfree]
  · simp only [ChildOf, arenaGet_arenaSet_other _ _ hj, hj, false_and, false_or]

/-- The children of node j are older than j and in key order, and j has the sum of their frequencies (R117 (c)). -/
structure JoinedAt (arena : Vector Node 511) (j : NodeIdx) : Prop where
  left_lt  : (arenaGet arena j).left < j
  right_lt : (arenaGet arena j).right < j
  before   : KeyBefore arena (arenaGet arena j).left (arenaGet arena j).right
  sum      : (arenaGet arena j).f.toNat =
    (arenaGet arena (arenaGet arena j).left).f.toNat + (arenaGet arena (arenaGet arena j).right).f.toNat

/-- A node that the children of j are not does not matter to j. -/
theorem JoinedAt.arenaSet_other (h : JoinedAt arena j) (hj : j ≠ new) (hl : (arenaGet arena j).left ≠ new)
    (hr : (arenaGet arena j).right ≠ new) : JoinedAt (arenaSet arena new n) j := by
  obtain ⟨hleft, hright, hbefore, hsum⟩ := h
  constructor <;> rw [arenaGet_arenaSet_other _ _ hj]
  · exact hleft
  · exact hright
  · exact (keyBefore_arenaSet hl hr).2 hbefore
  · rw [arenaGet_arenaSet_other _ _ hl, arenaGet_arenaSet_other _ _ hr]
    exact hsum

/-! ### The invariant of the merge loop -/

/-- The frequencies of the members of the queue, summed up. -/
def Merge.weight (m : Merge) : Nat := (m.pq.map fun i => (arenaGet m.arena i).f.toNat).sum

/-- What every state of the merge loop over the leaves of a frequency table keeps: the arena holds a forest, whose roots
are the members of the queue. -/
structure Merge.Forest (freq : Vector Count 256) (m : Merge) : Prop where
  sound    : m.Sound
  nodup    : m.pq.Nodup
  next_ge  : 256 ≤ m.next
  count    : m.next + m.pq.length = 256 + (present freq).length
  newest   : 256 < m.next → ∃ i ∈ m.pq, i.val + 1 = m.next
  valid    : ∀ i : NodeIdx, (arenaGet m.arena i).v = true ↔
    (∃ b ∈ present freq, i = leafIdx b) ∨ (256 ≤ i.val ∧ i.val < m.next)
  leaves   : ∀ b ∈ present freq, arenaGet m.arena (leafIdx b) =
    { v := true, leaf := true, f := (tableGet freq b).setWidth 40, left := 0, right := 0 }
  internal : ∀ i : NodeIdx, 256 ≤ i.val → (arenaGet m.arena i).leaf = false
  unused   : ∀ i : NodeIdx, (arenaGet m.arena i).v = false → arenaGet m.arena i = Node.zero
  joined   : ∀ j, (arenaGet m.arena j).v = true → (arenaGet m.arena j).leaf = false → JoinedAt m.arena j
  fresh    : ∀ i ∈ m.pq, ∀ j, ¬ ChildOf m.arena j i
  owned    : ∀ i, (arenaGet m.arena i).v = true → i ∉ m.pq → ∃! j, ChildOf m.arena j i
  weight   : m.weight = (total freq).toNat

/-- Before the merges, every present symbol's leaf is a root. -/
theorem mergeStart_forest (freq : Vector Count 256) : (mergeStart freq).Forest freq where
  sound := mergeStart_sound freq
  nodup := (present_nodup freq).map fun _ _ h => leafIdx_inj h
  next_ge := le_rfl
  count := by simp [mergeStart]
  newest := fun h => absurd h (lt_irrefl _)
  valid := fun i => leafArena_valid_iff.trans (or_iff_left fun h => absurd (h.1.trans_lt h.2) (lt_irrefl _)).symm
  leaves := fun _ hb => arenaGet_leafArena_present hb
  internal := fun i hi => congrArg Node.leaf (arenaGet_leafArena_high freq hi)
  unused := fun i hv => arenaGet_leafArena_absent fun h =>
    Bool.false_ne_true (hv.symm.trans (leafArena_valid_iff.2 h))
  joined := fun j hv hleaf => absurd (hleaf.symm.trans (leafArena_leaf hv)) Bool.false_ne_true
  fresh := fun _ _ _ => leafArena_not_childOf
  owned := fun i hv hi => by
    obtain ⟨b, hb, rfl⟩ := leafArena_valid_iff.1 hv
    exact absurd (List.mem_map_of_mem hb) hi
  weight := by
    have hf : ∀ b ∈ present freq, (arenaGet (leafArena freq) (leafIdx b)).f.toNat = (tableGet freq b).toNat := by
      intro b hb
      rw [arenaGet_leafArena_present hb]
      exact BitVec.toNat_setWidth_of_le (by decide)
    rw [total_toNat_eq_sum_present, Merge.weight, mergeStart, List.map_map]
    exact congrArg List.sum (List.map_congr_left hf)

/-! ### One pass keeps the invariant -/

namespace Merge.Joins

theorem get_new (hj : m.Joins l r new rest m') : arenaGet m'.arena new = internalNode m.arena l r := by
  rw [hj.arena, arenaGet_arenaSet_same]

theorem get_other (hj : m.Joins l r new rest m') (hi : i ≠ new) : arenaGet m'.arena i = arenaGet m.arena i := by
  rw [hj.arena, arenaGet_arenaSet_other _ _ hi]

theorem left_mem (hj : m.Joins l r new rest m') : l ∈ m.pq := hj.taken.mem_iff.2 (by simp)
theorem right_mem (hj : m.Joins l r new rest m') : r ∈ m.pq := hj.taken.mem_iff.2 (by simp)

theorem mem_rest_iff (hj : m.Joins l r new rest m') (hd : m.pq.Nodup) : i ∈ rest ↔ i ∈ m.pq ∧ i ≠ l ∧ i ≠ r := by
  have hd' := hj.taken.nodup hd
  rw [hj.taken.mem_iff]
  simp only [List.nodup_cons, List.mem_cons, not_or] at hd' ⊢
  obtain ⟨⟨-, hl⟩, hr, -⟩ := hd'
  exact ⟨fun hi => ⟨.inr (.inr hi), fun e => hl (e ▸ hi), fun e => hr (e ▸ hi)⟩,
    fun ⟨h, hil, hir⟩ => (h.resolve_left hil).resolve_left hir⟩

theorem mem_queue_iff (hj : m.Joins l r new rest m') : i ∈ m'.pq ↔ i = new ∨ i ∈ rest := by
  rw [hj.queue.mem_iff, List.mem_cons]

end Merge.Joins

namespace Merge.Forest

variable (hs : m.Forest freq)
include hs

/-- Valid entries stand below `next`. -/
theorem val_lt_next (hv : (arenaGet m.arena i).v = true) : i.val < m.next := by
  rcases (hs.valid i).1 hv with ⟨b, -, rfl⟩ | ⟨-, h⟩
  · have hnext := hs.next_ge
    have hb := b.isLt
    rw [leafIdx_val]
    omega
  · exact h

variable (hj : m.Joins l r new rest m')
include hj

/-- `next` is a free entry. -/
theorem new_free : (arenaGet m.arena new).v = false :=
  Bool.eq_false_iff.2 fun hv => absurd (hs.val_lt_next hv) (by rw [hj.new_val]; exact lt_irrefl _)

theorem ne_new (hv : (arenaGet m.arena i).v = true) : i ≠ new := by
  rintro rfl
  exact Bool.false_ne_true ((hs.new_free hj).symm.trans hv)

theorem left_ne_new : l ≠ new := hs.ne_new hj (hs.sound.queued l hj.left_mem)
theorem right_ne_new : r ≠ new := hs.ne_new hj (hs.sound.queued r hj.right_mem)

theorem rest_valid (hi : i ∈ rest) : (arenaGet m.arena i).v = true :=
  hs.sound.queued i ((hj.mem_rest_iff hs.nodup).1 hi).1

theorem childOf_iff : ChildOf m'.arena j c ↔ (j = new ∧ (l = c ∨ r = c)) ∨ ChildOf m.arena j c := by
  rw [hj.arena, childOf_arenaSet_internalNode (hs.new_free hj)]

/-- The frequency of the new node does not wrap: the total bounds the frequencies in the queue. -/
theorem new_freq : (internalNode m.arena l r).f.toNat = (arenaGet m.arena l).f.toNat + (arenaGet m.arena r).f.toNat := by
  have hsum : m.weight = _ := (hj.taken.map fun i => (arenaGet m.arena i).f.toNat).sum_eq
  have hlt := (total freq).isLt
  rw [hs.weight, List.map_cons, List.map_cons, List.sum_cons, List.sum_cons] at hsum
  exact BitVec.toNat_add_of_lt (by omega)

theorem merged_weight : m'.weight = m.weight := by
  have hrest : ∀ i ∈ rest, (arenaGet m'.arena i).f.toNat = (arenaGet m.arena i).f.toNat := fun i hi => by
    rw [hj.get_other (hs.ne_new hj (hs.rest_valid hj hi))]
  calc m'.weight
    _ = ((new :: rest).map fun i => (arenaGet m'.arena i).f.toNat).sum := (hj.queue.map _).sum_eq
    _ = (arenaGet m.arena l).f.toNat + (arenaGet m.arena r).f.toNat +
          (rest.map fun i => (arenaGet m.arena i).f.toNat).sum := by
        rw [List.map_cons, List.sum_cons, hj.get_new, hs.new_freq hj, List.map_congr_left hrest]
    _ = ((l :: r :: rest).map fun i => (arenaGet m.arena i).f.toNat).sum := by
        rw [List.map_cons, List.map_cons, List.sum_cons, List.sum_cons, Nat.add_assoc]
    _ = m.weight := (hj.taken.map _).sum_eq.symm

theorem merged_nodup : m'.pq.Nodup := by
  refine hj.queue.symm.nodup (List.nodup_cons.2 ⟨fun hmem => ?_, ?_⟩)
  · exact hs.ne_new hj (hs.rest_valid hj hmem) rfl
  · exact (List.nodup_cons.1 (List.nodup_cons.1 (hj.taken.nodup hs.nodup)).2).2

theorem merged_valid (i : NodeIdx) : (arenaGet m'.arena i).v = true ↔
    (∃ b ∈ present freq, i = leafIdx b) ∨ (256 ≤ i.val ∧ i.val < m'.next) := by
  have hnew := hj.new_val
  have hge := hs.next_ge
  rw [hj.next]
  by_cases hi : i = new
  · rw [hi, hj.get_new]
    exact iff_of_true rfl (.inr (by omega))
  · have hne : i.val ≠ m.next := fun h => hi (Fin.ext (h.trans hnew.symm))
    have hbound : i.val < m.next + 1 ↔ i.val < m.next := by omega
    rw [hj.get_other hi, hs.valid, hbound]

theorem merged_joined (hv : (arenaGet m'.arena j).v = true) (hleaf : (arenaGet m'.arena j).leaf = false) :
    JoinedAt m'.arena j := by
  by_cases hjn : j = new
  · subst hjn
    have hl := hs.left_ne_new hj
    have hr := hs.right_ne_new hj
    constructor <;> rw [hj.get_new]
    · exact (hs.val_lt_next (hs.sound.queued l hj.left_mem)).trans_eq hj.new_val.symm
    · exact (hs.val_lt_next (hs.sound.queued r hj.right_mem)).trans_eq hj.new_val.symm
    · rw [hj.arena]
      exact (keyBefore_arenaSet hl hr).2 hj.before
    · rw [hs.new_freq hj]
      exact congrArg₂ (fun x y => x.f.toNat + y.f.toNat) (hj.get_other hl).symm (hj.get_other hr).symm
  · rw [hj.get_other hjn] at hv hleaf
    obtain ⟨hl, hr⟩ := hs.sound.closed j hv hleaf
    rw [hj.arena]
    exact (hs.joined j hv hleaf).arenaSet_other hjn (hs.ne_new hj hl) (hs.ne_new hj hr)

/-- A member of the new queue has no parent: the new node is in no child field, and l and r have left the queue. -/
theorem merged_fresh (hi : i ∈ m'.pq) : ¬ ChildOf m'.arena j i := by
  rw [hs.childOf_iff hj]
  rcases hj.mem_queue_iff.1 hi with rfl | hrest
  · rintro (⟨-, hl | hr⟩ | ⟨hv, hleaf, hchild⟩)
    · exact hs.left_ne_new hj hl
    · exact hs.right_ne_new hj hr
    · obtain ⟨hl, hr⟩ := hs.sound.closed j hv hleaf
      exact hchild.elim (hs.ne_new hj hl) (hs.ne_new hj hr)
  · obtain ⟨hmem, hil, hir⟩ := (hj.mem_rest_iff hs.nodup).1 hrest
    rintro (⟨-, hl | hr⟩ | hchild)
    · exact hil hl.symm
    · exact hir hr.symm
    · exact hs.fresh i hmem j hchild

/-- A node outside the new queue has one parent: the new node if it was taken, else the parent it had. -/
theorem merged_owned (hv : (arenaGet m'.arena i).v = true) (hi : i ∉ m'.pq) : ∃! j, ChildOf m'.arena j i := by
  rw [hj.mem_queue_iff, not_or] at hi
  obtain ⟨hin, hirest⟩ := hi
  rw [hj.get_other hin] at hv
  by_cases hmem : i ∈ m.pq
  · have htaken : l = i ∨ r = i := by
      by_contra hc
      rw [not_or] at hc
      exact hirest ((hj.mem_rest_iff hs.nodup).2 ⟨hmem, Ne.symm hc.1, Ne.symm hc.2⟩)
    refine ⟨new, (hs.childOf_iff hj).2 (.inl ⟨rfl, htaken⟩), fun k hk => ?_⟩
    exact ((hs.childOf_iff hj).1 hk).elim And.left fun h => absurd h (hs.fresh i hmem k)
  · obtain ⟨p, hp, hunique⟩ := hs.owned i hv hmem
    refine ⟨p, (hs.childOf_iff hj).2 (.inr hp), fun k hk => ?_⟩
    rcases (hs.childOf_iff hj).1 hk with ⟨-, rfl | rfl⟩ | hk
    · exact absurd hj.left_mem hmem
    · exact absurd hj.right_mem hmem
    · exact hunique k hk

theorem merged_leaves (hb : b ∈ present freq) : arenaGet m'.arena (leafIdx b) =
    { v := true, leaf := true, f := (tableGet freq b).setWidth 40, left := 0, right := 0 } := by
  have hv : (arenaGet m.arena (leafIdx b)).v = true := (hs.valid _).2 (.inl ⟨b, hb, rfl⟩)
  rw [hj.get_other (hs.ne_new hj hv), hs.leaves b hb]

theorem merged_internal (hi : 256 ≤ i.val) : (arenaGet m'.arena i).leaf = false := by
  by_cases hin : i = new
  · rw [hin, hj.get_new]
    rfl
  · rw [hj.get_other hin]
    exact hs.internal i hi

theorem merged_unused (hv : (arenaGet m'.arena i).v = false) : arenaGet m'.arena i = Node.zero := by
  have hin : i ≠ new := by
    rintro rfl
    rw [hj.get_new] at hv
    cases hv
  rw [hj.get_other hin] at hv ⊢
  exact hs.unused i hv

end Merge.Forest

/-- One pass keeps the invariant. The queue has two members, so `next` is at most 510: the arena has room. -/
theorem mergeOnce_forest (hs : m.Forest freq) (h : mergeOnce m = some m') : m'.Forest freq := by
  have hlen := mergeOnce_length h
  have hpos := List.length_pos_of_ne_nil (mergeOnce_ne_nil h)
  have hcount := hs.count
  have hn := present_length_le freq
  obtain ⟨l, r, new, rest, m₁, h₁, hj⟩ := exists_joins hs.nodup (by omega) (by omega)
  obtain rfl : m₁ = m' := Option.some.inj (h₁.symm.trans h)
  have hnext := hj.next
  exact {
    sound := mergeOnce_sound hs.sound h
    nodup := hs.merged_nodup hj
    next_ge := by have := hs.next_ge; omega
    count := by omega
    newest := fun _ => ⟨new, hj.mem_queue_iff.2 (.inl rfl), by rw [hj.new_val, hnext]⟩
    valid := hs.merged_valid hj
    leaves := fun _ => hs.merged_leaves hj
    internal := fun _ => hs.merged_internal hj
    unused := fun _ => hs.merged_unused hj
    joined := fun _ => hs.merged_joined hj
    fresh := fun _ hi _ => hs.merged_fresh hj hi
    owned := fun _ => hs.merged_owned hj
    weight := (hs.merged_weight hj).trans hs.weight }

end Sys2Proof.Machine
end

section
/-! PROOFS. The tree BUILD leaves (41_tree_builder.md R112): it has the shape of R117. -/

namespace Sys2Proof.Machine

variable {freq : Vector Count 256}

/-! ### The end of the merge loop -/

/-- The variables after the merge loop of BUILD. -/
def builtMerge (freq : Vector Count 256) : Merge := mergeLoop 255 (mergeStart freq)

theorem buildTree_node (freq : Vector Count 256) : (buildTree freq).node = (builtMerge freq).arena := rfl
theorem buildTree_rootv_iff : (buildTree freq).rootv = true ↔ (builtMerge freq).pq.length = 1 := decide_eq_true_iff

theorem builtMerge_forest (freq : Vector Count 256) : (builtMerge freq).Forest freq :=
  mergeLoop_induct (fun _ _ hs h => mergeOnce_forest hs h) 255 (mergeStart freq) (mergeStart_forest freq)

/-- The queue ends empty over the empty table, else with one member. -/
theorem builtMerge_length (freq : Vector Count 256) :
    (builtMerge freq).pq.length = if 1 ≤ (present freq).length then 1 else 0 := by
  split
  · next hn =>
    have hstart : (mergeStart freq).pq.length = (present freq).length := List.length_map _
    have hle := present_length_le freq
    exact mergeLoop_length 255 (List.ne_nil_of_length_pos (by omega)) (by omega)
  · next hn =>
    have hcount := (builtMerge_forest freq).count
    have hge := (builtMerge_forest freq).next_ge
    omega

/-- As many internal nodes as merges: one fewer than leaves, none over the empty table. -/
theorem builtMerge_next (freq : Vector Count 256) : (builtMerge freq).next = 256 + ((present freq).length - 1) := by
  have hcount := (builtMerge_forest freq).count
  have hlen := builtMerge_length freq
  split at hlen <;> omega

theorem buildTree_root_of_queue {r : NodeIdx} (h : (builtMerge freq).pq = [r]) : (buildTree freq).root = r := by
  rw [builtMerge] at h
  simp only [buildTree, h]

/-- With a symbol present, the root is the one member left. -/
theorem builtMerge_queue (hn : 1 ≤ (present freq).length) : (builtMerge freq).pq = [(buildTree freq).root] := by
  have hlen := builtMerge_length freq
  rw [if_pos hn] at hlen
  obtain ⟨r, hr⟩ := List.length_eq_one_iff.1 hlen
  rw [buildTree_root_of_queue hr, hr]

theorem builtMerge_queue_nil (hn : present freq = []) : (builtMerge freq).pq = [] := by
  have hlen := builtMerge_length freq
  rw [hn] at hlen
  exact List.length_eq_zero_iff.1 hlen

/-- Only the root is ever left in the queue. -/
theorem eq_root_of_mem_queue {i : NodeIdx} (hi : i ∈ (builtMerge freq).pq) : i = (buildTree freq).root := by
  by_cases hn : 1 ≤ (present freq).length
  · rw [builtMerge_queue hn] at hi
    exact List.mem_singleton.1 hi
  · rw [builtMerge_queue_nil (List.length_eq_zero_iff.1 (by omega))] at hi
    cases hi

theorem buildTree_rootv_iff_present : (buildTree freq).rootv = true ↔ 1 ≤ (present freq).length := by
  rw [buildTree_rootv_iff, builtMerge_length]
  by_cases hn : 1 ≤ (present freq).length <;> simp [hn]

/-! ### The shape of the tree (R117) -/

theorem buildTree_nleaf (freq : Vector Count 256) : (buildTree freq).nleaf.toNat = (present freq).length := by
  have hle := present_length_le freq
  exact Nat.mod_eq_of_lt (by omega)

theorem buildTree_nint (freq : Vector Count 256) : (buildTree freq).nint.toNat = (present freq).length - 1 := by
  have hle := present_length_le freq
  have hnint : (buildTree freq).nint = BitVec.ofNat 8 ((builtMerge freq).next - 256) := rfl
  rw [hnint, builtMerge_next, BitVec.toNat_ofNat]
  omega

theorem buildTree_rootMany (hn : 2 ≤ (present freq).length) :
    (buildTree freq).root.val = 255 + ((present freq).length - 1) := by
  have hnext := builtMerge_next freq
  obtain ⟨i, hi, hlast⟩ := (builtMerge_forest freq).newest (by omega)
  rw [← eq_root_of_mem_queue hi]
  omega

theorem buildTree_rootOne {b : Byte} (hb : present freq = [b]) : (buildTree freq).root = leafIdx b := by
  have hqueue := builtMerge_queue (freq := freq) (by simp [hb])
  have hv := (builtMerge_forest freq).sound.queued (buildTree freq).root (by simp [hqueue])
  rw [(builtMerge_forest freq).valid, builtMerge_next, hb] at hv
  rcases hv with ⟨c, hc, hroot⟩ | ⟨hge, hlt⟩
  · rw [hroot, List.mem_singleton.1 hc]
  · exact absurd hlt (by simpa using hge)

theorem buildTree_rootNone (hn : present freq = []) : (buildTree freq).root = 0 := by
  have hqueue := builtMerge_queue_nil hn
  rw [builtMerge] at hqueue
  simp only [buildTree, hqueue]

theorem buildTree_rootFreq (hn : 1 ≤ (present freq).length) :
    (arenaGet (buildTree freq).node (buildTree freq).root).f = total freq := by
  have hweight := (builtMerge_forest freq).weight
  rw [Merge.weight, builtMerge_queue hn, List.map_singleton, List.sum_singleton] at hweight
  rw [buildTree_node]
  exact BitVec.eq_of_toNat_eq hweight

/-- The tree of every frequency table has the shape of R117 (a) to (g). -/
theorem buildTree_shape (freq : Vector Count 256) : TreeShape freq (buildTree freq) := by
  have hs := builtMerge_forest freq
  have hv := hs.valid
  rw [builtMerge_next] at hv
  exact {
    nleaf := buildTree_nleaf freq
    nint := buildTree_nint freq
    valid := hv
    leaves := hs.leaves
    internal := hs.internal
    unused := hs.unused
    children := fun j hj hleaf =>
      have hjoin := hs.joined j hj hleaf
      have hclosed := hs.sound.closed j hj hleaf
      ⟨hjoin.left_lt, hjoin.right_lt, keyBefore_ne hjoin.before, hclosed.1, hclosed.2, hjoin.sum, hjoin.before⟩
    parent := fun i hi hroot => hs.owned i hi fun hmem => hroot (eq_root_of_mem_queue hmem)
    rootTop := fun hr => hs.fresh _ (by simp [builtMerge_queue (buildTree_rootv_iff_present.1 hr)])
    rootv := buildTree_rootv_iff_present
    rootMany := buildTree_rootMany
    rootOne := fun _ => buildTree_rootOne
    rootNone := buildTree_rootNone
    rootFreq := fun hr => buildTree_rootFreq (buildTree_rootv_iff_present.1 hr) }

end Sys2Proof.Machine
end

section
/-! PROOFS. The paths of a tree of the shape of 41_tree_builder.md R117: every node has exactly one (R117 (h)). -/

namespace Sys2Proof.Machine

variable {arena : Vector Node 511} {freq : Vector Count 256} {t : Tree} {root i j : NodeIdx} {p q : BitString}

/-- The child of a node on a branch: right on 1, left on 0 (42_codebook.md R130). -/
def childOn (arena : Vector Node 511) (j : NodeIdx) (b : Bool) : NodeIdx :=
  if b then (arenaGet arena j).right else (arenaGet arena j).left

theorem PathTo.snoc (h : PathTo arena root j p) (hleaf : (arenaGet arena j).leaf = false) (b : Bool) :
    PathTo arena root (childOn arena j b) (p ++ [b]) := by
  cases b with
  | false => exact .left h hleaf
  | true => exact .right h hleaf

/-- A path is empty, at the root, or a path to a parent and one more branch. -/
theorem PathTo.cases_snoc (h : PathTo arena root i q) :
    (i = root ∧ q = []) ∨ ∃ j p b, PathTo arena root j p ∧ (arenaGet arena j).leaf = false ∧
      i = childOn arena j b ∧ q = p ++ [b] := by
  cases h with
  | root => exact .inl ⟨rfl, rfl⟩
  | left hj hleaf => exact .inr ⟨_, _, false, hj, hleaf, rfl, rfl⟩
  | right hj hleaf => exact .inr ⟨_, _, true, hj, hleaf, rfl, rfl⟩

/-- Induction over a path, one case for both branches. -/
theorem PathTo.induct_snoc {top : NodeIdx} {P : (i : NodeIdx) → (q : BitString) → PathTo arena top i q → Prop}
    (root : P top [] .root)
    (snoc : ∀ j p b (h : PathTo arena top j p) (hleaf : (arenaGet arena j).leaf = false), P j p h →
      P (childOn arena j b) (p ++ [b]) (h.snoc hleaf b))
    {i : NodeIdx} {q : BitString} (h : PathTo arena top i q) : P i q h := by
  induction h with
  | root => exact root
  | left h hleaf ih => exact snoc _ _ false h hleaf ih
  | right h hleaf ih => exact snoc _ _ true h hleaf ih

theorem childOf_childOn (hv : (arenaGet arena j).v = true) (hleaf : (arenaGet arena j).leaf = false) (b : Bool) :
    ChildOf arena j (childOn arena j b) := by
  cases b with
  | false => exact ⟨hv, hleaf, .inl rfl⟩
  | true => exact ⟨hv, hleaf, .inr rfl⟩

theorem exists_childOn_of_childOf (h : ChildOf arena j i) : ∃ b, i = childOn arena j b := by
  obtain ⟨-, -, h | h⟩ := h
  · exact ⟨false, h.symm⟩
  · exact ⟨true, h.symm⟩

/-! ### A tree with a root -/

namespace TreeShape

variable (ht : TreeShape freq t)
include ht

theorem child_valid (hv : (arenaGet t.node j).v = true) (hleaf : (arenaGet t.node j).leaf = false) (b : Bool) :
    (arenaGet t.node (childOn t.node j b)).v = true := by
  obtain ⟨-, -, -, hl, hr, -⟩ := ht.children j hv hleaf
  cases b with
  | false => exact hl
  | true => exact hr

theorem child_lt (hv : (arenaGet t.node j).v = true) (hleaf : (arenaGet t.node j).leaf = false) (b : Bool) :
    childOn t.node j b < j := by
  obtain ⟨hl, hr, -⟩ := ht.children j hv hleaf
  cases b with
  | false => exact hl
  | true => exact hr

theorem childOn_inj (hv : (arenaGet t.node j).v = true) (hleaf : (arenaGet t.node j).leaf = false) {b c : Bool}
    (h : childOn t.node j b = childOn t.node j c) : b = c := by
  obtain ⟨-, -, hne, -⟩ := ht.children j hv hleaf
  cases b <;> cases c
  case false.true => exact absurd h hne
  case true.false => exact absurd h.symm hne
  all_goals rfl

theorem root_valid (hn : 1 ≤ (present freq).length) : (arenaGet t.node t.root).v = true := by
  rw [ht.valid]
  by_cases hone : (present freq).length = 1
  · obtain ⟨b, hb⟩ := List.length_eq_one_iff.1 hone
    exact .inl ⟨b, by simp [hb], ht.rootOne b hb⟩
  · have hroot := ht.rootMany (by omega)
    exact .inr (by omega)

/-- A valid node that is no leaf is one of the merged ones (R117 (b)). -/
theorem internal_ge (hv : (arenaGet t.node j).v = true) (hleaf : (arenaGet t.node j).leaf = false) : 256 ≤ j.val := by
  rcases (ht.valid j).1 hv with ⟨b, hb, rfl⟩ | ⟨hge, -⟩
  · rw [ht.leaves b hb] at hleaf
    cases hleaf
  · exact hge

/-- Every path leads to a valid node, over nodes of ever lower index (R117 (c)). -/
theorem path_valid_and_le (hn : 1 ≤ (present freq).length) (hp : PathTo t.node t.root i p) :
    (arenaGet t.node i).v = true ∧ i.val + p.length ≤ t.root.val := by
  induction hp using PathTo.induct_snoc with
  | root => exact ⟨ht.root_valid hn, le_rfl⟩
  | snoc j p b _ hleaf ih =>
    obtain ⟨hv, hle⟩ := ih
    have hlt : (childOn t.node j b).val < j.val := ht.child_lt hv hleaf b
    refine ⟨ht.child_valid hv hleaf b, ?_⟩
    rw [List.length_append, List.length_singleton]
    omega

/-- A path has at most as many branches as there are internal nodes. -/
theorem path_length_le (hn : 1 ≤ (present freq).length) (hp : PathTo t.node t.root i p) :
    p.length ≤ (present freq).length - 1 := by
  rcases hp.cases_snoc with ⟨-, rfl⟩ | ⟨j, p, b, hj, hleaf, -, rfl⟩
  · exact Nat.zero_le _
  · obtain ⟨hv, hle⟩ := ht.path_valid_and_le hn hj
    have hge := ht.internal_ge hv hleaf
    have hmany : 2 ≤ (present freq).length := by
      by_contra hc
      obtain ⟨c, hc⟩ := List.length_eq_one_iff.1 (show (present freq).length = 1 by omega)
      have hroot : t.root.val = c.toNat := congrArg Fin.val (ht.rootOne c hc)
      have hlt := c.isLt
      omega
    have hroot := ht.rootMany hmany
    rw [List.length_append, List.length_singleton]
    omega

/-- Every valid node has a path: its parent, of higher index, has one. -/
theorem exists_path (hv : (arenaGet t.node i).v = true) : ∃ p, PathTo t.node t.root i p := by
  induction i using WellFoundedGT.induction with
  | ind i ih =>
    by_cases hroot : i = t.root
    · exact ⟨[], hroot ▸ .root⟩
    · obtain ⟨j, hchild, -⟩ := ht.parent i hv hroot
      obtain ⟨b, rfl⟩ := exists_childOn_of_childOf hchild
      obtain ⟨hvj, hleaf, -⟩ := hchild
      obtain ⟨p, hp⟩ := ih j (ht.child_lt hvj hleaf b) hvj
      exact ⟨p ++ [b], hp.snoc hleaf b⟩

theorem childOn_ne_root (hn : 1 ≤ (present freq).length) (hv : (arenaGet t.node j).v = true)
    (hleaf : (arenaGet t.node j).leaf = false) (b : Bool) : childOn t.node j b ≠ t.root := fun h =>
  ht.rootTop (ht.rootv.2 hn) j (h ▸ childOf_childOn hv hleaf b)

/-- Two paths to one node are equal: a node has one parent, on one branch, and the root has none (R117 (d)). -/
theorem path_unique (hn : 1 ≤ (present freq).length) (hp : PathTo t.node t.root i p)
    (hq : PathTo t.node t.root i q) : q = p := by
  induction hp using PathTo.induct_snoc generalizing q with
  | root =>
    rcases hq.cases_snoc with ⟨-, rfl⟩ | ⟨j, q, b, hj, hleaf, hroot, -⟩
    · rfl
    · exact absurd hroot.symm (ht.childOn_ne_root hn (ht.path_valid_and_le hn hj).1 hleaf b)
  | snoc j p b hj hleaf ih =>
    have hv := (ht.path_valid_and_le hn hj).1
    have hne := ht.childOn_ne_root hn hv hleaf b
    rcases hq.cases_snoc with ⟨hroot, -⟩ | ⟨k, q, c, hk, hleafk, hchild, rfl⟩
    · exact absurd hroot hne
    · have hvk := (ht.path_valid_and_le hn hk).1
      obtain rfl : k = j := (ht.parent _ (ht.child_valid hv hleaf b) hne).unique
        (hchild ▸ childOf_childOn hvk hleafk c) (childOf_childOn hv hleaf b)
      rw [ih hk, ht.childOn_inj hv hleaf hchild]

end TreeShape

/-- Settles O33: the leaf of a present symbol is a valid node of BUILD's tree. -/
theorem everyLeafHasOnePath : Obligations.EveryLeafHasOnePath := by
  intro freq b hb
  have ht := buildTree_shape freq
  have hmem : b ∈ present freq := mem_present.2 hb
  have hn : 1 ≤ (present freq).length := List.length_pos_of_mem hmem
  obtain ⟨p, hp⟩ := ht.exists_path ((ht.valid _).2 (.inl ⟨b, hmem, rfl⟩))
  exact ⟨p, hp, ht.path_length_le hn hp, fun _ => ht.path_unique hn hp⟩

end Sys2Proof.Machine
end

section
/-! PROOFS. The commands of 41_tree_builder.md: BUILD (R112 to R115, R117) and NGET (R116). -/

namespace Sys2Proof.Machine

variable {freq : Vector Count 256} {s : State} {op : BitVec 8}

/-! ### The tree of a table with at most one symbol (R113, R114) -/

/-- Without merges, the leaves of the present symbols are the only nodes. -/
theorem TreeShape.arenaGet_absent {t : Tree} {i : NodeIdx} (ht : TreeShape freq t) (hn : (present freq).length ≤ 1)
    (hi : ¬ ∃ b ∈ present freq, i = leafIdx b) : arenaGet t.node i = Node.zero := by
  refine ht.unused i (Bool.eq_false_iff.2 fun hv => ?_)
  rcases (ht.valid i).1 hv with hleaf | ⟨hge, hlt⟩
  · exact hi hleaf
  · omega

theorem present_eq_singleton {b : Byte} (hb : tableGet freq b ≠ 0) (hother : ∀ c, c ≠ b → tableGet freq c = 0) :
    present freq = [b] := by
  have hperm : (present freq).Perm [b] := by
    refine (List.perm_ext_iff_of_nodup (present_nodup freq) (List.nodup_singleton b)).2 fun c => ?_
    rw [mem_present, List.mem_singleton]
    exact ⟨fun hc => by_contra fun hne => hc (hother c hne), fun hc => hc ▸ hb⟩
  exact List.perm_singleton.1 hperm

theorem present_eq_nil (h : ∀ b, tableGet freq b = 0) : present freq = [] :=
  List.eq_nil_iff_forall_not_mem.2 fun b hb => mem_present.1 hb (h b)

/-! ### BUILD as a command -/

theorem exec_build (hp : s.htc.phase = .load) :
    exec .build s = .next (s.answered { s.htc.setTree (buildTree s.htc.freq) with phase := .tree } 0) :=
  exec_answered .build (by rw [hp]; rfl) rfl

/-- Settles O32: the invariant of the merge loop at its end, where the queue holds the root alone. -/
theorem buildLeavesAHuffmanTree : Obligations.BuildLeavesAHuffmanTree :=
  ⟨decodeOfEncodeIsIdentity .build, illegalWord_of_formatZ fun _ _ => rfl, needsPhase_of .build .load fun _ => rfl,
    fun s hp => ⟨buildTree s.htc.freq, buildTree_shape s.htc.freq, exec_build hp⟩⟩

/-- Settles O36: the tree registers after BUILD are the tree of FREQ. -/
theorem buildIsAFunctionOfFreq : Obligations.BuildIsAFunctionOfFreq := by
  intro s s' hp hp' hfreq
  refine ⟨_, _, exec_build hp, exec_build hp', ?_⟩
  show buildTree s.htc.freq = buildTree s'.htc.freq
  rw [hfreq]

/-- Settles O34: the shape of the tree over one symbol fixes every register. -/
theorem buildOfOneSymbol : Obligations.BuildOfOneSymbol := by
  intro s sym hp hsym hother
  have hb : present s.htc.freq = [sym] := present_eq_singleton hsym hother
  have ht := buildTree_shape s.htc.freq
  have hrootv : (buildTree s.htc.freq).rootv = true := ht.rootv.2 (by simp [hb])
  have hnleaf : (buildTree s.htc.freq).nleaf = 1 := BitVec.eq_of_toNat_eq (by rw [ht.nleaf, hb]; rfl)
  have hnint : (buildTree s.htc.freq).nint = 0 := BitVec.eq_of_toNat_eq (by rw [ht.nint, hb]; rfl)
  refine ⟨(buildTree s.htc.freq).node, fun i => ?_, ?_⟩
  · split
    · next hi => rw [hi, ht.leaves sym (by simp [hb])]; rfl
    · next hi => exact ht.arenaGet_absent (by simp [hb]) (by simpa [hb] using hi)
  · rw [exec_build hp, Htc.setTree, hrootv, ht.rootOne sym hb, hnleaf, hnint]

/-- Settles O35: the shape of the tree over no symbol fixes every register. -/
theorem buildOfTheEmptyTable : Obligations.BuildOfTheEmptyTable := by
  intro s hp hzero
  have hn : present s.htc.freq = [] := present_eq_nil hzero
  have ht := buildTree_shape s.htc.freq
  have hrootv : (buildTree s.htc.freq).rootv = false := by simpa [hn] using mt ht.rootv.1
  have hnleaf : (buildTree s.htc.freq).nleaf = 0 := BitVec.eq_of_toNat_eq (by rw [ht.nleaf, hn]; rfl)
  have hnint : (buildTree s.htc.freq).nint = 0 := BitVec.eq_of_toNat_eq (by rw [ht.nint, hn]; rfl)
  refine ⟨(buildTree s.htc.freq).node, fun i => ht.arenaGet_absent (by simp [hn]) (by simp [hn]), ?_⟩
  rw [exec_build hp, Htc.setTree, hrootv, ht.rootNone hn, hnleaf, hnint]

/-! ### NGET -/

/-- Format B: A is not 0 (30_encoding.md R72). -/
theorem illegalWord_of_formatB {f : BitVec 32 → Instr} (hop : ∀ a b, decodeFields op a b = formatB a b f)
    (b : BitVec 32) (a : BitVec 8) (ha : a ≠ 0) : IllegalWord (cmdWord op a b) := by
  apply illegalWord_of
  rw [decode_cmdWord, hop, formatB, if_neg ha]

/-- The fields of an entry at their places in DATA (30_encoding.md R75). -/
theorem nodeData_toNat (n : Node) : (nodeData n).toNat =
    n.f.toNat + n.left.val * 2 ^ 40 + n.right.val * 2 ^ 49 + n.leaf.toNat * 2 ^ 58 + n.v.toNat * 2 ^ 59 := by
  have hzero : (0#4).toNat = 0 := rfl
  simp only [nodeData, toNat_append_add, idxBits_toNat, BitVec.toNat_ofBool, hzero]
  omega

theorem exec_nget_range {idx : BitVec 32} (hp : s.htc.phase ≠ .fault) (hidx : 510 < idx.toNat) :
    exec (.nget idx) s = .next (s.faulted .range) :=
  exec_faulted (.nget idx) (anyButFault_other hp) (dif_neg (show ¬ idx.toNat < 511 by omega))

theorem exec_nget_node {idx : BitVec 32} {i : NodeIdx} (hp : s.htc.phase ≠ .fault) (hidx : idx.toNat = i.val) :
    exec (.nget idx) s = .next (s.answered s.htc (nodeData (s.htc.nodeAt i))) := by
  have hlt : idx.toNat < 511 := hidx ▸ i.isLt
  obtain rfl : i = ⟨idx.toNat, hlt⟩ := Fin.ext hidx.symm
  exact exec_answered (.nget idx) (anyButFault_other hp) (dif_pos hlt)

/-- Settles O37: the two cases of the index, and the number its entry stands for. -/
theorem ngetReadsOneNode : Obligations.NgetReadsOneNode := fun idx =>
  ⟨decodeOfEncodeIsIdentity (.nget idx), illegalWord_of_formatB (fun _ _ => rfl) idx,
    needsLife_of (.nget idx) fun _ => rfl,
    fun s hp => ⟨exec_nget_range hp, fun i hi =>
      ⟨nodeData (s.htc.nodeAt i), exec_nget_node hp hi, nodeData_toNat (s.htc.nodeAt i)⟩⟩⟩

end Sys2Proof.Machine
end

section
/-! PROOFS. The CodeBook GEN makes of a tree of the shape of 41_tree_builder.md R117 (42_codebook.md R130, R131): each
present symbol gets the path of its leaf. -/

namespace Sys2Proof.Machine

variable {arena : Vector Node 511} {freq : Vector Count 256} {t : Tree} {root i j : NodeIdx} {p q : BitString}

/-! ### Paths and where they lead -/

/-- A bit string leads to one node. -/
theorem PathTo.node_unique (hi : PathTo arena root i p) (hj : PathTo arena root j p) : j = i := by
  induction hi using PathTo.induct_snoc generalizing j with
  | root =>
    rcases hj.cases_snoc with ⟨rfl, -⟩ | ⟨_, _, _, _, _, _, hnil⟩
    · rfl
    · simp at hnil
  | snoc k p b _ _ ih =>
    rcases hj.cases_snoc with ⟨-, hnil⟩ | ⟨k', p', b', hk', -, rfl, hp⟩
    · simp at hnil
    · obtain ⟨rfl, rfl⟩ := List.append_singleton_inj.1 hp
      rw [ih hk']

/-- No path goes on below a leaf. -/
theorem PathTo.eq_nil_of_leaf (hi : PathTo arena root i p) (hleaf : (arenaGet arena i).leaf = true)
    (hj : PathTo arena root j (p ++ q)) : q = [] := by
  induction q using List.reverseRecOn generalizing j with
  | nil => rfl
  | append_singleton q b ih =>
    rw [← List.append_assoc] at hj
    rcases hj.cases_snoc with ⟨-, hnil⟩ | ⟨k, p', b', hk, hinner, -, hp⟩
    · simp at hnil
    · obtain ⟨rfl, rfl⟩ := List.append_singleton_inj.1 hp
      obtain rfl := ih hk
      rw [List.append_nil] at hk
      rw [← hi.node_unique hk, hinner] at hleaf
      cases hleaf

/-! ### The traversal -/

/-- `book'` is `book` with the paths of the leaves below the node at path `acc` recorded. -/
structure RecordsBelow (arena : Vector Node 511) (root : NodeIdx) (acc : BitString)
    (book book' : Vector CodeEntry 256) : Prop where
  below : ∀ b q, PathTo arena root (leafIdx b) (acc ++ q) → tableGet book' b = codeOfPath (acc ++ q)
  others : ∀ b, (∀ q, ¬ PathTo arena root (leafIdx b) (acc ++ q)) → tableGet book' b = tableGet book b

theorem recordsBelow_leaf {b : Byte} (book : Vector CodeEntry 256) (hp : PathTo arena root (leafIdx b) p)
    (hleaf : (arenaGet arena (leafIdx b)).leaf = true) :
    RecordsBelow arena root p book (tableSet book b (codeOfPath p)) := by
  refine ⟨fun c q hq => ?_, fun c hno => tableGet_tableSet_other book _ fun hc => hno [] ?_⟩
  · obtain rfl := hp.eq_nil_of_leaf hleaf hq
    rw [List.append_nil] at hq ⊢
    rw [leafIdx_inj (hp.node_unique hq), tableGet_tableSet_same]
  · rw [List.append_nil, hc]
    exact hp

/-- The CodeBook of a table and its tree: the path of its leaf for each present symbol, no other code (R130, R131). -/
structure AssignsPaths (freq : Vector Count 256) (t : Tree) (book : Vector CodeEntry 256) : Prop where
  absent : ∀ b, tableGet freq b = 0 → tableGet book b = CodeEntry.zero
  path : ∀ b, tableGet freq b ≠ 0 → ∃ p, PathTo t.node t.root (leafIdx b) p ∧
    p.length ≤ (present freq).length - 1 ∧ tableGet book b = codeOfPath p

namespace TreeShape

variable (ht : TreeShape freq t)
include ht

/-- A valid leaf is the one of a present symbol (R117 (b)). -/
theorem exists_present_of_leaf (hv : (arenaGet t.node i).v = true) (hleaf : (arenaGet t.node i).leaf = true) :
    ∃ b ∈ present freq, i = leafIdx b := by
  refine ((ht.valid i).1 hv).resolve_right fun ⟨hge, _⟩ => ?_
  rw [ht.internal i hge] at hleaf
  cases hleaf

theorem leaf_of_present {b : Byte} (hb : b ∈ present freq) : (arenaGet t.node (leafIdx b)).leaf = true := by
  rw [ht.leaves b hb]

/-- Only leaves of present symbols have a path. -/
theorem present_of_path {b : Byte} (hn : 1 ≤ (present freq).length) (hp : PathTo t.node t.root (leafIdx b) p) :
    b ∈ present freq := by
  rcases (ht.valid _).1 (ht.path_valid_and_le hn hp).1 with ⟨c, hc, heq⟩ | ⟨hge, -⟩
  · exact leafIdx_inj heq ▸ hc
  · exact absurd b.isLt (not_lt.2 hge)

/-- The path of a leaf fits the 255 cells of CBITS. -/
theorem path_length_le_255 (hn : 1 ≤ (present freq).length) (hp : PathTo t.node t.root i p) : p.length ≤ 255 := by
  have hle := ht.path_length_le hn hp
  have hmax := present_length_le freq
  omega

/-- What the two subtrees of an internal node record is what the node records: a leaf stands below one child only, so
the right subtree keeps what the left one has recorded. -/
theorem recordsBelow_internal (hn : 1 ≤ (present freq).length) {acc : BitString} {book mid book' : Vector CodeEntry 256}
    (hp : PathTo t.node t.root i acc) (hleaf : (arenaGet t.node i).leaf = false)
    (hleft : RecordsBelow t.node t.root (acc ++ [false]) book mid)
    (hright : RecordsBelow t.node t.root (acc ++ [true]) mid book') : RecordsBelow t.node t.root acc book book' := by
  refine ⟨fun b q hq => ?_, fun b hno => ?_⟩
  · match q with
    | [] =>
      rw [List.append_nil] at hq
      rw [← hp.node_unique hq, ht.leaf_of_present (ht.present_of_path hn hq)] at hleaf
      cases hleaf
    | true :: q =>
      rw [List.append_cons] at hq ⊢
      exact hright.below b q hq
    | false :: q =>
      rw [List.append_cons] at hq ⊢
      rw [hright.others b fun r hr => by simpa using ht.path_unique hn hq hr, hleft.below b q hq]
  · have hchild : ∀ c q, ¬ PathTo t.node t.root (leafIdx b) (acc ++ [c] ++ q) := fun c q =>
      List.append_cons acc c q ▸ hno (c :: q)
    rw [hright.others b (hchild true), hleft.others b (hchild false)]

/-- `visit` of a node records the leaves below it. Children have lower indices than their node (R117 (c)), so fuel above
the index is enough. -/
theorem visit_records (hn : 1 ≤ (present freq).length) {fuel : Nat} {acc : BitString} (book : Vector CodeEntry 256)
    (hp : PathTo t.node t.root i acc) (hfuel : i.val < fuel) :
    ∃ book', visit t.node fuel i acc book = .ok book' ∧ RecordsBelow t.node t.root acc book book' := by
  induction fuel generalizing i acc book with
  | zero => exact absurd hfuel (Nat.not_lt_zero _)
  | succ fuel ih =>
    have hv := (ht.path_valid_and_le hn hp).1
    cases hleaf : (arenaGet t.node i).leaf with
    | true =>
      obtain ⟨s, -, rfl⟩ := ht.exists_present_of_leaf hv hleaf
      rw [visit_leaf fuel acc book hleaf, recordLeaf_ok (ht.path_length_le_255 hn hp)]
      exact ⟨_, rfl, recordsBelow_leaf book hp hleaf⟩
    | false =>
      have hchild : ∀ b, (childOn t.node i b).val < fuel := fun b =>
        Nat.lt_of_lt_of_le (ht.child_lt hv hleaf b) (Nat.le_of_lt_succ hfuel)
      obtain ⟨mid, hleft, hmid⟩ := ih book (hp.snoc hleaf false) (hchild false)
      obtain ⟨book', hright, hbook'⟩ := ih mid (hp.snoc hleaf true) (hchild true)
      refine ⟨book', ?_, ht.recordsBelow_internal hn hp hleaf hmid hbook'⟩
      rw [visit_internal fuel acc book hleaf]
      exact (congrArg (Except.bind · _) hleft).trans hright

/-- GEN's CodeBook of a tree of the shape of R117. -/
theorem genBook_assigns : ∃ book, genBook t.node t.rootv t.root = .ok book ∧ AssignsPaths freq t book := by
  by_cases hn : 1 ≤ (present freq).length
  · obtain ⟨book, hbook, hrec⟩ := ht.visit_records hn emptyBook .root t.root.isLt
    refine ⟨book, by rw [genBook, if_pos (ht.rootv.2 hn), hbook], fun b hb => ?_, fun b hb => ?_⟩
    · rw [hrec.others b fun q hq => mem_present.1 (ht.present_of_path hn hq) hb, emptyBook_get]
    · obtain ⟨p, hp⟩ := ht.exists_path ((ht.valid _).2 (.inl ⟨b, mem_present.2 hb, rfl⟩))
      exact ⟨p, hp, ht.path_length_le hn hp, hrec.below b p hp⟩
  · refine ⟨emptyBook, if_neg (mt ht.rootv.1 hn), fun b _ => emptyBook_get b, fun b hb => ?_⟩
    exact absurd (List.length_pos_of_mem (mem_present.2 hb)) hn

end TreeShape

theorem Htc.HasTree.shape {h : Htc} (ht : h.HasTree) : TreeShape h.freq h.tree := ht ▸ buildTree_shape h.freq

/-- CODE in a session with codes: the paths of the leaves of its tree (R38 (d)). -/
theorem Htc.HasCodes.assigns {h : Htc} (hc : h.HasCodes) (ht : h.HasTree) : AssignsPaths h.freq h.tree h.code := by
  obtain ⟨book, hbook, hassigns⟩ := ht.shape.genBook_assigns
  obtain rfl : h.code = book := Except.ok.inj (hc.symm.trans hbook)
  exact hassigns

end Sys2Proof.Machine
end

section
/-! PROOFS. The codes of a tree's CodeBook (42_codebook.md R130 to R139): none begins another, their lengths are
bounded, and their Kraft sum is 1. -/

namespace Sys2Proof.Machine

variable {freq : Vector Count 256} {t : Tree} {book : Vector CodeEntry 256} {i : NodeIdx} {p : BitString} {a b : Byte}

/-- The cells of a recorded path: its bits, then zeros (R24). -/
theorem codeOfPath_cell (h : p.length ≤ 255) (k : Nat) : (codeOfPath p).cbits.toList.getD k false = p.getD k false := by
  by_cases hk : k < 255
  · simp [codeOfPath, List.getD, hk]
  · rw [List.getD_eq_default _ _ (by simpa using hk), List.getD_eq_default _ _ (by omega)]

/-! ### The code of one symbol -/

namespace AssignsPaths

variable (hb : AssignsPaths freq t book)
include hb

theorem entry_of_present (h : b ∈ present freq) : ∃ p, PathTo t.node t.root (leafIdx b) p ∧
    p.length ≤ (present freq).length - 1 ∧ p.length ≤ 255 ∧ tableGet book b = codeOfPath p := by
  obtain ⟨p, hp, hle, hentry⟩ := hb.path b (mem_present.1 h)
  have hmax := present_length_le freq
  exact ⟨p, hp, hle, by omega, hentry⟩

/-- Exactly the present symbols have a code (R130). -/
theorem cv_iff : (tableGet book b).cv = true ↔ b ∈ present freq := by
  refine ⟨fun hcv => mem_present.2 fun hzero => ?_, fun h => ?_⟩
  · rw [hb.absent b hzero] at hcv
    cases hcv
  · obtain ⟨p, -, -, -, hentry⟩ := hb.entry_of_present h
    rw [hentry, codeOfPath_cv]

theorem string_path (h : b ∈ present freq) : PathTo t.node t.root (leafIdx b) (tableGet book b).string := by
  obtain ⟨p, hp, -, hlen, hentry⟩ := hb.entry_of_present h
  rwa [hentry, codeOfPath_string hlen]

theorem string_length (h : b ∈ present freq) :
    (tableGet book b).string.length = (tableGet book b).clen.toNat := by
  obtain ⟨p, -, -, hlen, hentry⟩ := hb.entry_of_present h
  rw [hentry, codeOfPath_string hlen, codeOfPath_clen hlen]

/-- R136: the upper bound. -/
theorem clen_le (h : b ∈ present freq) : (tableGet book b).clen.toNat ≤ (present freq).length - 1 := by
  obtain ⟨p, -, hle, hlen, hentry⟩ := hb.entry_of_present h
  rwa [hentry, codeOfPath_clen hlen]

/-- The cells above a code are 0 (R24). -/
theorem cell_above (h : b ∈ present freq) {k : Nat} (hk : (tableGet book b).clen.toNat ≤ k) :
    (tableGet book b).cbits.toList.getD k false = false := by
  obtain ⟨p, -, -, hlen, hentry⟩ := hb.entry_of_present h
  rw [hentry, codeOfPath_clen hlen] at hk
  rw [hentry, codeOfPath_cell hlen, List.getD_eq_default _ _ hk]

variable (ht : TreeShape freq t)
include ht

/-- Below the leaf of a symbol stands no code but its own (R133). -/
theorem eq_of_leaf_prefix (hp : PathTo t.node t.root (leafIdx a) p) (ha : a ∈ present freq) (h : b ∈ present freq)
    (hpre : p <+: (tableGet book b).string) : b = a := by
  obtain ⟨q, hq⟩ := hpre
  have hpath := hb.string_path h
  rw [← hq] at hpath
  obtain rfl := hp.eq_nil_of_leaf (ht.leaf_of_present ha) hpath
  rw [List.append_nil] at hpath
  exact leafIdx_inj (hp.node_unique hpath)

/-- The path of an internal node is no code. -/
theorem string_ne_internal_path (hp : PathTo t.node t.root i p) (hleaf : (arenaGet t.node i).leaf = false)
    (hcv : (tableGet book b).cv = true) : (tableGet book b).string ≠ p := by
  rintro rfl
  have hpres := hb.cv_iff.1 hcv
  rw [← hp.node_unique (hb.string_path hpres), ht.leaf_of_present hpres] at hleaf
  cases hleaf

/-- R136: with two or more symbols the root is no leaf. -/
theorem one_le_clen (hn : 2 ≤ (present freq).length) (h : b ∈ present freq) : 1 ≤ (tableGet book b).clen.toNat := by
  rw [← hb.string_length h, Nat.one_le_iff_ne_zero, Ne, List.length_eq_zero_iff]
  intro hnil
  have hpath := hb.string_path h
  rw [hnil] at hpath
  have hroot : b.toNat = t.root.val := congrArg Fin.val (PathTo.root.node_unique hpath)
  have hmany := ht.rootMany hn
  have hlt := b.isLt
  omega

end AssignsPaths

/-! ### The Kraft sum (R139) -/

/-- The byte values with a code that begins with `p`. -/
def codesFrom (book : Vector CodeEntry 256) (p : BitString) : Finset Byte :=
  {b ∈ allSymbols.toFinset | (tableGet book b).cv = true ∧ p <+: (tableGet book b).string}

theorem mem_codesFrom : b ∈ codesFrom book p ↔ (tableGet book b).cv = true ∧ p <+: (tableGet book b).string := by
  simp [codesFrom, mem_allSymbols]

theorem kraftSum_eq_sum_codesFrom (book : Vector CodeEntry 256) :
    kraftSum book = ∑ b ∈ codesFrom book [], 2 ^ (255 - (tableGet book b).clen.toNat) := by
  have hall : codesFrom book [] = (allSymbols.filter fun b => (tableGet book b).cv).toFinset := by
    ext b
    simp [mem_codesFrom, mem_allSymbols]
  rw [hall, List.sum_toFinset _ (allSymbols_nodup.filter _), kraftSum]

/-- Codes that go on with 0 and codes that go on with 1 are different. -/
theorem codesFrom_disjoint (book : Vector CodeEntry 256) (p : BitString) :
    Disjoint (codesFrom book (p ++ [false])) (codesFrom book (p ++ [true])) := by
  refine Finset.disjoint_left.2 fun b h0 h1 => ?_
  obtain ⟨-, q, hq⟩ := mem_codesFrom.1 h0
  obtain ⟨-, r, hr⟩ := mem_codesFrom.1 h1
  simpa using hq.trans hr.symm

/-- When `p` itself is no code, a code that begins with `p` goes on with 0 or with 1. -/
theorem codesFrom_eq_union (hp : ∀ b, (tableGet book b).cv = true → (tableGet book b).string ≠ p) :
    codesFrom book p = codesFrom book (p ++ [false]) ∪ codesFrom book (p ++ [true]) := by
  ext b
  rw [Finset.mem_union, mem_codesFrom, mem_codesFrom, mem_codesFrom, ← and_or_left]
  refine and_congr_right fun hcv => ⟨fun ⟨q, hq⟩ => ?_, fun h => ?_⟩
  · match q with
    | [] => exact absurd (by simpa using hq.symm) (hp b hcv)
    | false :: q => exact .inl ⟨q, by rw [← hq, List.append_assoc]; rfl⟩
    | true :: q => exact .inr ⟨q, by rw [← hq, List.append_assoc]; rfl⟩
  · exact h.elim (List.prefix_append p _).trans (List.prefix_append p _).trans

namespace AssignsPaths

variable (hb : AssignsPaths freq t book) (ht : TreeShape freq t) (hn : 1 ≤ (present freq).length)
include hb ht hn

theorem string_of_leaf_path (ha : a ∈ present freq) (hp : PathTo t.node t.root (leafIdx a) p) :
    (tableGet book a).string = p :=
  ht.path_unique hn hp (hb.string_path ha)

/-- The path of a leaf begins the code of its symbol only. -/
theorem codesFrom_leaf (ha : a ∈ present freq) (hp : PathTo t.node t.root (leafIdx a) p) :
    codesFrom book p = {a} := by
  ext b
  rw [mem_codesFrom, Finset.mem_singleton, hb.cv_iff]
  refine ⟨fun ⟨hpres, hpre⟩ => hb.eq_of_leaf_prefix ht hp ha hpres hpre, ?_⟩
  rintro rfl
  exact ⟨ha, hb.string_of_leaf_path ht hn ha hp ▸ List.prefix_rfl⟩

/-- The codes below the node at path `p` have the share of the Kraft sum that a code `p` would have. -/
theorem sum_codesFrom (hp : PathTo t.node t.root i p) :
    ∑ b ∈ codesFrom book p, 2 ^ (255 - (tableGet book b).clen.toNat) = 2 ^ (255 - p.length) := by
  induction i using WellFoundedLT.induction generalizing p with
  | ind i ih =>
    have hv := (ht.path_valid_and_le hn hp).1
    cases hleaf : (arenaGet t.node i).leaf with
    | true =>
      obtain ⟨a, ha, rfl⟩ := ht.exists_present_of_leaf hv hleaf
      rw [hb.codesFrom_leaf ht hn ha hp, Finset.sum_singleton, ← hb.string_length ha,
        hb.string_of_leaf_path ht hn ha hp]
    | false =>
      have hchild : ∀ c, ∑ b ∈ codesFrom book (p ++ [c]), 2 ^ (255 - (tableGet book b).clen.toNat) =
          2 ^ (255 - (p.length + 1)) := fun c => by
        rw [ih (childOn t.node i c) (ht.child_lt hv hleaf c) (hp.snoc hleaf c), List.length_append,
          List.length_singleton]
      have hlen : (p ++ [false]).length ≤ 255 := ht.path_length_le_255 hn (hp.snoc hleaf false)
      rw [List.length_append, List.length_singleton] at hlen
      calc ∑ b ∈ codesFrom book p, 2 ^ (255 - (tableGet book b).clen.toNat)
        _ = 2 ^ (255 - (p.length + 1)) + 2 ^ (255 - (p.length + 1)) := by
          rw [codesFrom_eq_union fun _ => hb.string_ne_internal_path ht hp hleaf,
            Finset.sum_union (codesFrom_disjoint book p), hchild, hchild]
        _ = 2 ^ (255 - (p.length + 1) + 1) := by rw [Nat.pow_succ', Nat.two_mul]
        _ = 2 ^ (255 - p.length) := by rw [show 255 - (p.length + 1) + 1 = 255 - p.length by omega]

theorem kraftSum_eq : kraftSum book = 2 ^ 255 := by
  rw [kraftSum_eq_sum_codesFrom, hb.sum_codesFrom ht hn .root, List.length_nil]

end AssignsPaths

/-! ### The statements about the CodeBook -/

/-- Settles O40: a code that begins with another symbol's code would be a path through that symbol's leaf. -/
theorem codesArePrefixFree : Obligations.CodesArePrefixFree := by
  intro h ht hc a b hne hcva hcvb hpre
  have hb := hc.assigns ht
  have ha := hb.cv_iff.1 hcva
  exact hne (hb.eq_of_leaf_prefix ht.shape (hb.string_path ha) ha (hb.cv_iff.1 hcvb) hpre).symm

/-- Settles O41: a path has at most as many branches as there are internal nodes, and a root that is no leaf has no
empty path to a leaf. -/
theorem codeLengthsAreBounded : Obligations.CodeLengthsAreBounded := by
  intro h ht hc b hcv
  have hb := hc.assigns ht
  have hpres := hb.cv_iff.1 hcv
  have hnleaf : h.nleaf.toNat = (present h.freq).length := ht.shape.nleaf
  rw [hnleaf]
  exact ⟨hb.clen_le hpres, fun hn => hb.one_le_clen ht.shape hn hpres⟩

/-- Settles O42: the root's share is the whole sum, since each internal node's share is that of its two children. -/
theorem kraftSumIsOne : Obligations.KraftSumIsOne := by
  intro h ht hc hn
  have hnleaf : h.nleaf.toNat = (present h.freq).length := ht.shape.nleaf
  exact (hc.assigns ht).kraftSum_eq ht.shape (Nat.le_of_succ_le (hnleaf ▸ hn))

end Sys2Proof.Machine
end

section
/-! PROOFS. The commands of 42_codebook.md: GEN (R130 to R132, R138), CLEN (R134) and CBIT (R135). -/

namespace Sys2Proof.Machine

variable {s : State} {sym : Byte}

/-! ### GEN -/

/-- GEN completes with the CodeBook of the tree registers. -/
theorem exec_gen {book : Vector CodeEntry 256} (hp : s.htc.phase = .tree)
    (hbook : genBook s.htc.node s.htc.rootv s.htc.root = .ok book) :
    exec .gen s = .next (s.answered { s.htc with code := book, acc := 0, nbits := 0, phase := .encode } 0) :=
  exec_answered .gen (by rw [hp]; rfl) (by rw [effect, genEffect, hbook])

/-- The entry of the empty code (R132). -/
theorem codeOfPath_nil : codeOfPath [] = { cv := true, clen := 0, cbits := Vector.replicate 255 false } := by
  have hcells : (Vector.ofFn fun p : Fin 255 => ([] : BitString).getD p.val false) = Vector.replicate 255 false :=
    Vector.ext fun k hk => by simp
  rw [codeOfPath, hcells]
  rfl

/-- Settles O38: the tree registers hold BUILD's tree, whose leaves `visit` records with their paths. -/
theorem genAssignsThePaths : Obligations.GenAssignsThePaths := by
  refine ⟨decodeOfEncodeIsIdentity .gen, illegalWord_of_formatZ fun _ _ => rfl,
    needsPhase_of .gen .tree fun _ => rfl, fun s hi hp => ?_⟩
  obtain ⟨-, -, -, ht, -⟩ := (Htc.inv_iff hp nofun).1 hi
  obtain ⟨book, hbook, hb⟩ := ht.shape.genBook_assigns
  refine ⟨book, exec_gen hp hbook, fun b => ⟨hb.absent b, fun hcount => ?_⟩⟩
  have hpres := mem_present.2 hcount
  exact ⟨hb.cv_iff.2 hpres, hb.string_path hpres, hb.string_length hpres, fun k => hb.cell_above hpres⟩

/-- Settles O39: over a leaf `visit` records the empty path, and without a root there is nothing to visit. -/
theorem genOfALeafAndOfNoTree : Obligations.GenOfALeafAndOfNoTree := by
  refine fun s hp => ⟨fun sym hrootv hroot hleaf => ?_, fun hrootv => ?_⟩
  · have hbook : genBook s.htc.node s.htc.rootv s.htc.root = .ok (tableSet emptyBook sym (codeOfPath [])) := by
      rw [genBook, if_pos hrootv, visit_leaf 510 [] emptyBook hleaf, hroot, recordLeaf_ok (Nat.zero_le _)]
    exact ⟨_, fun b => by rw [tableGet_tableSet, codeOfPath_nil, emptyBook_get], exec_gen hp hbook⟩
  · have hbook : genBook s.htc.node s.htc.rootv s.htc.root = .ok emptyBook := by
      rw [genBook, hrootv, if_neg Bool.false_ne_true]
    exact ⟨emptyBook, emptyBook_get, exec_gen hp hbook⟩

/-! ### CLEN and CBIT -/

/-- The fields of a CODE entry at their places in DATA (30_encoding.md R75). -/
theorem clenData_toNat (e : CodeEntry) : (clenData e).toNat = e.clen.toNat + e.cv.toNat * 2 ^ 8 := by
  have hzero : (0#55).toNat = 0 := rfl
  simp only [clenData, toNat_append_add, BitVec.toNat_ofBool, hzero]
  omega

theorem bitData_toNat (bit : Bool) : (bitData bit).toNat = bit.toNat := by cases bit <;> rfl

/-- Settles O43: CLEN answers its entry of the CodeBook. -/
theorem clenReadsTheLength : Obligations.ClenReadsTheLength := fun sym =>
  ⟨decodeOfEncodeIsIdentity (.clen sym), illegalWord_of_formatS (fun _ _ => rfl) sym,
    needsLife_of (.clen sym) fun _ => rfl,
    fun s hp => ⟨clenData (s.htc.codeOf sym), exec_answered (.clen sym) (anyButFault_other hp) rfl,
      clenData_toNat (s.htc.codeOf sym)⟩⟩

/-- A position of a code is one of the cells: CLEN is at most 255 (R24). -/
theorem CodeEntry.string_getElem?_of_lt (e : CodeEntry) {k : Nat} (hk : k < e.clen.toNat) :
    e.string[k]? = some (e.cbits.toList.getD k false) := by
  have hcell : k < e.cbits.toList.length := by
    have hlt := e.clen.isLt
    rw [Vector.length_toList]
    omega
  rw [CodeEntry.string, List.getElem?_take_of_lt hk, List.getD_eq_getElem _ _ hcell, List.getElem?_eq_getElem hcell]

theorem exec_cbit_range {pos : BitVec 32} (hp : s.htc.phase ≠ .fault)
    (hpos : (s.htc.codeOf sym).cv = false ∨ (s.htc.codeOf sym).clen.toNat ≤ pos.toNat) :
    exec (.cbit sym pos) s = .next (s.faulted .range) :=
  exec_faulted (.cbit sym pos) (anyButFault_other hp) (if_pos hpos)

theorem exec_cbit_bit {pos : BitVec 32} (hp : s.htc.phase ≠ .fault) (hcv : (s.htc.codeOf sym).cv = true)
    (hpos : pos.toNat < (s.htc.codeOf sym).clen.toNat) : exec (.cbit sym pos) s =
      .next (s.answered s.htc (bitData ((s.htc.codeOf sym).cbits.toList.getD pos.toNat false))) :=
  exec_answered (.cbit sym pos) (anyButFault_other hp) (if_neg (by simp [hcv, hpos]))

/-- Settles O44: the two cases of the position, and the cell that holds its bit. -/
theorem cbitReadsOneBit : Obligations.CbitReadsOneBit := fun sym pos =>
  ⟨decodeOfEncodeIsIdentity (.cbit sym pos), needsLife_of (.cbit sym pos) fun _ => rfl,
    fun s hp => ⟨exec_cbit_range hp, fun hcv hpos =>
      ⟨_, _, CodeEntry.string_getElem?_of_lt (s.htc.codeOf sym) hpos, bitData_toNat _, exec_cbit_bit hp hcv hpos⟩⟩⟩

end Sys2Proof.Machine
end

section
/-! PROOFS. The laws of `pack` and `unpack` (43_bitpacker.md R146, R147, R152): the grouping step of `pack` is the inverse
of `unpack`, and every string of whole bytes is the `unpack` of some bytes. -/

namespace Sys2Proof.Machine

variable {c d : BitString} {bytes : List Byte}

/-- The padding step of `pack` (R146). -/
def padded (c : BitString) : BitString := c ++ List.replicate (padBits c.length) false

/-- The grouping step of `pack` (R146). -/
def groupBytes (d : BitString) : List Byte := (List.range (d.length / 8)).map (byteAt d)

theorem packString_eq_groupBytes (c : BitString) : packString c = groupBytes (padded c) := rfl

/-! ### The bits of bytes -/

theorem unpack8_getElem? (v : Byte) {k : Nat} (hk : k < 8) : (unpack8 v)[k]? = some (v.getLsbD (7 - k)) := by
  interval_cases k <;> rfl

@[simp] theorem length_unpack8 (v : Byte) : (unpack8 v).length = 8 := rfl

theorem unpack_cons (v : Byte) (bytes : List Byte) : unpack (v :: bytes) = unpack8 v ++ unpack bytes := rfl

theorem unpack_append (xs ys : List Byte) : unpack (xs ++ ys) = unpack xs ++ unpack ys := List.flatMap_append

@[simp] theorem length_unpack (bytes : List Byte) : (unpack bytes).length = 8 * bytes.length := by
  induction bytes with
  | nil => rfl
  | cons v bytes ih => rw [unpack_cons, List.length_append, ih, length_unpack8, List.length_cons]; omega

/-- Eight bits are the bits of a byte. -/
theorem exists_unpack8_eq (h : d.length = 8) : ∃ v, unpack8 v = d := by
  refine ⟨BitVec.ofFnLE fun k : Fin 8 => d.getD (7 - k.val) false, List.ext_getElem? fun k => ?_⟩
  by_cases hk : k < 8
  · have hback : 7 - (7 - k) = k := by omega
    rw [unpack8_getElem? _ hk, BitVec.getLsbD_ofFnLE, dif_pos (by omega), hback,
      List.getD_eq_getElem _ _ (by omega), List.getElem?_eq_getElem (by omega)]
  · rw [List.getElem?_eq_none (Nat.le_of_not_lt hk), List.getElem?_eq_none (by omega)]

/-- A string of whole bytes is the string of some bytes. -/
theorem exists_unpack_eq (n : Nat) (h : d.length = 8 * n) : ∃ bytes, unpack bytes = d := by
  induction n generalizing d with
  | zero => exact ⟨[], (List.length_eq_zero_iff.1 h).symm⟩
  | succ n ih =>
    obtain ⟨v, hv⟩ := exists_unpack8_eq (d := d.take 8) (by rw [List.length_take]; omega)
    obtain ⟨bytes, hbytes⟩ := ih (d := d.drop 8) (by rw [List.length_drop]; omega)
    exact ⟨v :: bytes, by rw [unpack_cons, hv, hbytes, List.take_append_drop]⟩

/-! ### Grouping is the inverse of `unpack` -/

/-- The bits of the first byte of a string, as digits of its number. -/
theorem bitNat_unpack8_append (v : Byte) (d : BitString) {k : Nat} (hk : k < 8) :
    bitNat (unpack8 v ++ d) k = v.toNat / 2 ^ (7 - k) % 2 := by
  have hbit : (unpack8 v ++ d).getD k false = v.toNat.testBit (7 - k) := by
    rw [List.getD_eq_getElem?_getD, List.getElem?_append_left (by simpa using hk), unpack8_getElem? v hk]
    rfl
  rw [bitNat, hbit, Nat.testBit_eq_decide_div_mod_eq]
  have := Nat.mod_two_eq_zero_or_one (v.toNat / 2 ^ (7 - k))
  simp only [decide_eq_true_eq]
  split <;> omega

theorem byteAt_unpack8_append_zero (v : Byte) (d : BitString) : byteAt (unpack8 v ++ d) 0 = v := by
  have hdigits : ∀ n < 256, 128 * (n / 128 % 2) + 64 * (n / 64 % 2) + 32 * (n / 32 % 2) + 16 * (n / 16 % 2) +
      8 * (n / 8 % 2) + 4 * (n / 4 % 2) + 2 * (n / 2 % 2) + n / 1 % 2 = n := by omega
  have hvalue := hdigits v.toNat v.isLt
  simp only [byteAt, bitNat_unpack8_append, Nat.mul_zero, Nat.zero_add, Nat.reduceLT, Nat.reduceSub, Nat.reducePow,
    hvalue, BitVec.ofNat_toNat, BitVec.setWidth_eq]

theorem byteAt_unpack8_append_succ (v : Byte) (d : BitString) (m : Nat) :
    byteAt (unpack8 v ++ d) (m + 1) = byteAt d m := by
  have hshift : ∀ j, bitNat (unpack8 v ++ d) (8 * (m + 1) + j) = bitNat d (8 * m + j) := by
    intro j
    have hsub : 8 * (m + 1) + j - 8 = 8 * m + j := by omega
    rw [bitNat, bitNat, List.getD_append_right _ _ _ _ (by rw [length_unpack8]; omega), length_unpack8, hsub]
  have hzero : bitNat (unpack8 v ++ d) (8 * (m + 1)) = bitNat d (8 * m) := hshift 0
  simp only [byteAt, hshift, hzero]

theorem groupBytes_unpack8_append (v : Byte) (d : BitString) : groupBytes (unpack8 v ++ d) = v :: groupBytes d := by
  have hlen : (unpack8 v ++ d).length / 8 = d.length / 8 + 1 := by
    rw [List.length_append, length_unpack8]
    omega
  rw [groupBytes, hlen, List.range_succ_eq_map, List.map_cons, byteAt_unpack8_append_zero, List.map_map, groupBytes]
  exact congrArg (v :: ·) (List.map_congr_left fun m _ => byteAt_unpack8_append_succ v d m)

theorem groupBytes_unpack (bytes : List Byte) : groupBytes (unpack bytes) = bytes := by
  induction bytes with
  | nil => rfl
  | cons v bytes ih => rw [unpack_cons, groupBytes_unpack8_append, ih]

theorem unpack_groupBytes (h : d.length % 8 = 0) : unpack (groupBytes d) = d := by
  obtain ⟨bytes, rfl⟩ := exists_unpack_eq (d := d) (d.length / 8) (by omega)
  rw [groupBytes_unpack]

/-! ### The laws of R152 -/

/-- The padding fills up the last byte (20_memory.md R57). -/
theorem length_padded (c : BitString) : (padded c).length = 8 * ((c.length + 7) / 8) := by
  rw [padded, List.length_append, List.length_replicate, padBits]
  omega

theorem unpack_packString (c : BitString) : unpack (packString c) = padded c := by
  rw [packString_eq_groupBytes, unpack_groupBytes (by rw [length_padded]; omega)]

/-- `pack` is the one byte list whose bits are the padded string. -/
theorem packString_eq_of_unpack (h : unpack bytes = padded c) : packString c = bytes := by
  rw [packString_eq_groupBytes, ← h, groupBytes_unpack]

theorem padded_of_whole (h : c.length % 8 = 0) : padded c = c := by
  simp [padded, padBits, h]

theorem packString_unpack (bytes : List Byte) : packString (unpack bytes) = bytes :=
  packString_eq_of_unpack (padded_of_whole (by rw [length_unpack]; omega)).symm

theorem length_packString (c : BitString) : (packString c).length = (c.length + 7) / 8 := by
  have hbits := congrArg List.length (unpack_packString c)
  rw [length_unpack, length_padded] at hbits
  omega

/-- Settles O47: `pack` pads, then groups, and grouping is the inverse of `unpack`. -/
theorem packAndUnpackAgree : Obligations.PackAndUnpackAgree := by
  refine ⟨fun strings => unpack_packString strings.flatten, fun bytes => ?_,
    fun strings => ⟨Nat.mul_mod_right 8 _, length_packString strings.flatten⟩, fun v k hk => unpack8_getElem? v hk⟩
  rw [pack, List.flatten_singleton, packString_unpack]

end Sys2Proof.Machine
end

section
/-! PROOFS. The commands of 43_bitpacker.md: PBIT (R145, R148) and FLUSH (R149). -/

namespace Sys2Proof.Machine

variable {s : State} {bit : Bool}

/-- Format T: A is no single bit, or B is not 0 (30_encoding.md R72). -/
theorem illegalWord_of_formatT {op : BitVec 8} {f : Bool → Instr}
    (hop : ∀ a b, decodeFields op a b = formatT a b f) (a : BitVec 8) (b : BitVec 32) (hab : 2 ≤ a.toNat ∨ b ≠ 0) :
    IllegalWord (cmdWord op a b) := by
  apply illegalWord_of
  rw [decode_cmdWord, hop, formatT, if_neg]
  rintro ⟨hhigh, hb⟩
  have hbyte := bitByte_of_high_zero hhigh
  have hsmall : ∀ bit, (bitByte bit).toNat < 2 := by decide
  have ha := hsmall (a.getLsbD 0)
  rw [hbyte] at ha
  exact hab.elim (Nat.not_le_of_lt ha) (absurd hb)

/-! ### PBIT -/

/-- The new bit goes to position 7 - NBITS of ACC (R145). -/
theorem pushedAcc_getLsbD (h : Htc) (b : Bool) {k : Nat} (hk : k < 8) :
    (pushedAcc h b).getLsbD k = (h.acc.getLsbD k || (decide (k + h.nbits.toNat = 7) && b)) := by
  have hn := h.nbits.isLt
  have hplace : (((BitVec.ofBool b).setWidth 8 : Byte) <<< (7 - h.nbits.toNat)).getLsbD k =
      (decide (k + h.nbits.toNat = 7) && b) := by
    rw [BitVec.getLsbD_shiftLeft]
    rcases Nat.lt_trichotomy (k + h.nbits.toNat) 7 with hlt | heq | hgt
    · simp [hlt.ne, show k < 7 - h.nbits.toNat by omega]
    · obtain rfl : k = 7 - h.nbits.toNat := by omega
      simp [hk, heq]
    · simp [hgt.ne', show k - (7 - h.nbits.toNat) ≠ 0 by omega]
  rw [pushedAcc, BitVec.getLsbD_or, hplace]

theorem exec_pbit_partial (hp : s.htc.phase = .encode) (hn : s.htc.nbits.toNat < 7) :
    exec (.pbit bit) s =
      .next (s.answered { s.htc with acc := pushedAcc s.htc bit, nbits := s.htc.nbits + 1 } 0) := by
  have hne : s.htc.nbits ≠ 7 := fun e => absurd (congrArg BitVec.toNat e) hn.ne
  refine exec_answered (.pbit bit) (by rw [hp]; rfl) ?_
  rw [effect, pbitEffect, if_neg (fun ⟨h7, _⟩ => hne h7), pushBit_partial bit hne, CmdResult.ofExcept_ok]

theorem exec_pbit_full (hp : s.htc.phase = .encode) (hn : s.htc.nbits = 7) (ho : s.htc.olen ≠ s.cfg.outCap) :
    exec (.pbit bit) s =
      .next (s.answered { s.htc.append (pushedAcc s.htc bit) with acc := 0, nbits := 0 } 0) := by
  refine exec_answered (.pbit bit) (by rw [hp]; rfl) ?_
  rw [effect, pbitEffect, if_neg (fun ⟨_, hcap⟩ => ho hcap), pushBit_full bit hn ho, CmdResult.ofExcept_ok]

theorem exec_pbit_overflow (hp : s.htc.phase = .encode) (hn : s.htc.nbits = 7) (ho : s.htc.olen = s.cfg.outCap) :
    exec (.pbit bit) s = .next (s.faulted .overflow) :=
  exec_faulted (.pbit bit) (by rw [hp]; rfl) (if_pos ⟨hn, ho⟩)

/-- Settles O45: the three cases of `pushbit`, with the byte ACC and the new bit make. -/
theorem pbitPushesOneBit : Obligations.PbitPushesOneBit := fun bit =>
  ⟨decodeOfEncodeIsIdentity (.pbit bit), illegalWord_of_formatT fun _ _ => rfl,
    needsPhase_of (.pbit bit) .encode fun _ => rfl,
    fun s hp => ⟨pushedAcc s.htc bit, fun _ => pushedAcc_getLsbD s.htc bit, exec_pbit_partial hp,
      fun hn ho => ⟨_, Memory.read_write s.htc.omem s.htc.olen.toNat _, exec_pbit_full hp hn ho⟩,
      exec_pbit_overflow hp⟩⟩

/-! ### FLUSH -/

theorem exec_flush_whole (hp : s.htc.phase = .encode) (hn : s.htc.nbits = 0) :
    exec .flush s = .next (s.answered { s.htc with phase := .done } 0) :=
  exec_answered .flush (by rw [hp]; rfl) (if_pos hn)

theorem exec_flush_overflow (hp : s.htc.phase = .encode) (hn : s.htc.nbits ≠ 0) (ho : s.htc.olen = s.cfg.outCap) :
    exec .flush s = .next (s.faulted .overflow) :=
  exec_faulted .flush (by rw [hp]; rfl) (by rw [effect, flushEffect, if_neg hn, if_pos ho])

theorem exec_flush_partial (hp : s.htc.phase = .encode) (hn : s.htc.nbits ≠ 0) (ho : s.htc.olen ≠ s.cfg.outCap) :
    exec .flush s =
      .next (s.answered { s.htc.append s.htc.acc with acc := 0, nbits := 0, phase := .done } 0) :=
  exec_answered .flush (by rw [hp]; rfl) (by rw [effect, flushEffect, if_neg hn, if_neg ho])

/-- Settles O46: the three cases of the pending bits and the room for their byte. -/
theorem flushPadsTheLastByte : Obligations.FlushPadsTheLastByte :=
  ⟨decodeOfEncodeIsIdentity .flush, illegalWord_of_formatZ fun _ _ => rfl, needsPhase_of .flush .encode fun _ => rfl,
    fun s hp => ⟨exec_flush_whole hp, exec_flush_overflow hp, fun hn ho =>
      ⟨_, Memory.read_write s.htc.omem s.htc.olen.toNat _, exec_flush_partial hp hn ho⟩⟩⟩

end Sys2Proof.Machine
end

section
/-! PROOFS. The registers of the packer and `pack` (43_bitpacker.md R151): OMEM, ACC and NBITS hold the bits pushed so far,
each `pushbit` adds its bit to them, and FLUSH pads them. -/

namespace Sys2Proof.Machine

variable {cfg : Config} {h g : Htc} {i : Instr} {cmds : List Instr} {s t u : State} {c : BitString}

/-- OMEM and the packer hold exactly the bit string c (R151), in a state with the invariants of 10_state.md R38 (g). -/
structure Htc.HoldsBits (cfg : Config) (h : Htc) (c : BitString) : Prop where
  clean : h.PackerClean
  full : h.OmemFull cfg
  count : h.output.length = h.olen.toNat
  bits : unpack h.output ++ (unpack8 h.acc).take h.nbits.toNat = c

theorem Htc.holdsBits_nil (hpacker : h.PackerEmpty) (holen : h.olen = 0) (homem : h.omem = []) :
    h.HoldsBits cfg [] where
  clean := hpacker.clean
  full := by simp [Htc.OmemFull, holen, homem, BitVec.le_def]
  count := by simp [Htc.output, holen, homem]
  bits := by
    obtain ⟨hnbits, -⟩ := hpacker
    simp [Htc.output, homem, hnbits, unpack]

/-! ### One bit -/

/-- `append` adds its byte at the end of OMEM. -/
theorem Htc.OmemFull.append_output (hf : h.OmemFull cfg) (v : Byte) : (h.append v).output = h.output ++ [v] := by
  obtain ⟨hwf, hread, -⟩ := hf
  have hbelow : ∀ cell ∈ h.omem, cell.1 < h.olen.toNat := fun cell hcell =>
    (hread cell.1).1 (by rw [Memory.read_of_mem hwf hcell]; rfl)
  rw [Htc.output, Htc.append_omem, Memory.write_above hbelow, List.map_append]
  rfl

/-- A pushed bit follows the pending bits (R145). -/
theorem take_unpack8_pushedAcc (hc : h.PackerClean) (b : Bool) :
    (unpack8 (pushedAcc h b)).take (h.nbits.toNat + 1) = (unpack8 h.acc).take h.nbits.toNat ++ [b] := by
  have hn := h.nbits.isLt
  have hlen : ((unpack8 h.acc).take h.nbits.toNat).length = h.nbits.toNat := by
    rw [List.length_take, length_unpack8]
    omega
  apply List.ext_getElem?
  intro k
  rcases Nat.lt_trichotomy k h.nbits.toNat with hlt | rfl | hgt
  · have hother : 7 - k + h.nbits.toNat ≠ 7 := by omega
    rw [List.getElem?_take_of_lt (by omega), List.getElem?_append_left (by omega), List.getElem?_take_of_lt hlt,
      unpack8_getElem? _ (by omega), unpack8_getElem? _ (by omega), pushedAcc_getLsbD h b (by omega)]
    simp [hother]
  · have hfree : h.acc.getLsbD (7 - h.nbits.toNat) = false := hc _ (by omega)
    have hplace : 7 - h.nbits.toNat + h.nbits.toNat = 7 := by omega
    rw [List.getElem?_take_of_lt (by omega), unpack8_getElem? _ hn, pushedAcc_getLsbD h b (by omega), hfree,
      List.getElem?_append_right hlen.le, hlen]
    simp [hplace]
  · rw [List.getElem?_take_eq_none hgt, List.getElem?_eq_none (by rw [List.length_append, hlen]; exact hgt)]

theorem pushBit_holdsBits {b : Bool} (hh : h.HoldsBits cfg c) (e : pushBit cfg h b = .ok g) :
    g.HoldsBits cfg (c ++ [b]) := by
  obtain ⟨hc, hf⟩ := pushBit_keeps ⟨hh.clean, hh.full⟩ e
  have hbits : unpack h.output ++ (unpack8 (pushedAcc h b)).take (h.nbits.toNat + 1) = c ++ [b] := by
    rw [take_unpack8_pushedAcc hh.clean, ← List.append_assoc, hh.bits]
  rcases pushBit_cases e with ⟨hn, rfl⟩ | ⟨hn, ho, rfl⟩
  · have hlt := h.nbits.isLt
    have hne : h.nbits.toNat ≠ 7 := fun e => hn (BitVec.eq_of_toNat_eq e)
    have hsucc : (h.nbits + 1).toNat = h.nbits.toNat + 1 :=
      BitVec.toNat_add_of_lt (show h.nbits.toNat + 1 < 2 ^ 3 by omega)
    exact ⟨hc, hf, hh.count, by rw [← hbits, ← hsucc]; rfl⟩
  · have hout := hh.full.append_output (pushedAcc h b)
    refine ⟨hc, hf, ?_, ?_⟩
    · calc (h.append (pushedAcc h b)).output.length
        _ = h.output.length + 1 := by rw [hout, List.length_append, List.length_singleton]
        _ = (h.olen + 1).toNat := by rw [hh.count, (hh.full.olen_succ_and_lt ho).1]
    · calc unpack (h.append (pushedAcc h b)).output ++ (unpack8 0).take 0
        _ = unpack h.output ++ unpack8 (pushedAcc h b) := by
          rw [hout, unpack_append, List.take_zero, List.append_nil]
          rfl
        _ = c ++ [b] := by rw [← hbits, hn]; rfl

theorem pushBits_holdsBits {bits : BitString} (hh : h.HoldsBits cfg c) (e : pushBits cfg h bits = .ok g) :
    g.HoldsBits cfg (c ++ bits) := by
  induction bits generalizing h c with
  | nil =>
    cases e
    rwa [List.append_nil]
  | cons b bits ih =>
    cases eb : pushBit cfg h b with
    | error code => simp [pushBits, eb] at e
    | ok x =>
      rw [pushBits_cons_ok eb] at e
      rw [List.append_cons]
      exact ih (pushBit_holdsBits hh eb) e

/-! ### A list of PBITs and ENCs -/

/-- A PBIT or an ENC that leaves phase ENCODE has pushed its bits. -/
theorem exec_push (hi : isPush i = true) (he : exec i s = .next t) (hp : t.htc.phase = .encode) :
    pushBits s.cfg s.htc (pushedBits s.htc.code i) = .ok t.htc := by
  rcases exec_cases he with ⟨href, rfl⟩ | ⟨-, rfl⟩ | ⟨code, -, -, rfl⟩ | ⟨g, d, -, hd, rfl⟩
  · have halive : s.htc.phase ≠ .fault := fun hf => nomatch hf.symm.trans hp
    exact absurd href (permission_ne_refused halive)
  · cases hp
  · cases hp
  · cases i
    case pbit bit => exact pushBits_cons_ok (pbitEffect_done hd)
    case enc byte => exact encEffect_done hd
    all_goals cases hi

/-- The commands of a list after the first run in the state the first leaves. -/
theorem execAll_cons_inv (he : execAll (i :: cmds) s = .next t) :
    ∃ x, exec i s = .next x ∧ execAll cmds x = .next t := by
  rw [execAll] at he
  split at he
  · next x hx => exact ⟨x, hx, he⟩
  · cases he
  · cases he

/-- PBITs and ENCs that end in phase ENCODE have pushed the concatenation of their bits. -/
theorem execAll_pushes (hcmds : ∀ i ∈ cmds, isPush i = true) (he : execAll cmds s = .next t)
    (hp : t.htc.phase = .encode) :
    t.cfg = s.cfg ∧ pushBits s.cfg s.htc (cmds.map (pushedBits s.htc.code)).flatten = .ok t.htc := by
  induction cmds generalizing s with
  | nil =>
    cases he
    exact ⟨rfl, rfl⟩
  | cons i cmds ih =>
    obtain ⟨hi, hrest⟩ := List.forall_mem_cons.1 hcmds
    obtain ⟨x, hx, he⟩ := execAll_cons_inv he
    have hcfg := exec_cfg hx
    obtain ⟨htcfg, hpush⟩ := ih hrest he
    have hxphase : x.htc.phase = .encode := (congrArg Htc.phase (pushBits_frame hpush)).symm.trans hp
    have hfirst := exec_push hi hx hxphase
    have hcode : x.htc.code = s.htc.code := (congrArg Htc.code (pushBits_frame hfirst)).trans rfl
    rw [hcfg, hcode] at hpush
    refine ⟨htcfg.trans hcfg, ?_⟩
    rw [List.map_cons, List.flatten_cons, pushBits_append, hfirst]
    exact hpush

/-! ### The registers against `pack` -/

/-- The low bits of a clean ACC are the padding (20_memory.md R57). -/
theorem Htc.PackerClean.unpack8_acc (hc : h.PackerClean) :
    unpack8 h.acc = (unpack8 h.acc).take h.nbits.toNat ++ List.replicate (8 - h.nbits.toNat) false := by
  conv_lhs => rw [← List.take_append_drop h.nbits.toNat (unpack8 h.acc)]
  refine congrArg _ (List.eq_replicate_iff.2 ⟨by rw [List.length_drop, length_unpack8], fun b hb => ?_⟩)
  obtain ⟨k, hk, rfl⟩ := List.mem_iff_getElem.1 hb
  rw [List.length_drop, length_unpack8] at hk
  have hbit := unpack8_getElem? h.acc (k := h.nbits.toNat + k) (by omega)
  rw [List.getElem_drop]
  rw [List.getElem?_eq_getElem (by rw [length_unpack8]; omega), hc _ (by omega)] at hbit
  exact Option.some.inj hbit

namespace Htc.HoldsBits

theorem length_eq (hh : h.HoldsBits cfg c) : c.length = 8 * h.output.length + h.nbits.toNat := by
  have hn := h.nbits.isLt
  rw [← hh.bits, List.length_append, length_unpack, List.length_take, length_unpack8]
  omega

/-- Without pending bits, OMEM is all of `pack`. -/
theorem packString_of_whole (hh : h.HoldsBits cfg c) (hn : h.nbits = 0) : packString c = h.output := by
  have hbits : unpack h.output = c := by simpa [hn] using hh.bits
  rw [← hbits, packString_unpack]

/-- With pending bits, ACC is the last byte of `pack`. -/
theorem packString_of_partial (hh : h.HoldsBits cfg c) (hn : h.nbits ≠ 0) : packString c = h.output ++ [h.acc] := by
  have hpos : h.nbits.toNat ≠ 0 := fun e => hn (BitVec.eq_of_toNat_eq e)
  have hlt := h.nbits.isLt
  have hpad : padBits c.length = 8 - h.nbits.toNat := by
    rw [padBits, hh.length_eq]
    omega
  apply packString_eq_of_unpack
  calc unpack (h.output ++ [h.acc])
    _ = unpack h.output ++ unpack8 h.acc := by rw [unpack_append]; rfl
    _ = c ++ List.replicate (8 - h.nbits.toNat) false := by
      rw [hh.clean.unpack8_acc, ← List.append_assoc, hh.bits]
    _ = padded c := by rw [padded, hpad]

/-- OMEM is the whole bytes of `pack`, ACC the byte after them, NBITS the number of bits in it. -/
theorem registers (hh : h.HoldsBits cfg c) :
    h.output = (packString c).take (c.length / 8) ∧ h.nbits.toNat = c.length % 8 ∧
      h.acc = (packString c).getD (c.length / 8) 0 := by
  have hlt := h.nbits.isLt
  have hlen := hh.length_eq
  have hbytes : c.length / 8 = h.output.length := by omega
  have hpending : h.nbits.toNat = c.length % 8 := by omega
  rw [hbytes]
  by_cases hn : h.nbits = 0
  · rw [hh.packString_of_whole hn, List.take_length, List.getD_eq_default _ _ le_rfl]
    exact ⟨rfl, hpending, (hh.clean.empty hn).2⟩
  · rw [hh.packString_of_partial hn, List.take_left, List.getD_append_right _ _ _ _ le_rfl, Nat.sub_self]
    exact ⟨rfl, hpending, rfl⟩

end Htc.HoldsBits

/-- A FLUSH that moves to DONE leaves all of `pack` in OMEM. -/
theorem exec_flush_holdsBits (hh : t.htc.HoldsBits t.cfg c) (hp : t.htc.phase = .encode) (he : exec .flush t = .next u)
    (hd : u.htc.phase = .done) :
    u.htc.output = packString c ∧ u.htc.PackerEmpty ∧ u.htc.olen.toNat = (packString c).length := by
  by_cases hn : t.htc.nbits = 0
  · rw [exec_flush_whole hp hn] at he
    cases he
    rw [hh.packString_of_whole hn]
    exact ⟨rfl, hh.clean.empty hn, hh.count.symm⟩
  · by_cases ho : t.htc.olen = t.cfg.outCap
    · rw [exec_flush_overflow hp hn ho] at he
      cases he
      cases hd
    · rw [exec_flush_partial hp hn ho] at he
      cases he
      rw [hh.packString_of_partial hn, List.length_append, hh.count]
      exact ⟨hh.full.append_output t.htc.acc, ⟨rfl, rfl⟩, (hh.full.olen_succ_and_lt ho).1⟩

/-- Settles O48: OMEM and the packer hold the bits pushed, by induction on the commands and on the bits of each. -/
theorem packerRegistersAgreeWithPack : Obligations.PackerRegistersAgreeWithPack := by
  intro s t cmds _ hpacker holen homem hcmds he hp
  obtain ⟨hcfg, hpush⟩ := execAll_pushes hcmds he hp
  have hh := pushBits_holdsBits (Htc.holdsBits_nil hpacker holen homem) hpush
  rw [List.nil_append] at hh
  refine ⟨hh.registers, fun u hu hd => ?_⟩
  obtain ⟨hout, hempty, hlen⟩ := exec_flush_holdsBits (hcfg ▸ hh) hp hu hd
  exact ⟨hout, hempty, hlen.trans (length_packString _)⟩

end Sys2Proof.Machine
end

section
/-! PROOFS. The command ENC (44_encode.md R160): a bit string whose whole bytes have room in OMEM is pushed without a
fault, and what it leaves in NBITS, OLEN and OMEM. -/

namespace Sys2Proof.Machine

variable {cfg : Config} {h x g : Htc} {s : State} {byte : Byte} {m n : Nat}

/-! ### Pushing bits that have room -/

/-- g is h after n pushed bits, as far as their values do not matter: the length registers, and the bytes of OMEM that
the bits do not complete. -/
structure Htc.Pushed (h g : Htc) (n : Nat) : Prop where
  nbits : g.nbits.toNat = (h.nbits.toNat + n) % 8
  olen : g.olen.toNat = h.olen.toNat + (h.nbits.toNat + n) / 8
  outside : ∀ a, (a < h.olen.toNat ∨ g.olen.toNat ≤ a) → g.omem.read a = h.omem.read a

theorem Htc.Pushed.refl (h : Htc) : h.Pushed h 0 :=
  have hn := h.nbits.isLt
  ⟨by omega, by omega, fun _ _ => rfl⟩

theorem Htc.Pushed.trans (hx : h.Pushed x m) (hg : x.Pushed g n) : h.Pushed g (m + n) := by
  have hxn := hx.nbits
  have hxo := hx.olen
  have hgn := hg.nbits
  have hgo := hg.olen
  refine ⟨by omega, by omega, fun a ha => ?_⟩
  rw [hg.outside a (by omega), hx.outside a (by omega)]

theorem pushBit_of_room (b : Bool) (hroom : h.olen.toNat + (h.nbits.toNat + 1) / 8 ≤ cfg.outCap.toNat) :
    ∃ g, pushBit cfg h b = .ok g ∧ h.Pushed g 1 := by
  have hlt := h.nbits.isLt
  by_cases hn : h.nbits = 7
  · have hseven : h.nbits.toNat = 7 := congrArg BitVec.toNat hn
    have hcap := cfg.outCap.isLt
    have ho : h.olen ≠ cfg.outCap := fun e => by rw [e] at hroom; omega
    have hsucc : (h.olen + 1).toNat = h.olen.toNat + 1 :=
      BitVec.toNat_add_of_lt (show h.olen.toNat + 1 < 2 ^ 32 by omega)
    refine ⟨_, pushBit_full b hn ho, by rw [hseven]; rfl, by rw [hseven]; exact hsucc, fun a ha => ?_⟩
    have houtside : a < h.olen.toNat ∨ (h.olen + 1).toNat ≤ a := ha
    exact Memory.read_write_other h.omem _ (by omega)
  · have hne : h.nbits.toNat ≠ 7 := fun e => hn (BitVec.eq_of_toNat_eq e)
    have hsucc : (h.nbits + 1).toNat = h.nbits.toNat + 1 :=
      BitVec.toNat_add_of_lt (show h.nbits.toNat + 1 < 2 ^ 3 by omega)
    exact ⟨_, pushBit_partial b hn, hsucc.trans (by omega), by show h.olen.toNat = _; omega, fun _ _ => rfl⟩

/-- OLEN grows by the completed bytes only, so each of them finds the room the string as a whole has. -/
theorem pushBits_of_room (bits : BitString)
    (hroom : h.olen.toNat + (h.nbits.toNat + bits.length) / 8 ≤ cfg.outCap.toNat) :
    ∃ g, pushBits cfg h bits = .ok g ∧ h.Pushed g bits.length := by
  induction bits generalizing h with
  | nil => exact ⟨h, rfl, .refl h⟩
  | cons b bits ih =>
    rw [List.length_cons] at hroom ⊢
    obtain ⟨x, hx, hhx⟩ := pushBit_of_room (h := h) (cfg := cfg) b (by omega)
    have hxn := hhx.nbits
    have hxo := hhx.olen
    obtain ⟨g, hg, hxg⟩ := ih (h := x) (by omega)
    exact ⟨g, (pushBits_cons_ok hx).trans hg, Nat.add_comm _ 1 ▸ hhx.trans hxg⟩

/-! ### ENC -/

/-- A code string has CLEN bits: CLEN, of 8 bits, is at most the 255 cells (10_state.md R24). -/
theorem CodeEntry.length_string (e : CodeEntry) : e.string.length = e.clen.toNat := by
  have hlt := e.clen.isLt
  rw [CodeEntry.string, List.length_take, Vector.length_toList]
  omega

theorem exec_enc_noCode (hp : s.htc.phase = .encode) (hcv : (s.htc.codeOf byte).cv = false) :
    exec (.enc byte) s = .next (s.faulted .noCode) :=
  exec_faulted (.enc byte) (by rw [hp]; rfl) (if_pos hcv)

theorem exec_enc_overflow (hp : s.htc.phase = .encode) (hcv : (s.htc.codeOf byte).cv = true)
    (hfull : s.cfg.outCap.toNat <
      s.htc.olen.toNat + (s.htc.nbits.toNat + (s.htc.codeOf byte).clen.toNat) / 8) :
    exec (.enc byte) s = .next (s.faulted .overflow) :=
  exec_faulted (.enc byte) (by rw [hp]; rfl) (by
    simp only [effect, encEffect, hcv, Bool.true_eq_false, if_false, if_pos hfull])

theorem exec_enc_pushes (hp : s.htc.phase = .encode) (hcv : (s.htc.codeOf byte).cv = true)
    (hroom : s.htc.olen.toNat + (s.htc.nbits.toNat + (s.htc.codeOf byte).clen.toNat) / 8 ≤ s.cfg.outCap.toNat) :
    ∃ g, exec (.enc byte) s = .next (s.answered g 0) ∧
      pushBits s.cfg s.htc (s.htc.codeOf byte).string = .ok g ∧ s.htc.Pushed g (s.htc.codeOf byte).clen.toNat := by
  have hlen := CodeEntry.length_string (s.htc.codeOf byte)
  obtain ⟨g, hg, hpushed⟩ := pushBits_of_room (s.htc.codeOf byte).string (by rwa [hlen])
  refine ⟨g, exec_answered (.enc byte) (by rw [hp]; rfl) ?_, hg, hlen ▸ hpushed⟩
  simp only [effect, encEffect, hcv, Bool.true_eq_false, if_false, if_neg (Nat.not_lt.2 hroom), hg,
    CmdResult.ofExcept_ok]

/-- Settles O49: no code, no room for the bytes the code completes, or its bits pushed. -/
theorem encPushesTheCode : Obligations.EncPushesTheCode := by
  refine fun byte => ⟨decodeOfEncodeIsIdentity (.enc byte), illegalWord_of_formatS (fun _ _ => rfl) byte,
    needsPhase_of (.enc byte) .encode fun _ => rfl,
    fun s hp => ⟨exec_enc_noCode hp, exec_enc_overflow hp, fun hcv hroom => ?_⟩⟩
  obtain ⟨g, hexec, hpush, hpushed⟩ := exec_enc_pushes hp hcv hroom
  have hframe := pushBits_frame hpush
  exact ⟨g.omem, g.olen, g.acc, g.nbits, hexec.trans (by rw [← hframe]), hpush.trans (by rw [← hframe]),
    hpushed.nbits, hpushed.olen, hpushed.outside⟩

end Sys2Proof.Machine
end

section
/-! PROOFS. The encode procedure (44_encode.md R161, R162): lists of commands run after each other, the code bits of the
input, and what ENC per byte and FLUSH leave of them. -/

namespace Sys2Proof.Machine

variable {cfg : Config} {i : Instr} {cmds rest : List Instr} {s t : State} {c bits : BitString} {bytes : List Byte}
  {book : Vector CodeEntry 256}

/-! ### Lists of commands -/

theorem execAll_append_next (he : execAll cmds s = .next t) : execAll (cmds ++ rest) s = execAll rest t := by
  induction cmds generalizing s with
  | nil => cases he; rfl
  | cons i cmds ih =>
    obtain ⟨x, hx, he⟩ := execAll_cons_inv he
    rw [List.cons_append, execAll_cons_next hx, ih he]

/-- A list of commands that each answer a next state and keep a property answers a next state and keeps it. -/
theorem execAll_keeps {P : State → Prop} (hs : P s)
    (keep : ∀ i ∈ cmds, ∀ x, P x → ∃ y, exec i x = .next y ∧ P y) : ∃ t, execAll cmds s = .next t ∧ P t := by
  induction cmds generalizing s with
  | nil => exact ⟨s, rfl, hs⟩
  | cons i cmds ih =>
    obtain ⟨hi, hcmds⟩ := List.forall_mem_cons.1 keep
    obtain ⟨x, hx, hpx⟩ := hi s hs
    obtain ⟨t, ht, hpt⟩ := ih hpx hcmds
    exact ⟨t, (execAll_cons_next hx).trans ht, hpt⟩

/-- In phase FAULT every command but INIT and STAT is refused (60_exceptions.md R204), so HTC stays as it is. -/
theorem execAll_inFault (hf : s.htc.phase = .fault) (hcmds : ∀ i ∈ cmds, permission i .fault = .refused) :
    ∃ t, execAll cmds s = .next t ∧ t.htc = s.htc :=
  execAll_keeps (P := fun x => x.htc = s.htc) rfl fun i hi x hx =>
    ⟨x.refuse, exec_refused (by rw [hx, hf]; exact hcmds i hi), hx⟩

/-- A read that cannot fail leaves HTC as it is, in phase FAULT too. -/
theorem exec_read (hperm : permission i s.htc.phase = anyButFault s.htc.phase) {d : Data}
    (he : effect i s.cfg s.htc = .done s.htc d) : ∃ t, exec i s = .next t ∧ t.htc = s.htc := by
  by_cases hf : s.htc.phase = .fault
  · exact ⟨s.refuse, exec_refused (by rw [hperm, hf]; rfl), rfl⟩
  · exact ⟨_, exec_answered i (hperm.trans (anyButFault_other hf)) he, rfl⟩

/-! ### The code bits of the input (R162) -/

theorem codeBits_cons {b : Byte} : codeBits book (b :: bytes) = some bits ↔
    (tableGet book b).cv = true ∧ ∃ tail, codeBits book bytes = some tail ∧ bits = (tableGet book b).string ++ tail := by
  rw [codeBits]
  split
  · next hcv => simp [hcv, eq_comm]
  · next hcv => simp [hcv]

/-- Bytes that all have a code have code bits, as many as their code lengths add up to. -/
theorem exists_codeBits (hcv : ∀ b ∈ bytes, (tableGet book b).cv = true) :
    ∃ bits, codeBits book bytes = some bits ∧
      bits.length = (bytes.map fun b => (tableGet book b).clen.toNat).sum := by
  induction bytes with
  | nil => exact ⟨[], rfl, rfl⟩
  | cons b bytes ih =>
    obtain ⟨hb, hbytes⟩ := List.forall_mem_cons.1 hcv
    obtain ⟨tail, htail, hlen⟩ := ih hbytes
    refine ⟨_, codeBits_cons.2 ⟨hb, tail, htail, rfl⟩, ?_⟩
    rw [List.length_append, CodeEntry.length_string, hlen, List.map_cons, List.sum_cons]

/-- Summed over the present symbols with their counts, or over the input byte by byte, the code lengths are the same. -/
theorem codeLength_of_counts {freq : Vector Count 256} (hcount : ∀ v, (tableGet freq v).toNat = bytes.count v) :
    codeLength freq book = (bytes.map fun b => (tableGet book b).clen.toNat).sum := by
  have hpresent : bytes.toFinset = (present freq).toFinset := by
    ext b
    rw [List.mem_toFinset, List.mem_toFinset, mem_present, ← List.count_pos_iff, ← hcount, Nat.pos_iff_ne_zero, Ne, Ne,
      ← BitVec.toNat_inj]
    rfl
  rw [Finset.sum_list_map_count, hpresent, List.sum_toFinset _ (present_nodup freq), codeLength]
  simp only [hcount, smul_eq_mul]

/-! ### ENC per byte, then FLUSH -/

/-- h encoded as g: the table and the codes are as before, and the bits c are packed in OMEM, or there was no room
for them (R161, R162). -/
structure Htc.Encoded (cfg : Config) (h g : Htc) (c : BitString) : Prop where
  freq : g.freq = h.freq
  code : g.code = h.code
  full : cfg.outCap.toNat < (c.length + 7) / 8 → g.phase = .fault ∧ g.err = some .overflow
  packed : (c.length + 7) / 8 ≤ cfg.outCap.toNat →
    g.phase = .done ∧ g.output = packString c ∧ g.olen.toNat = (c.length + 7) / 8

/-- OVERFLOW leaves the table and the codes (60_exceptions.md R203). -/
theorem State.faulted_encoded (s : State) (hfull : s.cfg.outCap.toNat < (c.length + 7) / 8) :
    s.htc.Encoded s.cfg (s.faulted .overflow).htc c :=
  ⟨rfl, rfl, fun _ => ⟨rfl, rfl⟩, fun hroom => absurd hfull (Nat.not_lt.2 hroom)⟩

/-- A FLUSH that moves to DONE packs the bits held. -/
theorem exec_flush_encoded_of_done (hh : s.htc.HoldsBits s.cfg c) (hp : s.htc.phase = .encode)
    (hroom : (c.length + 7) / 8 ≤ s.cfg.outCap.toNat) (he : exec .flush s = .next t) (hd : t.htc.phase = .done) :
    s.htc.Encoded s.cfg t.htc c := by
  obtain ⟨hout, -, hlen⟩ := exec_flush_holdsBits hh hp he hd
  obtain ⟨hfreq, -, hcode, -⟩ := writeOwnershipIsComplete .flush s t he
  exact ⟨hfreq, hcode, fun hfull => absurd hfull (Nat.not_lt.2 hroom), fun _ =>
    ⟨hd, hout, hlen.trans (length_packString c)⟩⟩

/-- FLUSH has room for its byte exactly when the padded bits fit. -/
theorem exec_flush_encoded (hh : s.htc.HoldsBits s.cfg c) (hp : s.htc.phase = .encode) :
    ∃ t, exec .flush s = .next t ∧ s.htc.Encoded s.cfg t.htc c := by
  have hbits := hh.length_eq
  have hcount := hh.count
  have hlt := s.htc.nbits.isLt
  by_cases hn : s.htc.nbits = 0
  · have hzero : s.htc.nbits.toNat = 0 := congrArg BitVec.toNat hn
    obtain ⟨-, -, hle⟩ := hh.full
    rw [BitVec.le_def] at hle
    exact ⟨_, exec_flush_whole hp hn, exec_flush_encoded_of_done hh hp (by omega) (exec_flush_whole hp hn) rfl⟩
  · have hpos : s.htc.nbits.toNat ≠ 0 := fun e => hn (BitVec.eq_of_toNat_eq e)
    by_cases ho : s.htc.olen = s.cfg.outCap
    · have hcap := congrArg BitVec.toNat ho
      exact ⟨_, exec_flush_overflow hp hn ho, s.faulted_encoded (by omega)⟩
    · obtain ⟨-, hbelow⟩ := hh.full.olen_succ_and_lt ho
      exact ⟨_, exec_flush_partial hp hn ho,
        exec_flush_encoded_of_done hh hp (by omega) (exec_flush_partial hp hn ho) rfl⟩

theorem permission_encs_flush : ∀ i ∈ encs bytes ++ [.flush], permission i .fault = .refused := by
  intro i hi
  rcases List.mem_append.1 hi with hi | hi
  · obtain ⟨b, -, rfl⟩ := List.mem_map.1 hi
    rfl
  · rw [List.mem_singleton.1 hi]
    rfl

/-- From a packer that holds c, the bits of the input follow c. The first ENC whose bytes do not fit raises OVERFLOW,
and the rest of the list is refused. -/
theorem execAll_encs_flush (hh : s.htc.HoldsBits s.cfg c) (hp : s.htc.phase = .encode)
    (hbits : codeBits s.htc.code bytes = some bits) :
    ∃ t, execAll (encs bytes ++ [.flush]) s = .next t ∧ s.htc.Encoded s.cfg t.htc (c ++ bits) := by
  induction bytes generalizing s c bits with
  | nil =>
    cases hbits
    obtain ⟨t, ht, henc⟩ := exec_flush_encoded hh hp
    exact ⟨t, execAll_cons_next ht, by rwa [List.append_nil]⟩
  | cons b bytes ih =>
    obtain ⟨hcv, tail, htail, rfl⟩ := codeBits_cons.1 hbits
    by_cases hroom : s.htc.olen.toNat + (s.htc.nbits.toNat + (s.htc.codeOf b).clen.toNat) / 8 ≤ s.cfg.outCap.toNat
    · obtain ⟨g, hg, hpush, -⟩ := exec_enc_pushes hp hcv hroom
      have hframe := pushBits_frame hpush
      have hcode : g.code = s.htc.code := (congrArg Htc.code hframe).trans rfl
      have hfreq : g.freq = s.htc.freq := (congrArg Htc.freq hframe).trans rfl
      have hphase : g.phase = .encode := (congrArg Htc.phase hframe).trans hp
      obtain ⟨t, ht, henc⟩ := ih (s := s.answered g 0) (pushBits_holdsBits hh hpush) hphase (hcode ▸ htail)
      rw [List.append_assoc] at henc
      exact ⟨t, (execAll_cons_next hg).trans ht,
        henc.freq.trans hfreq, henc.code.trans hcode, henc.full, henc.packed⟩
    · have hfault := exec_enc_overflow hp hcv (Nat.lt_of_not_le hroom)
      obtain ⟨t, ht, hhtc⟩ := execAll_inFault (s := s.faulted .overflow) rfl (permission_encs_flush (bytes := bytes))
      refine ⟨t, (execAll_cons_next hfault).trans ht, hhtc ▸ s.faulted_encoded ?_⟩
      have hheld := hh.length_eq
      have hcount := hh.count
      have hlen : (tableGet s.htc.code b).string.length = (s.htc.codeOf b).clen.toNat := CodeEntry.length_string _
      rw [List.length_append, List.length_append, hlen]
      omega

/-! ### The procedure -/

/-- The commands of the procedure before the first ENC (R161). -/
def encodeStart (bytes : List Byte) : List Instr := [.init] ++ fcnts bytes ++ [.build, .gen]

/-- The commands after FLUSH (R161). -/
def encodeReads : List Instr := allSymbols.map .fget ++ [.olen]

theorem encodeProcedure_eq (bytes : List Byte) :
    encodeProcedure bytes = encodeStart bytes ++ (encs bytes ++ [.flush] ++ encodeReads) := by
  simp only [encodeProcedure, encodeStart, encodeReads, List.append_assoc]

/-- What the input leaves before the first ENC: its table, a code for each of its bytes, an empty packer. -/
structure State.ReadyToEncode (s : State) (bytes : List Byte) : Prop where
  phase : s.htc.phase = .encode
  held : s.htc.HoldsBits s.cfg []
  counts : ∀ v, (s.htc.count v).toNat = bytes.count v
  codes : AssignsPaths s.htc.freq (buildTree s.htc.freq) s.htc.code

theorem execAll_encodeStart (s : State) (hfits : ∀ v, bytes.count v < 2 ^ 32) :
    ∃ t, execAll (encodeStart bytes) s = .next t ∧ t.cfg = s.cfg ∧ t.ReadyToEncode bytes := by
  have hzero : ∀ v, (Htc.reset.count v).toNat = 0 := fun v => congrArg BitVec.toNat (tableGet_replicate 0 v)
  obtain ⟨f, hcounting, hf⟩ := execAll_fcnts bytes (s.answered Htc.reset 0) rfl fun v => by
    rw [State.answered, hzero, Nat.zero_add]
    exact hfits v
  obtain ⟨book, hbook, hcodes⟩ := (buildTree_shape f).genBook_assigns
  refine ⟨_, (execAll_cons_next (exec_init s)).trans ((execAll_append_next hcounting).trans
    ((execAll_cons_next (exec_build rfl)).trans (execAll_cons_next (exec_gen rfl hbook)))), rfl, rfl,
    Htc.holdsBits_nil ⟨rfl, rfl⟩ rfl rfl, fun v => (hf v).trans ?_, hcodes⟩
  rw [State.answered, hzero, Nat.zero_add]

/-- Every byte of the input has a count, so it has a code (42_codebook.md R130). -/
theorem State.ReadyToEncode.cv (hr : s.ReadyToEncode bytes) : ∀ b ∈ bytes, (tableGet s.htc.code b).cv = true := by
  refine fun b hb => hr.codes.cv_iff.2 (mem_present.2 fun hzero => ?_)
  have hcount := hr.counts b
  rw [Htc.count, hzero] at hcount
  exact absurd hcount.symm (List.count_pos_iff.2 hb).ne'

theorem execAll_encodeReads (s : State) : ∃ t, execAll encodeReads s = .next t ∧ t.htc = s.htc := by
  refine execAll_keeps (P := fun x => x.htc = s.htc) rfl fun i hi x hx => ?_
  rw [← hx]
  rcases List.mem_append.1 hi with hi | hi
  · obtain ⟨b, -, rfl⟩ := List.mem_map.1 hi
    exact exec_read rfl rfl
  · rw [List.mem_singleton.1 hi]
    exact exec_read rfl rfl

/-- Settles O59: up to the first ENC no command fails, ENC and FLUSH pack the code bits or raise OVERFLOW, and the reads
after them change nothing. -/
theorem encodeProcedurePacksTheCodes : Obligations.EncodeProcedurePacksTheCodes := by
  intro s bytes hfits
  obtain ⟨x, hx, hcfg, hready⟩ := execAll_encodeStart s hfits
  obtain ⟨bits, hbits, hlen⟩ := exists_codeBits hready.cv
  obtain ⟨y, hy, henc⟩ := execAll_encs_flush hready.held hready.phase hbits
  obtain ⟨t, ht, hhtc⟩ := execAll_encodeReads y
  rw [List.nil_append, hcfg, ← hhtc] at henc
  refine ⟨t, bits, ?_, fun v => ?_, by rwa [henc.code], ?_, henc.full, fun hroom => ?_⟩
  · rw [encodeProcedure_eq, execAll_append_next hx, execAll_append_next hy, ht]
  · rw [Htc.count, henc.freq]
    exact hready.counts v
  · rw [henc.freq, henc.code, hlen]
    exact (codeLength_of_counts hready.counts).symm
  · rw [pack, List.flatten_singleton]
    exact henc.packed hroom

end Sys2Proof.Machine
end

section
/-! PROOFS. One run of `drain()` and one bit of the walk (45_decode.md R170), case by case, and DBEGIN, DEC and DEND as
commands (R171 to R173). -/

namespace Sys2Proof.Machine

variable {cfg : Config} {h g : Htc} {s : State} {b : Bool}

/-! ### `drain()` -/

/-- `drainLoop_induct` with what an emission requires: a symbol is missing and CUR is a leaf. -/
theorem drainLoop_keeps {P : Htc → Prop} {fuel : Nat}
    (keep : ∀ x, P x → x.wanting = true → (x.nodeAt x.cur).leaf = true → x.olen ≠ cfg.outCap → P x.emit)
    (e : drainLoop cfg fuel h = .ok g) (hp : P h) : P g := by
  induction fuel generalizing h with
  | zero => cases e; exact hp
  | succ fuel ih =>
    cases hl : h.wanting && (h.nodeAt h.cur).leaf with
    | false =>
      rw [drainLoop_idle _ hl] at e
      cases e
      exact hp
    | true =>
      by_cases ho : h.olen = cfg.outCap
      · rw [drainLoop_overflow fuel hl ho] at e
        cases e
      · rw [drainLoop_emit fuel hl ho] at e
        obtain ⟨hw, hleaf⟩ := Bool.and_eq_true_iff.1 hl
        exact ih e (keep h hp hw hleaf ho)

/-- While symbols are missing, a total within OUT_CAP leaves room for the next one. -/
theorem Htc.room_of_fits (hfits : (total h.freq).toNat ≤ cfg.outCap.toNat) (hw : h.wanting = true) :
    h.olen ≠ cfg.outCap ∧ (h.olen + 1).toNat = h.olen.toNat + 1 := by
  have hlt := Htc.wanting_iff.1 hw
  have hcap := cfg.outCap.isLt
  exact ⟨fun e => by rw [e] at hlt; omega,
    BitVec.toNat_add_of_lt (show h.olen.toNat + 1 < 2 ^ 32 by omega)⟩

/-- When the symbols fit OMEM, `drain()` does not fault, and it stops where no symbol is missing or CUR is no leaf. -/
theorem drainLoop_of_fits {fuel : Nat} (hfits : (total h.freq).toNat ≤ cfg.outCap.toNat)
    (hfuel : (total h.freq).toNat ≤ h.olen.toNat + fuel) :
    ∃ g, drainLoop cfg fuel h = .ok g ∧ (g.wanting && (g.nodeAt g.cur).leaf) = false := by
  induction fuel generalizing h with
  | zero => exact ⟨h, rfl, by rw [Htc.wanting_eq_false_iff.2 hfuel, Bool.false_and]⟩
  | succ fuel ih =>
    cases hl : h.wanting && (h.nodeAt h.cur).leaf with
    | false => exact ⟨h, drainLoop_idle _ hl, hl⟩
    | true =>
      obtain ⟨ho, hsucc⟩ := Htc.room_of_fits hfits (Bool.and_eq_true_iff.1 hl).1
      rw [drainLoop_emit fuel hl ho]
      refine ih (h := h.emit) hfits ?_
      show (total h.freq).toNat ≤ (h.olen + 1).toNat + fuel
      omega

theorem drain_of_fits (hfits : (total h.freq).toNat ≤ cfg.outCap.toNat) :
    ∃ g, drain cfg h = .ok g ∧ (g.wanting && (g.nodeAt g.cur).leaf) = false :=
  drainLoop_of_fits hfits (by omega)

theorem drain_idle (hl : (h.wanting && (h.nodeAt h.cur).leaf) = false) : drain cfg h = .ok h :=
  drainLoop_idle _ hl

/-- While symbols are missing, `drain()` has a pass (R170). -/
theorem exists_drain_eq_drainLoop_succ (cfg : Config) (hw : h.wanting = true) :
    ∃ fuel, drain cfg h = drainLoop cfg (fuel + 1) h := by
  have hlt := Htc.wanting_iff.1 hw
  exact ⟨(total h.freq).toNat - h.olen.toNat - 1, congrArg (drainLoop cfg · h) (by omega)⟩

/-- Over an internal root, `drain()` emits at most one symbol (R170). -/
theorem drain_emit (hw : h.wanting = true) (hleaf : (h.nodeAt h.cur).leaf = true) (ho : h.olen ≠ cfg.outCap)
    (hroot : (h.nodeAt h.root).leaf = false) : drain cfg h = .ok h.emit := by
  obtain ⟨fuel, hpasses⟩ := exists_drain_eq_drainLoop_succ cfg hw
  have hstop : (h.emit.wanting && (h.emit.nodeAt h.emit.cur).leaf) = false := Bool.and_eq_false_iff.2 (.inr hroot)
  rw [hpasses, drainLoop_emit fuel (Bool.and_eq_true_iff.2 ⟨hw, hleaf⟩) ho, drainLoop_idle fuel hstop]

theorem drain_overflow (hw : h.wanting = true) (hleaf : (h.nodeAt h.cur).leaf = true) (ho : h.olen = cfg.outCap) :
    drain cfg h = .error .overflow := by
  obtain ⟨fuel, hpasses⟩ := exists_drain_eq_drainLoop_succ cfg hw
  rw [hpasses, drainLoop_overflow fuel (Bool.and_eq_true_iff.2 ⟨hw, hleaf⟩) ho]

/-! ### `step(b)` -/

/-- CUR after one branch down (R170). -/
abbrev Htc.descended (h : Htc) (b : Bool) : Htc := { h with cur := childOn h.node h.cur b }

theorem walkBit_inner (hw : h.wanting = true) (hleaf : (h.nodeAt (childOn h.node h.cur b)).leaf = false) :
    walkBit cfg h b = .ok (h.descended b) :=
  (walkBit_descend b hw).trans (drain_idle (h := h.descended b) (Bool.and_eq_false_iff.2 (.inr hleaf)))

theorem walkBit_overflow (hw : h.wanting = true) (hleaf : (h.nodeAt (childOn h.node h.cur b)).leaf = true)
    (ho : h.olen = cfg.outCap) : walkBit cfg h b = .error .overflow :=
  (walkBit_descend b hw).trans (drain_overflow (h := h.descended b) hw hleaf ho)

theorem walkBit_emits (hw : h.wanting = true) (hleaf : (h.nodeAt (childOn h.node h.cur b)).leaf = true)
    (ho : h.olen ≠ cfg.outCap) (hroot : (h.nodeAt h.root).leaf = false) :
    walkBit cfg h b = .ok (h.descended b).emit :=
  (walkBit_descend b hw).trans (drain_emit (h := h.descended b) hw hleaf ho hroot)

/-- Settles O51: the eight bits are those of `unpack8`, and a bit is padding, descends, or reaches a leaf. -/
theorem decWalksEachBit : Obligations.DecWalksEachBit := by
  refine ⟨fun byte => ⟨decodeOfEncodeIsIdentity (.dec byte), illegalWord_of_formatS (fun _ _ => rfl) byte,
    needsPhase_of (.dec byte) .decode fun _ => rfl, fun s hp => ⟨fun h hwalk => ?_, fun c hwalk => ?_⟩⟩, ?_⟩
  · exact exec_answered (.dec byte) (by rw [hp]; rfl) (congrArg CmdResult.ofExcept hwalk)
  · exact exec_faulted (.dec byte) (by rw [hp]; rfl) (congrArg CmdResult.ofExcept hwalk)
  · rintro cfg h b child rfl
    refine ⟨fun hall => walkBit_padding b (Htc.wanting_eq_false_iff.2 hall),
      fun hlt => walkBit_inner (Htc.wanting_iff.2 hlt), fun hlt => walkBit_overflow (Htc.wanting_iff.2 hlt),
      fun hlt hleaf ho hroot => ?_⟩
    exact ⟨_, Memory.read_write h.omem h.olen.toNat _, walkBit_emits (Htc.wanting_iff.2 hlt) hleaf ho hroot⟩

/-! ### DBEGIN -/

/-- CUR at ROOT, where DBEGIN puts it (R171). -/
abbrev Htc.atRoot (h : Htc) : Htc := { h with cur := h.root }

/-- DBEGIN drains from ROOT, unless the copies of a single symbol do not fit. -/
theorem dbeginEffect_of_drain
    (hroom : (h.nodeAt h.root).leaf = true → (total h.freq).toNat ≤ cfg.outCap.toNat)
    (hdrain : drain cfg h.atRoot = .ok g) : dbeginEffect cfg h = .done (g.setPhase .decode) 0 := by
  have hpass : ¬ (h.rootv = true ∧ (h.nodeAt h.root).leaf = true ∧ cfg.outCap.setWidth 40 < total h.freq) := by
    rintro ⟨-, hleaf, hlt⟩
    rw [BitVec.lt_def, BitVec.toNat_setWidth_of_le (by decide)] at hlt
    exact absurd (hroom hleaf) (Nat.not_le.2 hlt)
  rw [dbeginEffect, if_neg hpass, hdrain]
  rfl

theorem exec_dbegin_of_drain (hp : s.htc.phase = .tree)
    (hroom : (s.htc.nodeAt s.htc.root).leaf = true → (total s.htc.freq).toNat ≤ s.cfg.outCap.toNat)
    (hdrain : drain s.cfg s.htc.atRoot = .ok g) : exec .dbegin s = .next (s.answered (g.setPhase .decode) 0) :=
  exec_answered .dbegin (by rw [hp]; rfl) (dbeginEffect_of_drain hroom hdrain)

theorem exec_dbegin_overflow (hp : s.htc.phase = .tree) (hrootv : s.htc.rootv = true)
    (hleaf : (s.htc.nodeAt s.htc.root).leaf = true) (hfull : s.cfg.outCap.toNat < (total s.htc.freq).toNat) :
    exec .dbegin s = .next (s.faulted .overflow) := by
  refine exec_faulted .dbegin (by rw [hp]; rfl) (if_pos ⟨hrootv, hleaf, ?_⟩)
  rwa [BitVec.lt_def, BitVec.toNat_setWidth_of_le (by decide)]

/-- x is h with copies of the root's byte value below OLEN and the walk at ROOT (R171 (b)). -/
structure Htc.CopiesOfRoot (h x : Htc) : Prop where
  freq : x.freq = h.freq
  root : x.root = h.root
  cur : x.cur = h.root
  le : x.olen.toNat ≤ (total h.freq).toNat
  read : ∀ a, x.omem.read a = if a < x.olen.toNat then some (idxByte h.root) else h.omem.read a

theorem Htc.CopiesOfRoot.emit {x : Htc} (hx : h.CopiesOfRoot x) (hfits : (total h.freq).toNat ≤ cfg.outCap.toNat)
    (hw : x.wanting = true) : h.CopiesOfRoot x.emit := by
  have hlt : x.olen.toNat < (total h.freq).toNat := hx.freq ▸ Htc.wanting_iff.1 hw
  obtain ⟨-, hsucc⟩ := Htc.room_of_fits (hx.freq ▸ hfits) hw
  have holen : x.emit.olen.toNat = x.olen.toNat + 1 := hsucc
  refine ⟨hx.freq, hx.root, hx.root, by omega, fun a => ?_⟩
  rw [show x.emit.omem = x.omem.write x.olen.toNat (idxByte x.cur) from rfl, Memory.read_write, hx.read, hx.cur, holen]
  by_cases ha : a = x.olen.toNat
  · rw [if_pos ha, if_pos (by omega)]
  · rw [if_neg ha]
    exact if_congr (by omega) rfl rfl

/-- Over a root that is a leaf, `drain()` emits all the symbols at once (R171 (b)). -/
theorem drain_leafRoot (holen : h.olen = 0) (hleaf : (h.nodeAt h.root).leaf = true)
    (hfits : (total h.freq).toNat ≤ cfg.outCap.toNat) :
    ∃ g, drain cfg h.atRoot = .ok g ∧ h.CopiesOfRoot g ∧ g.olen.toNat = (total h.freq).toNat := by
  obtain ⟨g, hdrain, hstop⟩ := drain_of_fits (h := h.atRoot) hfits
  have hcopies : h.CopiesOfRoot g :=
    drainLoop_keeps (P := h.CopiesOfRoot) (fun x hx hw _ _ => hx.emit hfits hw) hdrain
      ⟨rfl, rfl, rfl, by simp [holen], fun a => by simp [holen]⟩
  refine ⟨g, hdrain, hcopies, hcopies.le.antisymm ?_⟩
  have hnode : g.node = h.node := (congrArg Htc.node (drainLoop_frame hdrain)).trans rfl
  rw [Htc.nodeAt, hnode, hcopies.cur, show (arenaGet h.node h.root).leaf = true from hleaf, Bool.and_true] at hstop
  exact hcopies.freq ▸ Htc.wanting_eq_false_iff.1 hstop

/-- Settles O50: an internal root and an empty table leave nothing to drain; over a leaf the copies fit or do not. -/
theorem dbeginStartsTheWalk : Obligations.DbeginStartsTheWalk := by
  refine ⟨decodeOfEncodeIsIdentity .dbegin, illegalWord_of_formatZ fun _ _ => rfl,
    needsPhase_of .dbegin .tree fun _ => rfl, fun s hp holen => ⟨fun hidle => ?_, exec_dbegin_overflow hp,
    fun _ hleaf hfits => ?_⟩⟩
  · refine exec_dbegin_of_drain hp (fun hleaf => ?_) (drain_idle (Bool.and_eq_false_iff.2 ?_))
    · rcases hidle with hinner | hempty
      · cases hinner.symm.trans hleaf
      · simp [hempty]
    · refine hidle.symm.imp_left fun hempty => Htc.wanting_eq_false_iff.2 ?_
      simp [hempty]
  · obtain ⟨g, hdrain, hcopies, hall⟩ := drain_leafRoot holen hleaf hfits
    refine ⟨g.omem, g.olen, hall, hcopies.read, ?_⟩
    rw [exec_dbegin_of_drain hp (fun _ => hfits) hdrain, drainLoop_frame hdrain, hcopies.cur]
    rfl

/-! ### DEND -/

theorem exec_dend_trunc (hp : s.htc.phase = .decode) (hw : s.htc.wanting = true) :
    exec .dend s = .next (s.faulted .trunc) :=
  exec_faulted .dend (by rw [hp]; rfl) (if_pos hw)

theorem exec_dend_done (hp : s.htc.phase = .decode) (hw : s.htc.wanting = false) :
    exec .dend s = .next (s.answered { s.htc with phase := .done } 0) :=
  exec_answered .dend (by rw [hp]; rfl) (if_neg (by rw [hw]; exact Bool.false_ne_true))

/-- Settles O54: the two cases of the count. -/
theorem dendChecksTheCount : Obligations.DendChecksTheCount :=
  ⟨decodeOfEncodeIsIdentity .dend, illegalWord_of_formatZ fun _ _ => rfl, needsPhase_of .dend .decode fun _ => rfl,
    fun _ hp => ⟨fun hlt => exec_dend_trunc hp (Htc.wanting_iff.2 hlt),
      fun hall => exec_dend_done hp (Htc.wanting_eq_false_iff.2 hall)⟩⟩

end Sys2Proof.Machine
end

section
/-! PROOFS. The walk against TC's loop (45_decode.md R175): TC's loop with just enough passes, and what it still gives
from where the walk stands, which no bit, DEC or DBEGIN changes. -/

namespace Sys2Proof.Machine

variable {cfg : Config} {h x g : Htc} {s : State} {b : Bool} {bits : BitString} {arena : Vector Node 511}
  {root cur : NodeIdx} {m n : Nat}

/-! ### TC's loop -/

/-- TC's loop with a pass for each missing symbol, for each bit and for the stop. -/
def tcWalk (arena : Vector Node 511) (root cur : NodeIdx) (missing : Nat) (bits : BitString) : Option (List Byte) :=
  tcLoop arena root (missing + bits.length + 1) cur missing bits

theorem tcDecode_eq_tcWalk (t : Tree) (count : Nat) (bits : BitString) :
    tcDecode t count bits = tcWalk t.node t.root t.root count bits := rfl

theorem tcWalk_stop : tcWalk arena root cur 0 bits = some [] := rfl

theorem tcWalk_leaf (hleaf : (arenaGet arena cur).leaf = true) :
    tcWalk arena root cur (n + 1) bits = (tcWalk arena root root n bits).map (idxByte cur :: ·) := by
  have hpasses : n + 1 + bits.length + 1 = n + bits.length + 1 + 1 := by omega
  rw [tcWalk, hpasses]
  cases bits <;> exact if_pos hleaf

theorem tcWalk_nil (hleaf : (arenaGet arena cur).leaf = false) : tcWalk arena root cur (n + 1) [] = none := by
  rw [tcWalk, tcLoop, if_neg (by simp [hleaf])]

theorem tcWalk_cons (hleaf : (arenaGet arena cur).leaf = false) :
    tcWalk arena root cur (n + 1) (b :: bits) = tcWalk arena root (childOn arena cur b) (n + 1) bits := by
  rw [tcWalk, tcLoop, if_neg (by simp [hleaf])]
  rfl

/-! ### TC's loop from where the walk of HTC stands -/

/-- The number of symbols still to emit (R170). -/
def Htc.missing (h : Htc) : Nat := (total h.freq).toNat - h.olen.toNat

/-- The symbols of a session when TC's loop goes on with `bits` from where h stands: those in OMEM, then those of the
loop; `none` is TruncatedPayload. -/
def Htc.tcOutput (h : Htc) (bits : BitString) : Option (List Byte) :=
  (tcWalk h.node h.root h.cur h.missing bits).map (h.output ++ ·)

theorem Htc.exists_missing (hw : h.wanting = true) : ∃ n, h.missing = n + 1 := by
  have hlt := Htc.wanting_iff.1 hw
  exact Nat.exists_eq_succ_of_ne_zero (Nat.sub_ne_zero_of_lt hlt)

theorem Htc.tcOutput_stop (hw : h.wanting = false) : h.tcOutput bits = some h.output := by
  have hzero : h.missing = 0 := Nat.sub_eq_zero_of_le (Htc.wanting_eq_false_iff.1 hw)
  rw [Htc.tcOutput, hzero, tcWalk_stop, Option.map_some, List.append_nil]

theorem Htc.tcOutput_nil (hw : h.wanting = true) (hleaf : (h.nodeAt h.cur).leaf = false) : h.tcOutput [] = none := by
  obtain ⟨n, hn⟩ := Htc.exists_missing hw
  rw [Htc.tcOutput, hn, tcWalk_nil hleaf, Option.map_none]

theorem Htc.tcOutput_descended (hw : h.wanting = true) (hleaf : (h.nodeAt h.cur).leaf = false) :
    (h.descended b).tcOutput bits = h.tcOutput (b :: bits) := by
  obtain ⟨n, hn⟩ := Htc.exists_missing hw
  have hsame : (h.descended b).missing = n + 1 := hn
  rw [Htc.tcOutput, Htc.tcOutput, hn, hsame, tcWalk_cons hleaf]
  rfl

/-- A symbol emitted by HTC is the one TC's loop emits next. -/
theorem Htc.tcOutput_emit (hf : h.OmemFull cfg) (hw : h.wanting = true) (hleaf : (h.nodeAt h.cur).leaf = true)
    (ho : h.olen ≠ cfg.outCap) : h.emit.tcOutput bits = h.tcOutput bits := by
  obtain ⟨n, hn⟩ := Htc.exists_missing hw
  obtain ⟨hsucc, -⟩ := hf.olen_succ_and_lt ho
  have hnext : h.emit.missing = n := by
    show (total h.freq).toNat - (h.olen + 1).toNat = n
    have hdef : (total h.freq).toNat - h.olen.toNat = n + 1 := hn
    omega
  have hout : h.emit.output = h.output ++ [idxByte h.cur] := hf.append_output (idxByte h.cur)
  rw [Htc.tcOutput, Htc.tcOutput, hn, hnext, hout, tcWalk_leaf hleaf, Option.map_map]
  exact congrArg (Option.map · _) (funext fun out => List.append_assoc _ [_] out)

/-- `drain()` emits what TC's loop emits before it reads the next bit. -/
theorem drain_tcOutput (hf : h.OmemFull cfg) (e : drain cfg h = .ok g) : g.tcOutput bits = h.tcOutput bits := by
  have hkept : g.OmemFull cfg ∧ g.tcOutput bits = h.tcOutput bits :=
    drainLoop_keeps (P := fun x => x.OmemFull cfg ∧ x.tcOutput bits = h.tcOutput bits)
      (fun x ⟨hx, hout⟩ hw hleaf ho => ⟨hx.append ho _, (Htc.tcOutput_emit hx hw hleaf ho).trans hout⟩) e ⟨hf, rfl⟩
  exact hkept.2

/-! ### The bits of a payload -/

/-- g is where the walk stands n bits after h: between two bits, with at most n more symbols in OMEM, on top of the
bytes that were there. -/
structure Htc.Walked (cfg : Config) (h g : Htc) (n : Nat) : Prop where
  paused : g.WalkPaused cfg
  freq : g.freq = h.freq
  ge : h.olen.toNat ≤ g.olen.toNat
  le : g.olen.toNat ≤ h.olen.toNat + n
  outside : ∀ a, (a < h.olen.toNat ∨ g.olen.toNat ≤ a) → g.omem.read a = h.omem.read a

/-- A walk that still descends stands above an internal root (41_tree_builder.md R117 (e)). -/
theorem Htc.WalkPaused.root_internal (hp : h.WalkPaused cfg) (hw : h.wanting = true) :
    (h.nodeAt h.root).leaf = false := by
  obtain ⟨hs, hleaf⟩ := hp
  have ht := hs.tree.shape
  have hge : 256 ≤ h.cur.val := ht.internal_ge (hs.valid hw) (hleaf hw)
  rcases (ht.valid h.cur).1 (hs.valid hw) with ⟨c, -, hc⟩ | ⟨-, hlt⟩
  · have hcur := congrArg Fin.val hc
    have hbyte := c.isLt
    rw [leafIdx_val] at hcur
    omega
  · have hroot : h.root.val = 255 + ((present h.freq).length - 1) := ht.rootMany (by omega)
    exact ht.internal h.root (by show 256 ≤ h.root.val; omega)

/-- When the symbols fit OMEM, one bit is padding, descends to an internal node, or emits the leaf it leads to. -/
theorem Htc.WalkPaused.walkBit_cases (hp : h.WalkPaused cfg) (hfits : (total h.freq).toNat ≤ cfg.outCap.toNat)
    (b : Bool) :
    (h.wanting = false ∧ walkBit cfg h b = .ok h) ∨
    (h.wanting = true ∧ walkBit cfg h b = .ok (h.descended b)) ∨
    (h.wanting = true ∧ ((h.descended b).nodeAt (h.descended b).cur).leaf = true ∧ h.olen ≠ cfg.outCap ∧
      walkBit cfg h b = .ok (h.descended b).emit) := by
  cases hw : h.wanting with
  | false => exact .inl ⟨rfl, walkBit_padding b hw⟩
  | true =>
    cases hleaf : (h.nodeAt (childOn h.node h.cur b)).leaf with
    | false => exact .inr (.inl ⟨rfl, walkBit_inner hw hleaf⟩)
    | true =>
      obtain ⟨ho, -⟩ := Htc.room_of_fits hfits hw
      exact .inr (.inr ⟨rfl, hleaf, ho, walkBit_emits hw hleaf ho (hp.root_internal hw)⟩)

theorem walkBit_walked (hp : h.WalkPaused cfg) (hfits : (total h.freq).toNat ≤ cfg.outCap.toNat) (b : Bool) :
    ∃ g, walkBit cfg h b = .ok g ∧ h.Walked cfg g 1 ∧ ∀ rest, g.tcOutput rest = h.tcOutput (b :: rest) := by
  rcases hp.walkBit_cases hfits b with ⟨hw, hwalk⟩ | ⟨hw, hwalk⟩ | ⟨hw, hleaf, ho, hwalk⟩
  · exact ⟨h, hwalk, ⟨hp, rfl, le_rfl, Nat.le_succ _, fun _ _ => rfl⟩,
      fun rest => (Htc.tcOutput_stop hw).trans (Htc.tcOutput_stop hw).symm⟩
  · exact ⟨_, hwalk, ⟨walkBit_paused hp hwalk, rfl, le_rfl, Nat.le_succ _, fun _ _ => rfl⟩,
      fun rest => Htc.tcOutput_descended hw (hp.2 hw)⟩
  · have hfull : h.OmemFull cfg := hp.1.full
    have hsucc : (h.descended b).emit.olen.toNat = h.olen.toNat + 1 := (hfull.olen_succ_and_lt ho).1
    refine ⟨_, hwalk, ⟨walkBit_paused hp hwalk, rfl, hsucc ▸ Nat.le_succ _, hsucc.le, fun a ha => ?_⟩, fun rest => ?_⟩
    · have hne : a ≠ h.olen.toNat := by
        rw [hsucc] at ha
        change a < h.olen.toNat ∨ h.olen.toNat + 1 ≤ a at ha
        omega
      exact Memory.read_write_other h.omem _ hne
    · exact (Htc.tcOutput_emit (h := h.descended b) hfull hw hleaf ho).trans (Htc.tcOutput_descended hw (hp.2 hw))

theorem Htc.Walked.trans (hx : h.Walked cfg x m) (hg : x.Walked cfg g n) : h.Walked cfg g (m + n) := by
  have hxge := hx.ge
  have hxle := hx.le
  have hgge := hg.ge
  have hgle := hg.le
  refine ⟨hg.paused, hg.freq.trans hx.freq, by omega, by omega, fun a ha => ?_⟩
  rw [hg.outside a (by omega), hx.outside a (by omega)]

/-- When the symbols fit OMEM, a string of bits is walked without a fault, and TC's loop goes on after them. -/
theorem walkBits_walked (hp : h.WalkPaused cfg) (hfits : (total h.freq).toNat ≤ cfg.outCap.toNat) (bits : BitString) :
    ∃ g, walkBits cfg h bits = .ok g ∧ h.Walked cfg g bits.length ∧
      ∀ rest, g.tcOutput rest = h.tcOutput (bits ++ rest) := by
  induction bits generalizing h with
  | nil => exact ⟨h, rfl, ⟨hp, rfl, le_rfl, le_rfl, fun _ _ => rfl⟩, fun _ => rfl⟩
  | cons b bits ih =>
    obtain ⟨x, hx, hhx, hxout⟩ := walkBit_walked hp hfits b
    obtain ⟨g, hg, hxg, hgout⟩ := ih hhx.paused (hhx.freq ▸ hfits)
    rw [List.length_cons, Nat.add_comm]
    exact ⟨g, (walkBits_cons_ok hx).trans hg, hhx.trans hxg,
      fun rest => (hgout rest).trans (hxout _)⟩

/-! ### DEC -/

/-- A decode session between two commands, whose symbols fit OMEM. -/
structure State.Decoding (s : State) : Prop where
  phase : s.htc.phase = .decode
  paused : s.htc.WalkPaused s.cfg
  fits : (total s.htc.freq).toNat ≤ s.cfg.outCap.toNat

theorem State.Decoding.of_inv (hi : s.Inv) (hp : s.htc.phase = .decode)
    (hfits : (total s.htc.freq).toNat ≤ s.cfg.outCap.toNat) : s.Decoding := by
  obtain ⟨-, hfull, -, htree, -, -, hready⟩ := (Htc.inv_iff hp nofun).1 hi
  exact ⟨hp, hready.paused hfull htree, hfits⟩

theorem exec_dec_walked (hd : s.Decoding) (byte : Byte) :
    ∃ g, exec (.dec byte) s = .next (s.answered g 0) ∧ g = { s.htc with omem := g.omem, olen := g.olen, cur := g.cur } ∧
      s.htc.Walked s.cfg g 8 ∧ ∀ rest, g.tcOutput rest = s.htc.tcOutput (unpack8 byte ++ rest) := by
  obtain ⟨g, hwalk, hwalked, hout⟩ := walkBits_walked hd.paused hd.fits (unpack8 byte)
  exact ⟨g, exec_answered (.dec byte) (by rw [hd.phase]; rfl) (congrArg CmdResult.ofExcept hwalk),
    walkBits_frame hwalk, hwalked, hout⟩

/-- Settles O52: eight bits emit at most eight symbols, and the walk stops at the total. -/
theorem decCompletesWhenTheOutputFits : Obligations.DecCompletesWhenTheOutputFits := by
  intro s byte hi hp hfits
  obtain ⟨g, hexec, hframe, hwalked, -⟩ := exec_dec_walked (.of_inv hi hp hfits) byte
  exact ⟨g.omem, g.olen, g.cur, by rw [hexec, ← hframe], hwalked.ge, hwalked.le,
    hwalked.freq ▸ hwalked.paused.1.le, hwalked.outside⟩

theorem execAll_decs (hd : s.Decoding) (payload : List Byte) :
    ∃ t, execAll (decs payload) s = .next t ∧ t.Decoding ∧
      ∀ rest, t.htc.tcOutput rest = s.htc.tcOutput (unpack payload ++ rest) := by
  induction payload generalizing s with
  | nil => exact ⟨s, rfl, hd, fun _ => rfl⟩
  | cons v payload ih =>
    obtain ⟨g, hexec, hframe, hwalked, hout⟩ := exec_dec_walked hd v
    have hphase : g.phase = .decode := (congrArg Htc.phase hframe).trans hd.phase
    obtain ⟨t, ht, hdt, hrest⟩ := ih (s := s.answered g 0) ⟨hphase, hwalked.paused, hwalked.freq ▸ hd.fits⟩
    refine ⟨t, (execAll_cons_next hexec).trans ht, hdt, fun rest => ?_⟩
    rw [hrest, unpack_cons, List.append_assoc]
    exact hout _

/-! ### The session -/

/-- With OLEN = 0, OMEM holds no byte (10_state.md R38 (g)). -/
theorem Htc.OmemFull.omem_eq_nil (hf : h.OmemFull cfg) (holen : h.olen = 0) : h.omem = [] := by
  obtain ⟨hwf, hread, -⟩ := hf
  refine List.eq_nil_iff_forall_not_mem.2 fun ⟨a, v⟩ hmem => ?_
  have hbelow := (hread a).1 (by rw [Memory.read_of_mem hwf hmem]; rfl)
  rw [holen] at hbelow
  exact Nat.not_lt_zero a hbelow

theorem Htc.tcOutput_atRoot (hf : h.OmemFull cfg) (holen : h.olen = 0) :
    h.atRoot.tcOutput bits = tcDecode h.tree (total h.freq).toNat bits := by
  have hmissing : h.atRoot.missing = (total h.freq).toNat := by simp [Htc.missing, holen]
  have hout : h.atRoot.output = [] := congrArg (List.map Prod.snd) (hf.omem_eq_nil holen)
  rw [Htc.tcOutput, hmissing, hout]
  exact Option.map_id'

/-- DBEGIN opens a decode session from which TC's loop gives what it gives from the root with the whole total. -/
theorem exec_dbegin_decoding (hi : s.Inv) (hp : s.htc.phase = .tree)
    (hfits : (total s.htc.freq).toNat ≤ s.cfg.outCap.toNat) :
    ∃ t, exec .dbegin s = .next t ∧ t.Decoding ∧
      ∀ bits, t.htc.tcOutput bits = tcDecode s.htc.tree (total s.htc.freq).toNat bits := by
  obtain ⟨-, hfull, -, htree, -, -, holen, -⟩ := (Htc.inv_iff hp nofun).1 hi
  obtain ⟨g, hdrain, -⟩ := drain_of_fits (h := s.htc.atRoot) hfits
  have hinv : (g.setPhase .decode).Inv s.cfg := dbeginEffect_inv hi hp (dbeginEffect_of_drain (fun _ => hfits) hdrain)
  have hfreq : g.freq = s.htc.freq := (congrArg Htc.freq (drainLoop_frame hdrain)).trans rfl
  refine ⟨_, exec_dbegin_of_drain hp (fun _ => hfits) hdrain, .of_inv hinv rfl (hfreq ▸ hfits), fun bits => ?_⟩
  exact (drain_tcOutput (h := s.htc.atRoot) hfull hdrain).trans (Htc.tcOutput_atRoot hfull holen)

/-- DEND moves to DONE with the symbols of TC's loop, or raises TRUNC where TC's loop finds no more bits. -/
theorem exec_dend_decoding (hd : s.Decoding) :
    ∃ t, exec .dend s = .next t ∧
      match s.htc.tcOutput [] with
      | some out => t.htc.phase = .done ∧ t.htc.output = out
      | none => t.htc.phase = .fault ∧ t.htc.err = some .trunc := by
  cases hw : s.htc.wanting with
  | true =>
    rw [Htc.tcOutput_nil hw (hd.paused.2 hw)]
    exact ⟨_, exec_dend_trunc hd.phase hw, rfl, rfl⟩
  | false =>
    rw [Htc.tcOutput_stop hw]
    exact ⟨_, exec_dend_done hd.phase hw, rfl, rfl⟩

/-- Settles O55: DBEGIN, each DEC and DEND leave what TC's loop still gives from there as it was. -/
theorem decodeAgreesWithTheLoopOfTheSource : Obligations.DecodeAgreesWithTheLoopOfTheSource := by
  intro s payload hi hp hfits
  obtain ⟨x, hx, hdx, hbegin⟩ := exec_dbegin_decoding hi hp hfits
  obtain ⟨y, hy, hdy, hbits⟩ := execAll_decs hdx payload
  obtain ⟨t, ht, hend⟩ := exec_dend_decoding hdy
  have hout := (hbits []).trans (hbegin _)
  rw [List.append_nil] at hout
  rw [hout] at hend
  refine ⟨t, ?_, hend⟩
  rw [List.append_assoc, List.singleton_append, execAll_cons_next hx, execAll_append_next hy, execAll_cons_next ht]
  rfl

end Sys2Proof.Machine
end

section
/-! PROOFS. The round trip (45_decode.md R176; Q1, Q13): TC's loop on the code bits of the input, what a successful
encode session has left, and the two sessions and the two host procedures together. -/

namespace Sys2Proof.Machine

variable {arena : Vector Node 511} {root i : NodeIdx} {p q bits tail xs : BitString} {n k : Nat} {s t : State}
  {freq : Vector Count 256} {tree : Tree} {book : Vector CodeEntry 256} {bytes : List Byte} {b : Byte}

/-! ### TC's loop along a path -/

/-- The bits of a path lead TC's loop from the root to the node of the path. -/
theorem tcWalk_path (hp : PathTo arena root i p) (rest : BitString) :
    tcWalk arena root root (n + 1) (p ++ rest) = tcWalk arena root i (n + 1) rest := by
  induction hp using PathTo.induct_snoc generalizing rest with
  | root => rfl
  | snoc j p b _ hleaf ih => rw [List.append_assoc, List.singleton_append, ih, tcWalk_cons hleaf]

/-- A path passes internal nodes only. -/
theorem PathTo.exists_internal_of_append (hp : PathTo arena root i (p ++ q)) (hq : q ≠ []) :
    ∃ j, PathTo arena root j p ∧ (arenaGet arena j).leaf = false := by
  induction q using List.reverseRecOn generalizing i with
  | nil => exact absurd rfl hq
  | append_singleton q b ih =>
    rw [← List.append_assoc] at hp
    rcases hp.cases_snoc with ⟨-, hnil⟩ | ⟨j, p', b', hj, hleaf, -, heq⟩
    · simp at hnil
    · obtain ⟨rfl, -⟩ := List.append_singleton_inj.1 heq
      by_cases hnil : q = []
      · rw [hnil, List.append_nil] at hj
        exact ⟨j, hj, hleaf⟩
      · exact ih hj hnil

/-! ### TC's loop on code bits -/

namespace AssignsPaths

variable (hb : AssignsPaths freq tree book)
include hb

/-- In the middle of a code TC's loop runs out of bits. -/
theorem tcWalk_partial_string (hcv : (tableGet book b).cv = true) (hpre : xs <+: (tableGet book b).string)
    (hlt : xs.length < (tableGet book b).string.length) :
    tcWalk tree.node tree.root tree.root (n + 1) xs = none := by
  obtain ⟨q, hq⟩ := hpre
  have hpath := hb.string_path (hb.cv_iff.1 hcv)
  rw [← hq] at hpath hlt
  obtain ⟨j, hj, hleaf⟩ := hpath.exists_internal_of_append (q := q) (by rintro rfl; simp at hlt)
  have hwalk := tcWalk_path (n := n) hj []
  rw [List.append_nil] at hwalk
  rw [hwalk, tcWalk_nil hleaf]

variable (ht : TreeShape freq tree)
include ht

/-- The code of a symbol makes TC's loop emit it and start again. -/
theorem tcWalk_string (hcv : (tableGet book b).cv = true) :
    tcWalk tree.node tree.root tree.root (n + 1) ((tableGet book b).string ++ tail) =
      (tcWalk tree.node tree.root tree.root n tail).map (b :: ·) := by
  have hpres := hb.cv_iff.1 hcv
  rw [tcWalk_path (hb.string_path hpres), tcWalk_leaf (ht.leaf_of_present hpres), idxByte_leafIdx]

/-- TC's loop decodes the code bits of the input, whatever follows them (R176). -/
theorem tcDecode_codeBits (hbits : codeBits book bytes = some bits) (pad : BitString) :
    tcDecode tree bytes.length (bits ++ pad) = some bytes := by
  rw [tcDecode_eq_tcWalk]
  induction bytes generalizing bits with
  | nil => exact tcWalk_stop
  | cons b bytes ih =>
    obtain ⟨hcv, tail, htail, rfl⟩ := codeBits_cons.1 hbits
    rw [List.length_cons, List.append_assoc, hb.tcWalk_string ht hcv, ih htail]
    rfl

/-- TC's loop runs out of bits when the code bits of the input are cut short (Q13). -/
theorem tcDecode_truncated (hbits : codeBits book bytes = some bits) (hpre : xs <+: bits)
    (hlt : xs.length < bits.length) : tcDecode tree bytes.length xs = none := by
  rw [tcDecode_eq_tcWalk]
  induction bytes generalizing bits xs with
  | nil =>
    cases hbits
    exact absurd hlt (Nat.not_lt_zero _)
  | cons b bytes ih =>
    obtain ⟨hcv, tail, htail, rfl⟩ := codeBits_cons.1 hbits
    rcases Nat.lt_or_ge xs.length (tableGet book b).string.length with hshort | hlong
    · exact hb.tcWalk_partial_string hcv
        (List.prefix_of_prefix_length_le hpre (List.prefix_append _ _) hshort.le) hshort
    · obtain ⟨ys, rfl⟩ := List.prefix_of_prefix_length_le (List.prefix_append _ _) hpre hlong
      rw [List.length_append, List.length_append, Nat.add_lt_add_iff_left] at hlt
      rw [List.length_cons, hb.tcWalk_string ht hcv, ih htail ((List.prefix_append_right_inj _).1 hpre) hlt]
      rfl

end AssignsPaths

/-! ### A decode session fed with a payload of `pack` -/

/-- `pack` puts its pad bits behind the bits (43_bitpacker.md R146). -/
theorem prefix_padded (c : BitString) : c <+: padded c := List.prefix_append _ _

theorem unpack_take_prefix (bytes : List Byte) (k : Nat) : unpack (bytes.take k) <+: unpack bytes := by
  conv_rhs => rw [← List.take_append_drop k bytes, unpack_append]
  exact List.prefix_append _ _

/-- A decode session over the table of the input, before DBEGIN, with room for the input. -/
structure State.ReadyToDecode (s : State) (bytes : List Byte) : Prop where
  inv : s.Inv
  phase : s.htc.phase = .tree
  total : (Machine.total s.htc.freq).toNat = bytes.length
  room : bytes.length ≤ s.cfg.outCap.toNat

theorem State.ReadyToDecode.tree_eq (hr : s.ReadyToDecode bytes) : s.htc.tree = buildTree s.htc.freq := by
  obtain ⟨-, -, -, htree, -⟩ := (Htc.inv_iff hr.phase nofun).1 hr.inv
  exact htree

/-- The whole payload decodes to the input. -/
theorem State.ReadyToDecode.execAll_packed (hr : s.ReadyToDecode bytes)
    (hb : AssignsPaths s.htc.freq (buildTree s.htc.freq) book) (hbits : codeBits book bytes = some bits) :
    ∃ t, execAll ([Instr.dbegin] ++ decs (packString bits) ++ [Instr.dend]) s = .next t ∧
      t.htc.phase = .done ∧ t.htc.output = bytes := by
  obtain ⟨t, ht, hend⟩ := decodeAgreesWithTheLoopOfTheSource s (packString bits) hr.inv hr.phase (hr.total ▸ hr.room)
  rw [hr.total, hr.tree_eq, unpack_packString, padded,
    hb.tcDecode_codeBits (buildTree_shape s.htc.freq) hbits] at hend
  exact ⟨t, ht, hend⟩

/-- The first k bytes of the payload, with fewer bits than the input has, end with TRUNC. -/
theorem State.ReadyToDecode.execAll_truncated (hr : s.ReadyToDecode bytes)
    (hb : AssignsPaths s.htc.freq (buildTree s.htc.freq) book) (hbits : codeBits book bytes = some bits)
    (hk : 8 * k < bits.length) :
    ∃ t, execAll ([Instr.dbegin] ++ decs ((packString bits).take k) ++ [Instr.dend]) s = .next t ∧
      t.htc.phase = .fault ∧ t.htc.err = some .trunc := by
  obtain ⟨t, ht, hend⟩ := decodeAgreesWithTheLoopOfTheSource s ((packString bits).take k) hr.inv hr.phase
    (hr.total ▸ hr.room)
  have hlt : (unpack ((packString bits).take k)).length < bits.length := by
    rw [length_unpack, List.length_take]
    omega
  have hpre : unpack ((packString bits).take k) <+: bits :=
    List.prefix_of_prefix_length_le (unpack_packString bits ▸ unpack_take_prefix _ k) (prefix_padded bits) hlt.le
  rw [hr.total, hr.tree_eq, hb.tcDecode_truncated (buildTree_shape s.htc.freq) hbits hpre hlt] at hend
  exact ⟨t, ht, hend⟩

/-! ### A successful encode session -/

/-- An encode session that ends in phase DONE has packed its bits. -/
theorem Htc.Encoded.output_of_done {cfg : Config} {h g : Htc} (henc : h.Encoded cfg g bits) (hd : g.phase = .done) :
    g.output = packString bits := by
  rcases Nat.lt_or_ge cfg.outCap.toNat ((bits.length + 7) / 8) with hfull | hroom
  · cases (henc.full hfull).1.symm.trans hd
  · exact (henc.packed hroom).2.1

/-- A list of commands that phase FAULT refuses ends in phase DONE only from another phase (60_exceptions.md R204). -/
theorem phase_ne_fault_of_execAll_done {cmds : List Instr} (he : execAll cmds s = .next t) (hd : t.htc.phase = .done)
    (hcmds : ∀ i ∈ cmds, permission i .fault = .refused) : s.htc.phase ≠ .fault := by
  intro hf
  obtain ⟨u, hu, hhtc⟩ := execAll_inFault hf hcmds
  obtain rfl : u = t := Host.Outcome.next.inj (hu.symm.trans he)
  rw [hhtc, hf] at hd
  cases hd

/-- ENC per byte and FLUSH end in phase DONE only when every byte has a code: else ENC raises NOCODE (R160). -/
theorem exists_codeBits_of_done (hp : s.htc.phase = .encode) (he : execAll (encs bytes ++ [Instr.flush]) s = .next t)
    (hd : t.htc.phase = .done) : ∃ bits, codeBits s.htc.code bytes = some bits := by
  induction bytes generalizing s with
  | nil => exact ⟨[], rfl⟩
  | cons b bytes ih =>
    obtain ⟨x, hx, hrest⟩ := execAll_cons_inv he
    have halive := phase_ne_fault_of_execAll_done hrest hd permission_encs_flush
    cases hcv : (s.htc.codeOf b).cv with
    | false =>
      rw [exec_enc_noCode hp hcv] at hx
      cases hx
      exact absurd rfl halive
    | true =>
      have hphase : x.htc.phase = .encode := by
        rcases phaseTransitionsAreTheListedOnes (.enc b) s x hx with hsame | hfault | hother
        · exact hsame.trans hp
        · exact absurd hfault halive
        · simp at hother
      obtain ⟨-, -, (hcode : x.htc.code = s.htc.code), -⟩ := writeOwnershipIsComplete (.enc b) s x hx
      obtain ⟨tail, htail⟩ := ih hphase hrest
      exact ⟨_, codeBits_cons.2 ⟨hcv, tail, hcode ▸ htail, rfl⟩⟩

/-- What a successful encode session has left: the bytes of `pack` of the code bits, which are paths of its tree. -/
theorem packed_of_encodeSession {e : State} (hi : e.Inv) (hp : e.htc.phase = .encode) (hpacker : e.htc.PackerEmpty)
    (holen : e.htc.olen = 0) (he : execAll (encs bytes ++ [Instr.flush]) e = .next t) (hd : t.htc.phase = .done) :
    ∃ bits, codeBits e.htc.code bytes = some bits ∧ t.htc.output = packString bits ∧
      AssignsPaths e.htc.freq (buildTree e.htc.freq) e.htc.code := by
  obtain ⟨-, hfull, -, htree, hcodes, -⟩ := (Htc.inv_iff hp nofun).1 hi
  obtain ⟨bits, hbits⟩ := exists_codeBits_of_done hp he hd
  obtain ⟨u, hu, henc⟩ :=
    execAll_encs_flush (Htc.holdsBits_nil hpacker holen (hfull.omem_eq_nil holen)) hp hbits
  obtain rfl : u = t := Host.Outcome.next.inj (hu.symm.trans he)
  exact ⟨bits, hbits, henc.output_of_done hd, htree ▸ hcodes.assigns htree⟩

/-! ### The two sessions -/

/-- Settles O56: the payload is `pack` of the code bits of the input, which TC's loop decodes. -/
theorem roundTripRecoversTheInput : Obligations.RoundTripRecoversTheInput := by
  intro e d e' bytes hi hp hpacker holen he hd hdi hdp hfreq htotal hroom
  obtain ⟨bits, hbits, hout, hb⟩ := packed_of_encodeSession hi hp hpacker holen he hd
  have hr : d.ReadyToDecode bytes := ⟨hdi, hdp, htotal, hroom⟩
  rw [hout]
  exact hr.execAll_packed (hfreq ▸ hb) hbits

/-- Settles O57: k bytes hold 8k bits, which end inside the code of some byte of the input or before it. -/
theorem truncatedPayloadIsCaught : Obligations.TruncatedPayloadIsCaught := by
  intro e d e' bytes bits k hi hp hpacker holen he hd hbits hk hdi hdp hfreq htotal hroom
  obtain ⟨bits', hbits', hout, hb⟩ := packed_of_encodeSession hi hp hpacker holen he hd
  obtain rfl : bits' = bits := Option.some.inj (hbits'.symm.trans hbits)
  have hr : d.ReadyToDecode bytes := ⟨hdi, hdp, htotal, hroom⟩
  rw [hout]
  exact hr.execAll_truncated (hfreq ▸ hb) hbits hk

/-! ### The two procedures -/

/-- The encode procedure leaves the table of the input, and in phase DONE the bytes of `pack` of its code bits, in the
codes of the tree of that table. -/
theorem execAll_encodeProcedure (s : State) (hfits : ∀ v, bytes.count v < 2 ^ 32) :
    ∃ t book bits, execAll (encodeProcedure bytes) s = .next t ∧ (∀ v, (t.htc.count v).toNat = bytes.count v) ∧
      AssignsPaths t.htc.freq (buildTree t.htc.freq) book ∧ codeBits book bytes = some bits ∧
      (t.htc.phase = .done → t.htc.output = packString bits) := by
  obtain ⟨x, hx, -, hready⟩ := execAll_encodeStart s hfits
  obtain ⟨bits, hbits, -⟩ := exists_codeBits hready.cv
  obtain ⟨y, hy, henc⟩ := execAll_encs_flush hready.held hready.phase hbits
  obtain ⟨t, ht, hhtc⟩ := execAll_encodeReads y
  refine ⟨t, x.htc.code, bits, ?_, fun v => ?_, ?_, hbits, fun hd => ?_⟩
  · rw [encodeProcedure_eq, execAll_append_next hx, execAll_append_next hy, ht]
  · rw [hhtc, Htc.count, henc.freq]
    exact hready.counts v
  · rw [hhtc, henc.freq]
    exact hready.codes
  · rw [hhtc] at hd ⊢
    exact henc.output_of_done hd

/-- The total of the table of a byte list is its length. -/
theorem total_of_counts (hcount : ∀ v, (tableGet freq v).toNat = bytes.count v) :
    (total freq).toNat = bytes.length := by
  simp only [total_toNat, hcount, sum_count_allSymbols]

/-- One FSET per byte value of a list writes the counts of a table there. -/
theorem execAll_fsets (table : Vector Count 256) (symbols : List Byte) (hp : s.htc.phase = .load) :
    ∃ t f, execAll (symbols.map fun b => .fset b (tableGet table b)) s = .next t ∧ t.cfg = s.cfg ∧
      t.htc = { s.htc with freq := f } ∧
      ∀ b, tableGet f b = if b ∈ symbols then tableGet table b else s.htc.count b := by
  induction symbols generalizing s with
  | nil => exact ⟨s, s.htc.freq, rfl, rfl, rfl, fun b => by simp [Htc.count]⟩
  | cons c symbols ih =>
    have hexec : exec (.fset c (tableGet table c)) s = .next (s.answered (s.htc.setCount c (tableGet table c)) 0) :=
      exec_answered _ (by rw [hp]; rfl) rfl
    obtain ⟨t, f, ht, hcfg, hhtc, hf⟩ := ih (s := s.answered (s.htc.setCount c (tableGet table c)) 0) hp
    refine ⟨t, f, (execAll_cons_next hexec).trans ht, hcfg, hhtc, fun b => ?_⟩
    rw [hf b]
    by_cases hmem : b ∈ symbols
    · rw [if_pos hmem, if_pos (List.mem_cons_of_mem c hmem)]
    · rw [if_neg hmem]
      by_cases hbc : b = c
      · rw [hbc, if_pos List.mem_cons_self]
        exact tableGet_tableSet_same _ _ _
      · rw [if_neg (by simp [hbc, hmem])]
        exact tableGet_tableSet_other _ _ hbc

theorem table_ext {α : Type} {f g : Vector α 256} (h : ∀ b, tableGet f b = tableGet g b) : f = g := by
  rw [← Vector.toList_inj, toList_eq_map_tableGet, toList_eq_map_tableGet]
  exact List.map_congr_left fun b _ => h b

/-- The commands of the decode procedure before DBEGIN (R174). -/
def decodeStart (table : Vector Count 256) : List Instr :=
  [Instr.init] ++ allSymbols.map (fun b => Instr.fset b (tableGet table b)) ++ [Instr.build]

theorem decodeProcedure_eq (table : Vector Count 256) (payload : List Byte) :
    decodeProcedure table payload =
      decodeStart table ++ ([Instr.dbegin] ++ decs payload ++ [Instr.dend] ++ [Instr.olen]) := by
  simp only [decodeProcedure, decodeStart, List.append_assoc, List.cons_append, List.nil_append]

/-- INIT, the FSETs and BUILD leave the tree of the table, whatever the state at the start. -/
theorem execAll_decodeStart (table : Vector Count 256) (s : State) :
    ∃ t, execAll (decodeStart table) s = .next t ∧ t.cfg = s.cfg ∧ t.htc.freq = table ∧
      t.htc.phase = .tree ∧ t.Inv := by
  obtain ⟨x, f, hx, hcfg, hhtc, hf⟩ := execAll_fsets table allSymbols (s := s.answered Htc.reset 0) rfl
  obtain rfl : f = table := table_ext fun b => (hf b).trans (if_pos (mem_allSymbols b))
  have hphase : x.htc.phase = .load := congrArg Htc.phase hhtc
  have hinv : x.Inv := by
    rw [State.Inv, hhtc]
    exact (Htc.reset_inv x.cfg).set_freq rfl f
  refine ⟨x.answered { x.htc.setTree (buildTree x.htc.freq) with phase := .tree } 0, ?_, hcfg,
    congrArg Htc.freq hhtc, rfl, build_inv hinv hphase⟩
  exact (execAll_cons_next (exec_init s)).trans
    ((execAll_append_next hx).trans (execAll_cons_next (exec_build hphase)))

/-- Settles O60: the decode procedure rebuilds the tree of the input's table and is fed the `pack` of its code bits. -/
theorem roundTripOfTheProcedures : Obligations.RoundTripOfTheProcedures := by
  intro s d bytes hfits hroom
  obtain ⟨t, book, bits, ht, hcount, hb, hbits, hout⟩ := execAll_encodeProcedure s hfits
  refine ⟨t, ht, fun hdone => ?_⟩
  obtain ⟨x, hx, hcfg, hfreq, hphase, hinv⟩ := execAll_decodeStart t.htc.freq d
  have hr : x.ReadyToDecode bytes :=
    ⟨hinv, hphase, hfreq ▸ total_of_counts hcount, hcfg ▸ hroom⟩
  obtain ⟨y, hy, hydone, hyout⟩ := hr.execAll_packed (hfreq ▸ hb) hbits
  obtain ⟨u, hu, hhtc⟩ := exec_read (i := .olen) (s := y) rfl rfl
  refine ⟨u, ?_, by rw [hhtc, hydone], by rw [hhtc, hyout]⟩
  rw [decodeProcedure_eq, execAll_append_next hx, hout hdone, execAll_append_next hy, execAll_cons_next hu]
  rfl

end Sys2Proof.Machine
end

section
/-! PROOFS. The family of 46_control_output.md: STAT, OLEN, ORD (R186 to R188), and the read-out of OMEM that ends both
host procedures (44_encode.md R161, 45_decode.md R174). -/

namespace Sys2Proof.Machine

variable {cfg : Config} {h : Htc} {s : State} {addr : Len} {v : Byte}

/-! ### STAT and OLEN -/

/-- The registers at their places in DATA (30_encoding.md R75). -/
theorem statData_toNat (h : Htc) : (statData h).toNat =
    h.phase.bits.toNat + (errBits h.err).toNat * 2 ^ 4 + h.root.val * 2 ^ 8 + h.rootv.toNat * 2 ^ 17 +
      h.nleaf.toNat * 2 ^ 18 + h.nint.toNat * 2 ^ 27 + h.nbits.toNat * 2 ^ 35 + h.acc.toNat * 2 ^ 38 +
      h.cur.val * 2 ^ 46 := by
  have hzero9 : (0#9).toNat = 0 := rfl
  have hzero1 : (0#1).toNat = 0 := rfl
  simp only [statData, toNat_append_add, idxBits_toNat, BitVec.toNat_ofBool, hzero9, hzero1]
  omega

/-- Settles O21: STAT is executed in every phase, and answers the number its registers stand for. -/
theorem statReportsTheRegisters : Obligations.StatReportsTheRegisters :=
  ⟨decodeOfEncodeIsIdentity .stat, illegalWord_of_formatZ fun _ _ => rfl,
    fun s => ⟨statData s.htc, exec_answered .stat rfl rfl, statData_toNat s.htc⟩⟩

/-- Settles O22: OLEN answers its register, zero-extended. -/
theorem olenReportsTheLength : Obligations.OlenReportsTheLength :=
  ⟨decodeOfEncodeIsIdentity .olen, illegalWord_of_formatZ fun _ _ => rfl, needsLife_of .olen fun _ => rfl,
    fun s hp => ⟨s.htc.olen.setWidth 64, exec_answered .olen (anyButFault_other hp) rfl,
      BitVec.toNat_setWidth_of_le (by decide)⟩⟩

/-! ### ORD -/

theorem exec_ord_range (hp : s.htc.phase ≠ .fault) (haddr : s.htc.olen.toNat ≤ addr.toNat) :
    exec (.ord addr) s = .next (s.faulted .range) :=
  exec_faulted (.ord addr) (anyButFault_other hp) (if_pos (BitVec.le_def.2 haddr))

theorem ordEffect_byte (haddr : addr.toNat < h.olen.toNat) (hread : h.omem.read addr.toNat = some v) :
    ordEffect addr cfg h = .done h (v.setWidth 64) := by
  have hbelow : ¬ h.olen ≤ addr := fun hle => Nat.not_le.2 haddr (BitVec.le_def.1 hle)
  rw [ordEffect, if_neg hbelow, hread]

theorem exec_ord_byte (hp : s.htc.phase ≠ .fault) (haddr : addr.toNat < s.htc.olen.toNat)
    (hread : s.htc.omem.read addr.toNat = some v) :
    exec (.ord addr) s = .next (s.answered s.htc (v.setWidth 64)) :=
  exec_answered (.ord addr) (anyButFault_other hp) (ordEffect_byte (cfg := s.cfg) haddr hread)

theorem Htc.OmemFull.exists_read (hf : h.OmemFull cfg) {a : Nat} (ha : a < h.olen.toNat) :
    ∃ v, h.omem.read a = some v := by
  obtain ⟨-, hread, -⟩ := hf
  exact Option.isSome_iff_exists.1 ((hread a).2 ha)

/-- Settles O23: the two cases of the address, and the byte that the invariant puts below OLEN. -/
theorem ordReadsOneByte : Obligations.OrdReadsOneByte := fun addr =>
  ⟨decodeOfEncodeIsIdentity (.ord addr), illegalWord_of_formatB (fun _ _ => rfl) addr,
    needsLife_of (.ord addr) fun _ => rfl,
    fun s hp => ⟨exec_ord_range hp,
      fun haddr v hread => ⟨v.setWidth 64, exec_ord_byte hp haddr hread, BitVec.toNat_setWidth_of_le (by decide)⟩,
      fun haddr ⟨_, hfull, _⟩ => hfull.exists_read haddr⟩⟩

/-! ### The read-out -/

/-- A cell of OMEM holds the byte of its address, which is below OLEN. -/
theorem Htc.OmemFull.cell (hf : h.OmemFull cfg) {c : Host.Cell} (hc : c ∈ h.omem) :
    c.1 < h.olen.toNat ∧ h.omem.read c.1 = some c.2 := by
  obtain ⟨hwf, hread, -⟩ := hf
  have hcell := Memory.read_of_mem hwf hc
  exact ⟨(hread c.1).1 (Option.isSome_of_eq_some hcell), hcell⟩

/-- OMEM lists exactly the addresses below OLEN, in rising order. -/
theorem Htc.OmemFull.addresses (hf : h.OmemFull cfg) : h.omem.map (·.1) = List.range h.olen.toNat := by
  have hrising : (h.omem.map (·.1)).Pairwise (· < ·) := List.pairwise_map.2 hf.1
  refine hrising.eq_of_mem_iff List.pairwise_lt_range fun a => ?_
  rw [List.mem_range]
  constructor
  · intro ha
    obtain ⟨c, hc, rfl⟩ := List.mem_map.1 ha
    exact (hf.cell hc).1
  · intro ha
    obtain ⟨v, hv⟩ := hf.exists_read ha
    exact List.mem_map_of_mem (Memory.mem_of_read hv)

/-- One ORD per listed cell of OMEM answers the bytes of the cells, in the order of the list. -/
theorem execAll_ords (cells : List Host.Cell) (hp : s.htc.phase ≠ .fault)
    (hcells : ∀ c ∈ cells, c.1 < s.htc.olen.toNat ∧ s.htc.omem.read c.1 = some c.2) :
    execAll (cells.map fun c => .ord (BitVec.ofNat 32 c.1)) s =
      .next { s with rsps := s.rsps ++ cells.map fun c => { status := .ok, data := c.2.setWidth 64 } } := by
  induction cells generalizing s with
  | nil => simp [execAll]
  | cons c cells ih =>
    obtain ⟨⟨hbelow, hread⟩, hrest⟩ := List.forall_mem_cons.1 hcells
    have haddr : (BitVec.ofNat 32 c.1).toNat = c.1 :=
      (BitVec.toNat_ofNat c.1 32).trans (Nat.mod_eq_of_lt (hbelow.trans s.htc.olen.isLt))
    have hexec : exec (.ord (BitVec.ofNat 32 c.1)) s = .next (s.answered s.htc (c.2.setWidth 64)) :=
      exec_ord_byte hp (haddr.symm ▸ hbelow) (haddr.symm ▸ hread)
    rw [List.map_cons, execAll_cons_next hexec]
    refine (ih (s := s.answered s.htc (c.2.setWidth 64)) hp hrest).trans ?_
    simp [State.answered]

/-- Settles O58: the addresses read out are those of the cells of OMEM, in order. -/
theorem readOutGivesTheOutput : Obligations.ReadOutGivesTheOutput := by
  rintro s ⟨-, hfull, -⟩ hp
  have hrun := execAll_ords s.htc.omem hp fun c hc => hfull.cell hc
  rw [readOut, ← hfull.addresses, Htc.output, List.map_map, List.map_map]
  exact hrun

end Sys2Proof.Machine
end

section
/-! PROOFS. The family of 60_exceptions.md: the faults each command raises of its own (R200), what the response to a
word can be (R201 to R204), and the table of which command may run in which phase (R202). -/

namespace Sys2Proof.Machine

variable {i : Instr} {cfg : Config} {h : Htc} {c : FaultCode} {s t : State} {w : CmdWord}

/-! ### The faults of a command's own -/

theorem ofExcept_raise {r : Except FaultCode Htc} (e : CmdResult.ofExcept r = .raise c) : r = .error c := by
  cases r with
  | ok x => cases e
  | error c' => cases e; rfl

/-- The only fault of a string of pushed bits is OVERFLOW (43_bitpacker.md R145). -/
theorem pushBits_error {bits : BitString} (e : pushBits cfg h bits = .error c) : c = .overflow := by
  induction bits generalizing h with
  | nil => cases e
  | cons b bits ih =>
    cases eb : pushBit cfg h b with
    | ok x =>
      rw [pushBits_cons_ok eb] at e
      exact ih e
    | error c' =>
      rw [pushBits, eb] at e
      cases e
      exact (pushBit_error eb).1

/-- The only fault of `step(b)` is that of its `drain()`, OVERFLOW (45_decode.md R170). -/
theorem walkBit_error {b : Bool} (e : walkBit cfg h b = .error c) : c = .overflow := by
  cases hw : h.wanting with
  | false => rw [walkBit_padding b hw] at e; cases e
  | true => rw [walkBit_descend b hw] at e; exact drainLoop_error e

theorem walkBits_error {bits : BitString} (e : walkBits cfg h bits = .error c) : c = .overflow := by
  induction bits generalizing h with
  | nil => cases e
  | cons b bits ih =>
    cases eb : walkBit cfg h b with
    | ok x =>
      rw [walkBits_cons_ok eb] at e
      exact ih e
    | error c' =>
      rw [walkBits, eb] at e
      cases e
      exact walkBit_error eb

theorem dbeginEffect_raise (he : dbeginEffect cfg h = .raise c) : c = .overflow := by
  unfold dbeginEffect at he
  split at he
  · cases he; rfl
  · have hmap := ofExcept_raise he
    cases hd : drain cfg { h with cur := h.root } with
    | ok x => rw [hd] at hmap; cases hmap
    | error c' => rw [hd] at hmap; cases hmap; exact drainLoop_error hd

/-- The faults each command raises of its own, after the checks of R201. -/
theorem effect_raise (i : Instr) (he : effect i cfg h = .raise c) :
    match i with
    | .fcnt _ => c = .freqOvf
    | .nget _ | .cbit _ _ | .ord _ => c = .range
    | .enc _ => c = .noCode ∨ c = .overflow
    | .pbit _ | .flush | .dbegin | .dec _ => c = .overflow
    | .dend => c = .trunc
    | .init | .stat | .fset _ _ | .fget _ | .ftot | .build | .gen | .clen _ | .olen => False := by
  cases i with
  | init | stat | fset | fget | ftot | build | clen | olen => cases he
  | gen => simp only [effect, genEffect] at he; split at he <;> cases he
  | fcnt byte => simp only [effect, fcntEffect] at he; split at he <;> cases he; rfl
  | nget idx => simp only [effect, ngetEffect] at he; split at he <;> cases he; rfl
  | cbit sym pos => simp only [effect, cbitEffect] at he; split at he <;> cases he; rfl
  | ord addr =>
    simp only [effect, ordEffect] at he
    split at he
    · cases he; rfl
    · split at he <;> cases he
  | pbit bit =>
    simp only [effect, pbitEffect] at he
    split at he
    · cases he; rfl
    · exact (pushBit_error (ofExcept_raise he)).1
  | enc byte =>
    simp only [effect, encEffect] at he
    split at he
    · cases he; exact .inl rfl
    · split at he
      · cases he; exact .inr rfl
      · exact .inr (pushBits_error (ofExcept_raise he))
  | flush =>
    simp only [effect, flushEffect] at he
    split at he
    · cases he
    · split at he <;> cases he; rfl
  | dbegin => exact dbeginEffect_raise he
  | dec byte => exact walkBits_error (ofExcept_raise he)
  | dend => simp only [effect, dendEffect] at he; split at he <;> cases he; rfl

/-- PHASE is raised by the phase table alone, never by a command's pseudocode (R201). -/
theorem effect_ne_raise_phase : effect i cfg h ≠ .raise .phase := by
  intro he
  have hc := effect_raise i he
  cases i
  case enc => exact hc.elim nofun nofun
  all_goals cases hc

/-! ### The phase table -/

theorem executed_of (hp : permission i s.htc.phase = .executed) : Executed i s := by
  intro t ht
  rcases exec_cases ht with ⟨hr, _⟩ | ⟨hw, _⟩ | ⟨c, _, he, rfl⟩ | ⟨g, d, _, _, rfl⟩
  · cases hp.symm.trans hr
  · cases hp.symm.trans hw
  · refine ⟨_, State.takeFault_rsps s c, nofun, fun hc => ?_⟩
    cases hc
    exact effect_ne_raise_phase he
  · exact ⟨_, rfl, nofun, nofun⟩

/-- A row of R202 with one `y`. -/
theorem needsPhase_and_executed (i : Instr) {p : Phase} (hne : p ≠ .fault)
    (hrow : ∀ now, permission i now = onlyIn p now) :
    NeedsPhase i p ∧ ∀ s, s.htc.phase = p → Executed i s :=
  ⟨needsPhase_of i p hrow, fun s hp => executed_of (by rw [hrow, hp, onlyIn_same hne])⟩

/-- The last row of R202. -/
theorem needsLife_and_executed (i : Instr) (hrow : ∀ now, permission i now = anyButFault now) :
    NeedsLife i ∧ ∀ s, s.htc.phase ≠ .fault → Executed i s :=
  ⟨needsLife_of i hrow, fun s hp => executed_of (by rw [hrow, anyButFault_other hp])⟩

/-- Settles O18: row by row of R202; an executed command answers neither FAULTED nor PHASE. -/
theorem phaseTableIsEnforced : Obligations.PhaseTableIsEnforced := by
  intro i
  cases i
  case init | stat => exact fun s => executed_of rfl
  case fset | fcnt | build => exact needsPhase_and_executed (p := .load) _ nofun fun _ => rfl
  case gen | dbegin => exact needsPhase_and_executed (p := .tree) _ nofun fun _ => rfl
  case pbit | enc | flush => exact needsPhase_and_executed (p := .encode) _ nofun fun _ => rfl
  case dec | dend => exact needsPhase_and_executed (p := .decode) _ nofun fun _ => rfl
  case fget | ftot | nget | clen | cbit | olen | ord => exact needsLife_and_executed _ fun _ => rfl

/-! ### The response to a word -/

theorem phase_ne_fault_of_wrongPhase {now : Phase} (hp : permission i now = .wrongPhase) : now ≠ .fault := by
  rintro rfl
  cases i <;> cases hp

/-- What HTC answers to a word, legal or not: FAULTED, a fault outside phase FAULT, or OK. -/
theorem presentWord_cases (ht : presentWord w s = .next t) :
    t = s.turnedAway ∨ (∃ c, s.htc.phase ≠ .fault ∧ t = s.faulted c) ∨ ∃ g d, t = s.answered g d := by
  cases hd : decode w with
  | none =>
    rw [presentWord_illegal hd] at ht
    cases ht
    by_cases hf : s.htc.phase = .fault
    · exact .inl (State.illegalWord_of_fault hf)
    · exact .inr (.inl ⟨.illegal, hf, State.illegalWord_of_alive hf⟩)
  | some i =>
    rw [presentWord_legal hd] at ht
    rcases exec_cases ht with ⟨_, ht⟩ | ⟨hp, ht⟩ | ⟨c, hp, he, ht⟩ | ⟨g, d, _, _, ht⟩
    · exact .inl ht
    · exact .inr (.inl ⟨.phase, phase_ne_fault_of_wrongPhase hp, ht⟩)
    · exact .inr (.inl ⟨c, phase_ne_fault_of_raise hp he, ht⟩)
    · exact .inr (.inr ⟨g, d, ht⟩)

/-- Settles O16: of the answers to a word, one alone has a fault as its STATUS. -/
theorem faultChangesOnlyErrAndPhase : Obligations.FaultChangesOnlyErrAndPhase := by
  intro s t w rest d c hinput hstep hrsps
  rw [step_input hinput, presentInput_command] at hstep
  rcases presentWord_cases hstep with rfl | ⟨c', hp, rfl⟩ | ⟨g, d', rfl⟩
  · cases List.append_cancel_left hrsps
  · cases List.append_cancel_left hrsps
    exact ⟨rfl, hp, rfl⟩
  · cases List.append_cancel_left hrsps

/-! ### Phase FAULT -/

theorem permission_fault (hinit : i ≠ .init) (hstat : i ≠ .stat) : permission i .fault = .refused := by
  cases i
  case init => exact absurd rfl hinit
  case stat => exact absurd rfl hstat
  all_goals rfl

/-- PHASE stands in bits 2 to 0 of STAT's DATA (46_control_output.md R186). -/
theorem statData_phase (h : Htc) : (statData h).extractLsb' 0 3 = h.phase.bits :=
  (BitVec.extractLsb'_append_eq_of_add_le (by omega)).trans BitVec.extractLsb'_eq_self

/-- ERR stands in bits 7 to 4 of STAT's DATA (46_control_output.md R186). -/
theorem statData_err (h : Htc) : (statData h).extractLsb' 4 4 = errBits h.err := by
  rw [statData, BitVec.extractLsb'_append_eq_of_le (by omega), BitVec.extractLsb'_append_eq_of_le (by omega),
    BitVec.extractLsb'_append_eq_of_add_le (by omega)]
  exact BitVec.extractLsb'_eq_self

/-- Settles O17: INIT and STAT are executed in every phase, and the table refuses every other command in phase FAULT. -/
theorem faultPhaseRefusesEveryOtherWord : Obligations.FaultPhaseRefusesEveryOtherWord := by
  intro s w rest hinput hp
  have hrun : ∀ i, decode w = some i → step s = exec i { s with inputs := rest } := fun i hd =>
    stepRunsTheDecodedCommand s w rest i hinput hd
  refine ⟨fun hd => (hrun .init hd).trans (exec_init _), fun hd => ?_, fun hinit hstat => ?_⟩
  · refine ⟨statData s.htc, (hrun .stat hd).trans (exec_answered .stat rfl rfl), ?_, statData_err s.htc⟩
    rw [statData_phase, hp]
    rfl
  · cases hd : decode w with
    | none =>
      obtain ⟨-, hword⟩ := illegalWord_of hd
      exact (hword s rest hinput).1 hp
    | some i =>
      have hrefused : permission i s.htc.phase = .refused :=
        hp ▸ permission_fault (fun e => hinit (e ▸ hd)) (fun e => hstat (e ▸ hd))
      exact (hrun i hd).trans (exec_turnedAway i hrefused)

end Sys2Proof.Machine
end

section
/-! PROOFS. The family of 70_reset_and_hazards.md: idle steps, hardware reset and INIT (R230, R231), progress from every
state with the invariants (R242), and the bytes of OMEM that stay as written until the next reset (R26, R232). -/

namespace Sys2Proof.Machine

variable {cfg : Config} {h x g : Htc} {d : Data} {s : State} {i : Instr}

/-! ### Idle, reset, INIT -/

theorem step_idle (hidle : s.inputs = []) : step s = .next s := by rw [step, hidle]

/-- Settles O8: a step without an input, with a reset, and INIT in every phase. -/
theorem idleResetAndInit : Obligations.IdleResetAndInit :=
  ⟨fun _ => step_idle, fun _ _ hreset => (step_input hreset).trans presentInput_reset,
    decodeOfEncodeIsIdentity .init, illegalWord_of_formatZ fun _ _ => rfl, exec_init⟩

/-! ### Progress -/

/-- A command that responds 0 or raises a fault is never stuck. -/
theorem ofExcept_ne_stuck (e : Except FaultCode Htc) (r : Fault) : CmdResult.ofExcept e ≠ .stuck r := by
  cases e with
  | ok y => rw [CmdResult.ofExcept_ok]; nofun
  | error c => rw [CmdResult.ofExcept_error]; nofun

/-- The only commands that can be stuck are GEN over an arena without a CodeBook and ORD of an address below OLEN that
OMEM does not hold. -/
theorem effect_stuck (i : Instr) {r : Fault} (he : effect i cfg h = .stuck r) :
    (i = .gen ∧ genBook h.node h.rootv h.root = .error r) ∨
    (∃ addr, i = .ord addr ∧ addr.toNat < h.olen.toNat ∧ h.omem.read addr.toNat = none) := by
  cases i with
  | init | stat | fset | fget | ftot | build | clen | olen => cases he
  | gen =>
    simp only [effect, genEffect] at he
    split at he
    · cases he
    · next r' hbook => cases he; exact .inl ⟨rfl, hbook⟩
  | ord addr =>
    simp only [effect, ordEffect] at he
    split at he
    · cases he
    · next hle =>
      split at he
      · cases he
      · next hread => exact .inr ⟨addr, rfl, Nat.lt_of_not_le (mt BitVec.le_def.2 hle), hread⟩
  | fcnt byte => simp only [effect, fcntEffect] at he; split at he <;> cases he
  | nget idx => simp only [effect, ngetEffect] at he; split at he <;> cases he
  | cbit sym pos => simp only [effect, cbitEffect] at he; split at he <;> cases he
  | pbit bit =>
    simp only [effect, pbitEffect] at he
    split at he
    · cases he
    · exact absurd he (ofExcept_ne_stuck _ r)
  | enc byte =>
    simp only [effect, encEffect] at he
    split at he
    · cases he
    · split at he
      · cases he
      · exact absurd he (ofExcept_ne_stuck _ r)
  | flush =>
    simp only [effect, flushEffect] at he
    split at he
    · cases he
    · split at he <;> cases he
  | dbegin =>
    simp only [effect, dbeginEffect] at he
    split at he
    · cases he
    · exact absurd he (ofExcept_ne_stuck _ r)
  | dec byte => exact absurd he (ofExcept_ne_stuck _ r)
  | dend => simp only [effect, dendEffect] at he; split at he <;> cases he

/-- With the invariants, GEN finds BUILD's tree and ORD finds its byte. -/
theorem effect_ne_stuck (hi : h.Inv cfg) (hp : permission i h.phase = .executed) (r : Fault) :
    effect i cfg h ≠ .stuck r := by
  intro he
  rcases effect_stuck i he with ⟨rfl, herror⟩ | ⟨addr, rfl, haddr, hnone⟩
  · have htreePhase : h.phase = .tree := phase_of_executed .gen hp
    obtain ⟨-, -, -, htree, -⟩ := (Htc.inv_iff htreePhase nofun).1 hi
    obtain ⟨book, hbook, -⟩ := htree.shape.genBook_assigns
    cases hbook.symm.trans herror
  · obtain ⟨-, hfull, -⟩ := hi
    obtain ⟨v, hread⟩ := hfull.exists_read haddr
    cases hread.symm.trans hnone

theorem exists_exec_next (hi : s.Inv) (i : Instr) : ∃ t, exec i s = .next t := by
  cases he : exec i s with
  | next t => exact ⟨t, rfl⟩
  | fault r =>
    obtain ⟨hp, hstuck⟩ := runCommand_fault ((exec_eq i s).symm.trans he)
    exact absurd hstuck (effect_ne_stuck hi hp r)
  | refused r => exact absurd he (exec_ne_refused r)

/-- Settles O12: an idle step, a reset and an illegal word always answer; a command answers because it is not stuck. -/
theorem stepNeverStops : Obligations.StepNeverStops := by
  intro s hi
  cases hinputs : s.inputs with
  | nil => exact ⟨s, step_idle hinputs⟩
  | cons x rest =>
    rw [step_input hinputs]
    cases x with
    | reset => exact ⟨_, presentInput_reset⟩
    | command w =>
      rw [presentInput_command]
      cases hd : decode w with
      | none => exact ⟨_, presentWord_illegal hd⟩
      | some i =>
        rw [presentWord_legal hd]
        exact exists_exec_next (s := { s with inputs := rest }) hi i

/-! ### The bytes already written -/

/-- g is h with bytes appended above OLEN only; OMEM is still full up to OLEN and within OUT_CAP. -/
def Htc.KeepsBytes (cfg : Config) (h g : Htc) : Prop :=
  g.OmemFull cfg ∧ h.olen.toNat ≤ g.olen.toNat ∧ ∀ a, a < h.olen.toNat → g.omem.read a = h.omem.read a

theorem Htc.KeepsBytes.refl (hf : h.OmemFull cfg) : h.KeepsBytes cfg h := ⟨hf, le_rfl, fun _ _ => rfl⟩

/-- One more byte, below OUT_CAP, where OLEN does not wrap. -/
theorem Htc.KeepsBytes.append (hx : h.KeepsBytes cfg x) (ho : x.olen ≠ cfg.outCap) (v : Byte) :
    h.KeepsBytes cfg (x.append v) := by
  obtain ⟨hf, hle, hread⟩ := hx
  obtain ⟨hsucc, -⟩ := hf.olen_succ_and_lt ho
  refine ⟨hf.append ho v, ?_, fun a ha => ?_⟩
  · rw [Htc.append_olen, hsucc]
    omega
  · rw [Htc.append_omem, Memory.read_write_other x.omem v (by omega), hread a ha]

theorem pushBit_keepsBytes {b : Bool} (hx : h.KeepsBytes cfg x) (e : pushBit cfg x b = .ok g) :
    h.KeepsBytes cfg g := by
  rcases pushBit_cases e with ⟨_, rfl⟩ | ⟨_, ho, rfl⟩
  · exact hx
  · exact hx.append ho _

theorem drain_keepsBytes (hx : h.KeepsBytes cfg x) (e : drain cfg x = .ok g) : h.KeepsBytes cfg g :=
  drainLoop_induct (P := h.KeepsBytes cfg) (fun y hy ho => hy.append ho (idxByte y.cur)) e hx

theorem walkBit_keepsBytes {b : Bool} (hx : h.KeepsBytes cfg x) (e : walkBit cfg x b = .ok g) :
    h.KeepsBytes cfg g := by
  cases hw : x.wanting with
  | false =>
    rw [walkBit_padding b hw] at e
    cases e
    exact hx
  | true =>
    rw [walkBit_descend b hw] at e
    exact drain_keepsBytes (x := x.descended b) hx e

/-- Every command that completes keeps the bytes below OLEN, unless it is INIT: the writers of OMEM (R35) append. -/
theorem effect_keepsBytes (i : Instr) (he : effect i cfg h = .done g d) (hf : h.OmemFull cfg) :
    g = Htc.reset ∨ h.KeepsBytes cfg g := by
  have hframe := effect_frame i he
  have hrefl := Htc.KeepsBytes.refl hf
  cases i
  case init => exact .inl hframe.1
  case pbit bit => exact .inr (pushBit_keepsBytes hrefl (pbitEffect_done he))
  case enc byte =>
    exact .inr (pushBits_induct (P := h.KeepsBytes cfg) (fun _ _ _ => pushBit_keepsBytes) (encEffect_done he) hrefl)
  case flush =>
    rcases flushEffect_done he with ⟨_, rfl⟩ | ⟨ho, rfl⟩
    · exact .inr hrefl
    · exact .inr (hrefl.append ho h.acc)
  case dbegin =>
    obtain ⟨y, hdrain, rfl⟩ := dbeginEffect_done he
    have hy : h.KeepsBytes cfg y := drain_keepsBytes (x := h.atRoot) hrefl hdrain
    exact .inr hy
  case dec byte =>
    exact .inr (walkBits_induct (P := h.KeepsBytes cfg) (fun _ _ _ => walkBit_keepsBytes) (decEffect_done he) hrefl)
  case stat | fget | ftot | nget | clen | cbit | olen | ord => rw [hframe]; exact .inr hrefl
  all_goals rw [hframe.1]; exact .inr hrefl

/-- Settles O14: a step leaves OMEM alone, resets HTC, or completes a command, which appends at most. -/
theorem stepKeepsCapacityAndWrittenBytes : Obligations.StepKeepsCapacityAndWrittenBytes := by
  refine fun s t hstep => ⟨step_cfg hstep, fun ⟨_, hfull, _⟩ => ?_⟩
  rcases step_htc_cases hstep with hs | hr | ⟨_, c, hc⟩ | ⟨i, d, _, hd⟩
  · exact .inr fun a _ => by rw [hs]
  · exact .inl hr
  · exact .inr fun a _ => by rw [hc]; rfl
  · exact (effect_keepsBytes i hd hfull).imp_right fun ⟨_, _, hread⟩ => hread

end Sys2Proof.Machine
end
